-- ==== Sys2Proof/Word.lean ====
section
/-! DEFINITION. The word types of the block (00_scope.md R9 to R12) and one table builder.
Bit numbering is little-endian within a word: bit 0 is the least significant bit (R11). -/

namespace Sys2Proof

/-- A byte: one bus cycle moves exactly one (R10). -/
abbrev Byte := BitVec 8

/-- A 16-bit field: `u16`, or `s16` where a rule reads it as two's complement with `toInt` (R12). -/
abbrev Half := BitVec 16

/-- A 32-bit word: a value of the GPIO output register (R9) or a `u32` operand. -/
abbrev Word := BitVec 32

/-- The 9-bit bus word of one 8080 cycle: bit 8 is DC, bits 7..0 the byte (R109). -/
abbrev BusWord := BitVec 9

/-- A table of `n` entries from the function of their index, written over a list so that the kernel
evaluates it. -/
def tabulate {α : Type} (n : Nat) (f : Nat → α) : Vector α n :=
  ⟨((List.range n).map f).toArray, by simp⟩

@[simp] theorem getElem_tabulate {α : Type} {n : Nat} (f : Nat → α) (i : Nat) (h : i < n) :
    (tabulate n f)[i] = f i := by
  simp [tabulate]

end Sys2Proof
end

