-- ==== Sys2Proof/Config.lean ====
section
/-! DEFINITION. The parameters a model takes as arguments (00_scope.md R8, 44_touch.md R281), as plain
data, and the free values: opaque constants with no body, of which no proof can learn a value. -/

namespace Sys2Proof

/-- The pixel format `P_FORMAT`: 16, 18 or 24 bits per pixel (R8, R40). -/
inductive PixelFormat where
  | bpp16
  | bpp18
  | bpp24
deriving DecidableEq, Repr

/-- The controller profile selector `P_PROFILE` (R8, R240). -/
inductive Profile where
  | ili9341
  | ili9486
  | ili9488
deriving DecidableEq, Repr

/-- Drive mode of one GPIO pin (R39). -/
inductive PinMode where
  | output
  | released
deriving DecidableEq, Repr

/-- The channels of the touch ADC (R284). -/
inductive AdcChannel where
  | x
  | y
  | z
deriving DecidableEq, Repr

/-- The thirteen bus pin fields of `cfg` (R31). -/
structure BusPins (α : Type) where
  d   : Vector α 8
  cs  : α
  dc  : α
  wr  : α
  rd  : α
  rst : α
deriving DecidableEq, Repr

/-- The immutable bus configuration `cfg` (R31, R32): GPIO bit positions and the two register addresses. -/
structure BusConfig where
  pins    : BusPins Nat
  outAddr : Nat
  setAddr : Nat
deriving DecidableEq, Repr

/-- The five touch pins (R281). -/
structure TouchPins (α : Type) where
  xp : α
  xm : α
  yp : α
  ym : α
  re : α
deriving DecidableEq, Repr

/-- One axis of the touch calibration: raw bounds and the direction code 0..3 (R42). -/
structure AxisCal where
  min : Half
  max : Half
  dir : Fin 4
deriving DecidableEq, Repr

/-- One entry `(opcode, params, delay_ms)` of the profile's initialisation sequence (R249). -/
structure InitEntry where
  opcode  : Byte
  params  : List Byte
  delayMs : Nat
deriving DecidableEq, Repr

/-- The parameter byte of controller command 0x3A for each pixel format, `P_COLMOD` (R8, R263). -/
structure Colmod where
  b16 : Byte
  b18 : Byte
  b24 : Byte
deriving DecidableEq, Repr

/-- Which function `P_PRESSURE` is (R281). DESIGN CHOICE (log 9): `unconstrained` is the opaque
`Config.pressure`, of which nothing is known; `firstRead` is the spec's EX1, the single Z read itself. -/
inductive PressureFn where
  | unconstrained
  | firstRead
deriving DecidableEq, Repr

/-- Which function `P_TOUCH_ORIENT` is (R281). DESIGN CHOICE (log 9): `unconstrained` is the opaque
`Config.orient` under the one law of R292; `identity` is the spec's EX1, `(px, py)` for every code. -/
inductive OrientFn where
  | unconstrained
  | identity
deriving DecidableEq, Repr

/-- The construction arguments: every parameter of R8 and R281. Pins are integers, as the spec has
them: the checks of R371 refuse those outside 0..31. -/
structure Params where
  pins           : BusPins Int
  validPins      : List Int
  outAddr        : Nat
  setAddr        : Nat
  addrBits       : Nat
  format         : PixelFormat
  nativeW        : Half
  nativeH        : Half
  rotMadctl      : Vector Byte 4
  scrollRows     : Half
  initSeq        : List InitEntry
  profile        : Profile
  colmod         : Colmod
  resetMs        : Nat
  sleepOutMs     : Nat
  touchPins      : TouchPins Int
  touchN         : Nat
  pressTh        : Int
  noiseTh        : Int
  pressReads     : Nat
  pressureFn     : PressureFn
  orientFn       : OrientFn
  cal0X          : AxisCal
  cal0Y          : AxisCal
  autocal0       : Bool
  restoresPins   : Bool
deriving DecidableEq, Repr

/-- What the environment leaves at the pins when construction ends: the draws of R52 and R375. -/
structure ResetEnv where
  out     : Word
  pinMode : Vector PinMode 32
deriving DecidableEq, Repr

/-- FREE VALUE (log 7): the `n`-th draw of the ADC oracle on a channel, under no law (R284). -/
opaque Config.adcReading : Nat → AdcChannel → Half

/-- FREE VALUE (log 8): what OUT's bits for shared touch pins become after a touch pass that does not
restore them (R300). -/
opaque Config.outDraw : Nat → Word

/-- FREE VALUE (log 9): `P_PRESSURE`, uninterpreted (R281, D43). -/
opaque Config.pressure : List Half → Int

/-- FREE VALUE (logs 9, 10): `P_TOUCH_ORIENT` outside its one law, uninterpreted; its result is an s16
pair by type, the premise of R299. -/
opaque Config.orient : Fin 4 → Fin 4 → Fin 4 → Int → Int → Half × Half

/-- FREE VALUE (log 21): the median of no readings, with P_TOUCH_N = 0. -/
opaque Config.emptyMedian : Half

/-- FREE VALUE (log 21): the pixel on an axis with min = max, from its bound, the size and the reading. -/
opaque Config.flatAxis : Half → Half → Half → Int

/-- FREE VALUE (log 12): the table entries and the baseline that a failed reset leaves unspecified (R372). -/
opaque Config.unbuilt : Nat → Word

end Sys2Proof
end

