-- ==== Sys2Proof/Machine/Bus.lean ====
section
/-! DEFINITION. The pure functions of the bus: pin masks (10_state.md R33), the table words (40_lut.md),
the receiver rules (41_bus_cycles.md R161 to R164) and the stores of each bus cycle (R165 to R167). -/

namespace Sys2Proof.Machine

/-! ### Masks and fields of a GPIO word -/

/-- `bit(n)`: the word with only bit n set (R11). -/
def bit (p : Nat) : Word := 1#32 <<< p

/-- `DMASK`: the eight data pins (R33). -/
def dataMask (pins : BusPins Nat) : Word :=
  bit pins.d[0] ||| bit pins.d[1] ||| bit pins.d[2] ||| bit pins.d[3] |||
  bit pins.d[4] ||| bit pins.d[5] ||| bit pins.d[6] ||| bit pins.d[7]

/-- The five control pins. -/
def controlMask (pins : BusPins Nat) : Word :=
  bit pins.cs ||| bit pins.dc ||| bit pins.wr ||| bit pins.rd ||| bit pins.rst

/-- `BUSMASK`: the thirteen bus pins (R33). -/
def busMask (pins : BusPins Nat) : Word := dataMask pins ||| controlMask pins

/-- The control pins whose level the controller watches: CS, WR, RD, RST (R300, R373). -/
def strobeMask (pins : BusPins Nat) : Word :=
  bit pins.cs ||| bit pins.wr ||| bit pins.rd ||| bit pins.rst

/-- `old` with the bits of `m` taken from `v`: `(old & ~m) | (v & m)` (R356). -/
def replaceBits (old m v : Word) : Word := (old &&& ~~~m) ||| (v &&& m)

/-- `spread(b)`: the data pins of the bits of b that are 1 (R143). -/
def spread (pins : BusPins Nat) (b : Byte) : Word :=
  lane 0 ||| lane 1 ||| lane 2 ||| lane 3 ||| lane 4 ||| lane 5 ||| lane 6 ||| lane 7
where
  /-- Data line i: its pin's bit where b[i] = 1. -/
  lane (i : Fin 8) : Word := if b.getLsbD i then bit pins.d[i] else 0#32

/-- `decode(w)`: the byte on the data pins of a GPIO word (R145, R161); bit i is w[pin_d[i]]. -/
def dataByte (pins : BusPins Nat) (w : Word) : Byte :=
  line 7 ++ line 6 ++ line 5 ++ line 4 ++ line 3 ++ line 2 ++ line 1 ++ line 0
where
  /-- The level of data line i. -/
  line (i : Fin 8) : BitVec 1 := BitVec.ofBool (w.getLsbD pins.d[i])

/-! ### The lookup table (40_lut.md) -/

/-- The baseline of a read of OUT: data, CS and WR forced to 0, DC forced to 1, the rest kept (R141). -/
def baseline (pins : BusPins Nat) (o : Word) : Word :=
  (o &&& ~~~(dataMask pins) &&& ~~~(bit pins.cs) &&& ~~~(bit pins.wr)) ||| bit pins.dc

/-- The 256 entries `LUT[b] = BASE | spread(b)` (R143). -/
def tableOf (pins : BusPins Nat) (base : Word) : Vector Word 256 :=
  tabulate 256 fun b => base ||| spread pins (BitVec.ofNat 8 b)

/-- `LUT[b]` (R36). -/
def lutAt (lut : Vector Word 256) (b : Byte) : Word := lut[b.toNat]'(b.isLt)

/-- The command word of a byte: its table word with DC cleared (R111, R165). -/
def commandGpioWord (pins : BusPins Nat) (lut : Vector Word 256) (c : Byte) : Word :=
  lutAt lut c &&& ~~~(bit pins.dc)

/-! ### Bus events (R161 to R163) -/

/-- An event of the bus trace (R48). -/
inductive BusEvent where
  /-- Begin: CS falls. -/
  | csBegin
  /-- Cmd(d): a command cycle is latched. -/
  | cmd (d : Byte)
  /-- Data(d): a data cycle is latched. -/
  | data (d : Byte)
  /-- End: CS rises. -/
  | csEnd
  /-- Indeterminate: a WR edge whose effect on the controller is not settled (R163). -/
  | indeterminate
deriving DecidableEq, Repr

/-- The latched cycle of a WR rising edge with CS low throughout: the DC level and the byte, if D, DC,
RD and RST are stable and RD = RST = 1; otherwise Indeterminate (R161). -/
def latchedCycle (pins : BusPins Nat) (old new : Word) : BusEvent :=
  if (old ^^^ new) &&& (dataMask pins ||| bit pins.dc ||| bit pins.rd ||| bit pins.rst) = 0#32 ∧
      new.getLsbD pins.rd = true ∧ new.getLsbD pins.rst = true then
    if new.getLsbD pins.dc then .data (dataByte pins new) else .cmd (dataByte pins new)
  else .indeterminate

/-- The event of the WR line, if WR rises (R161, R162). -/
def strobeEvents (pins : BusPins Nat) (old new : Word) : List BusEvent :=
  if old.getLsbD pins.wr = false ∧ new.getLsbD pins.wr = true then
    if old.getLsbD pins.cs = false ∧ new.getLsbD pins.cs = false then [latchedCycle pins old new]
    else if old.getLsbD pins.cs ≠ new.getLsbD pins.cs then [.indeterminate]
    else []
  else []

/-- `events(old, new)` of one change of OUT (R161). -/
def busEvents (pins : BusPins Nat) (old new : Word) : List BusEvent :=
  (if old.getLsbD pins.cs = true ∧ new.getLsbD pins.cs = false then [.csBegin] else []) ++
  strobeEvents pins old new ++
  (if old.getLsbD pins.cs = false ∧ new.getLsbD pins.cs = true then [.csEnd] else [])

/-! ### GPIO stores -/

/-- The two GPIO registers (R70). -/
inductive GpioReg where
  | out
  | set
deriving DecidableEq, Repr

/-- One 32-bit store to a GPIO register. -/
structure GpioStore where
  reg   : GpioReg
  value : Word
deriving DecidableEq, Repr

/-- OUT after a store: OUT takes the value whole (R73); SET ORs it in (R74). -/
def GpioStore.newOut (st : GpioStore) (old : Word) : Word :=
  match st.reg with
  | .out => st.value
  | .set => old ||| st.value

/-- OUT after a list of stores, in order (R81). -/
def outAfter (old : Word) : List GpioStore → Word
  | [] => old
  | st :: rest => outAfter (st.newOut old) rest

/-- The bus events of a list of stores from a value of OUT (R161, R164). -/
def traceOf (pins : BusPins Nat) (old : Word) : List GpioStore → List BusEvent
  | [] => []
  | st :: rest => busEvents pins old (st.newOut old) ++ traceOf pins (st.newOut old) rest

/-- The register's address (R31). -/
def regAddr (cfg : BusConfig) : GpioReg → Nat
  | .out => cfg.outAddr
  | .set => cfg.setAddr

/-- The entry of the store trace: address and value (R47). -/
def GpioStore.entry (cfg : BusConfig) (st : GpioStore) : Nat × Word := (regAddr cfg st.reg, st.value)

/-- `cmd_cycle(c)`: the command word to OUT, then the WR bit to SET (R165). -/
def cmdCycle (pins : BusPins Nat) (lut : Vector Word 256) (c : Byte) : List GpioStore :=
  [⟨.out, commandGpioWord pins lut c⟩, ⟨.set, bit pins.wr⟩]

/-- `data_cycle(b)`: the table word to OUT, then the WR bit to SET (R166). -/
def dataCycle (pins : BusPins Nat) (lut : Vector Word 256) (b : Byte) : List GpioStore :=
  [⟨.out, lutAt lut b⟩, ⟨.set, bit pins.wr⟩]

/-- `cs_release()`: the CS bit to SET (R167). -/
def csRelease (pins : BusPins Nat) : List GpioStore := [⟨.set, bit pins.cs⟩]

/-- WRITE_COMMAND-body: one command cycle and the release of CS (R172). -/
def commandOp (pins : BusPins Nat) (lut : Vector Word 256) (c : Byte) : List GpioStore :=
  cmdCycle pins lut c ++ csRelease pins

/-- WRITE_DATA_BURST-body: one data cycle per byte and one release of CS (R176). -/
def burstOp (pins : BusPins Nat) (lut : Vector Word 256) (bs : List Byte) : List GpioStore :=
  bs.flatMap (dataCycle pins lut) ++ csRelease pins

/-- The bytes of a pattern sent `count` times (R178). -/
def repeated (pat : List Byte) (count : Nat) : List Byte := (List.replicate count pat).flatten

end Sys2Proof.Machine
end

