-- ==== Sys2Proof/Machine/Reset.lean ====
section
/-! DEFINITION. What reset computes (70_reset_and_hazards.md): the configuration checks of R371, the
pin levels of R373, the table build of R374; and the spec's example configuration EX1. -/

namespace Sys2Proof.Machine

/-! ### Configuration checks (R371, R282) -/

/-- The name of a pin field (R371). -/
inductive PinField where
  | d (i : Fin 8)
  | cs
  | dc
  | wr
  | rd
  | rst
  | xp
  | xm
  | yp
  | ym
  | re
deriving DecidableEq, Repr

/-- What a ConfigurationError names: a pin field with its value, or an address (R339). -/
inductive ConfigItem where
  | pin (field : PinField) (value : Int)
  | outAddr
  | setAddr
deriving DecidableEq, Repr

/-- The bus pin fields in the order of R371. -/
def busPinFields (p : BusPins Int) : List (PinField × Int) :=
  [(.d 0, p.d[0]), (.d 1, p.d[1]), (.d 2, p.d[2]), (.d 3, p.d[3]), (.d 4, p.d[4]), (.d 5, p.d[5]),
   (.d 6, p.d[6]), (.d 7, p.d[7]), (.cs, p.cs), (.dc, p.dc), (.wr, p.wr), (.rd, p.rd), (.rst, p.rst)]

/-- The four measuring pins of the touch panel, which must be distinct (R282). -/
def panelPinFields (t : TouchPins Int) : List (PinField × Int) :=
  [(.xp, t.xp), (.xm, t.xm), (.yp, t.yp), (.ym, t.ym)]

/-- The touch pin fields in the order of R371. -/
def touchPinFields (t : TouchPins Int) : List (PinField × Int) :=
  panelPinFields t ++ [(.re, t.re)]

/-- A pin value is usable: in 0..31 and in P_VALID_PINS (R371). -/
def pinUsable (valid : List Int) (v : Int) : Bool := 0 ≤ v && v ≤ 31 && valid.contains v

/-- The first field whose value is not usable. -/
def firstUnusable (valid : List Int) : List (PinField × Int) → Option ConfigItem
  | [] => none
  | (f, v) :: rest => if pinUsable valid v then firstUnusable valid rest else some (.pin f v)

/-- The first field that equals an earlier one: the later field of the first equal pair (R371). -/
def firstRepeated (seen : List Int) : List (PinField × Int) → Option ConfigItem
  | [] => none
  | (f, v) :: rest => if seen.contains v then some (.pin f v) else firstRepeated (v :: seen) rest

/-- An address is a multiple of 4 and below 2^P_ADDR_BITS (R371). -/
def addrUsable (addrBits a : Nat) : Bool := a % 4 = 0 && a < 2 ^ addrBits

/-- The address checks, `out_addr` and then `set_addr`, then their difference (R371). -/
def addressError (p : Params) : Option ConfigItem :=
  if !addrUsable p.addrBits p.outAddr then some .outAddr
  else if !addrUsable p.addrBits p.setAddr then some .setAddr
  else if p.outAddr = p.setAddr then some .setAddr
  else none

/-- The first offending item of a configuration, in the order of R371, or none. In step 3 the range
checks run over all five touch pins before the distinctness of the four (DEDUCED, log 16). -/
def configError (p : Params) : Option ConfigItem :=
  (firstUnusable p.validPins (busPinFields p.pins)).or <|
  (firstRepeated [] (busPinFields p.pins)).or <|
  (firstUnusable p.validPins (touchPinFields p.touchPins)).or <|
  (firstRepeated [] (panelPinFields p.touchPins)).or <|
  addressError p

/-! ### The values reset computes -/

/-- `cfg` from the parameters (R31). -/
def busConfigOf (p : Params) : BusConfig :=
  { pins :=
      { d := #v[p.pins.d[0].toNat, p.pins.d[1].toNat, p.pins.d[2].toNat, p.pins.d[3].toNat,
                p.pins.d[4].toNat, p.pins.d[5].toNat, p.pins.d[6].toNat, p.pins.d[7].toNat],
        cs := p.pins.cs.toNat, dc := p.pins.dc.toNat,
        wr := p.pins.wr.toNat, rd := p.pins.rd.toNat, rst := p.pins.rst.toNat },
    outAddr := p.outAddr, setAddr := p.setAddr }

/-- OUT at the end of construction: CS, WR, RD and RST at 1, every other bit the environment's (R373). -/
def resetOut (pins : BusPins Nat) (envOut : Word) : Word := envOut ||| strobeMask pins

/-- The mode of a pin position; there are 32 (R39). -/
def modeAt (pm : Vector PinMode 32) (p : Nat) : PinMode := if h : p < 32 then pm[p] else .released

/-- The modes with every pin of the mask set to `m`. -/
def setModes (pm : Vector PinMode 32) (mask : Word) (m : PinMode) : Vector PinMode 32 :=
  tabulate 32 fun p => if mask.getLsbD p then m else modeAt pm p

/-- BASE at the end of construction (R374); unspecified after a failed check (R372). -/
def resetBase (p : Params) (out : Word) : Word :=
  match configError p with
  | none => baseline (busConfigOf p).pins out
  | some _ => Config.unbuilt 256

/-- LUT at the end of construction (R374); unspecified after a failed check (R372). -/
def resetLut (p : Params) (out : Word) : Vector Word 256 :=
  match configError p with
  | none => tableOf (busConfigOf p).pins (resetBase p out)
  | some _ => tabulate 256 Config.unbuilt

/-- `P_TOUCH_SHARED`: the touch pins that are bus pins (R281). -/
def sharedMask (p : Params) : Word :=
  (bit p.touchPins.xp.toNat ||| bit p.touchPins.xm.toNat ||| bit p.touchPins.yp.toNat |||
   bit p.touchPins.ym.toNat ||| bit p.touchPins.re.toNat) &&& busMask (busConfigOf p).pins

/-! ### EX1 (95_test_vectors.md §1), the configuration of State.reset (DESIGN CHOICE, logs 1, 11, 26) -/

/-- The parameters of EX1. P_INIT_SEQ, P_PROFILE, P_COLMOD and the two delays, which EX1 does not give
and no request reads, are the model's (log 26). -/
def ex1 : Params :=
  { pins := { d := #v[12, 13, 26, 25, 17, 16, 27, 14], cs := 15, dc := 2, wr := 4, rd := 5, rst := 18 },
    validPins := (List.range 32).map Int.ofNat,
    outAddr := 0x1004, setAddr := 0x1008, addrBits := 32,
    format := .bpp16, nativeW := 240, nativeH := 320,
    rotMadctl := #v[0x48, 0x28, 0x88, 0xE8],
    scrollRows := 320,
    initSeq := [], profile := .ili9341, colmod := { b16 := 0x55, b18 := 0x66, b24 := 0x77 },
    resetMs := 0, sleepOutMs := 0,
    touchPins := { xp := 19, xm := 22, yp := 23, ym := 0, re := 1 },
    touchN := 1, pressTh := 1000, noiseTh := 500, pressReads := 1,
    pressureFn := .firstRead, orientFn := .identity,
    cal0X := { min := 8000, max := 56000, dir := 0 },
    cal0Y := { min := 8000, max := 58000, dir := 0 },
    autocal0 := false, restoresPins := false }

/-- What EX1's environment leaves: OUT0 = 0x00248030; the modes of the unowned pins are the model's
(released, log 11). -/
def ex1Env : ResetEnv := { out := 0x00248030, pinMode := tabulate 32 fun _ => .released }

end Sys2Proof.Machine
end

