-- ==== Sys2Proof/Machine/State.lean ====
section
/-! DEFINITION. The state of the block (10_state.md), the reasons a step can stop, and construction,
which is reset (70_reset_and_hazards.md R370). -/

namespace Sys2Proof.Machine

/-- The sticky fault codes (R45, R331, R339). -/
inductive FaultCode where
  /-- 1: a configuration check failed at reset (R371, R372). -/
  | configurationError (item : ConfigItem)
  /-- 16: the opcode byte at pc selects no operation (R338). -/
  | illegalRequest
  /-- 17: a storing request found a bus pin Released (R340). -/
  | pinModeHazard
deriving DecidableEq, Repr

/-- The status of a response record (R331). The last three are reserved: no request produces them (R342). -/
inductive Status where
  | ok
  | protocolPrecondition
  | unsupportedFormat
  | missingResource
  | ioError
deriving DecidableEq, Repr

/-- The result values of a response record (R104). -/
inductive Results where
  | none
  /-- COLOR_RGB: color:u32. -/
  | color (c : Word)
  /-- TOUCH_GET_CAL: the six calibration fields. -/
  | calibration (xmin xmax : Half) (xdir : Byte) (ymin ymax : Half) (ydir : Byte)
  /-- TOUCH_SAMPLE: accepted:u8, reason:u8, x:s16, y:s16. -/
  | sample (accepted reason : Byte) (x y : Half)
  /-- TOUCH_LISTEN: x:u16, y:u16. -/
  | point (x y : Half)
deriving DecidableEq, Repr

/-- A response record (R46, R104). -/
structure Response where
  status  : Status
  results : Results
deriving DecidableEq, Repr

/-- The display geometry (R40). -/
structure Geometry where
  fmt      : PixelFormat
  rotation : Fin 4
  width    : Half
  height   : Half
deriving DecidableEq, Repr

/-- The phases of the touch sampler (R43). -/
inductive TouchPhase where
  | idle
  | pressureCheck
  | sampleX
  | sampleY
  | rangeCheck
  | noiseCheck
  | accept
  | reject
deriving DecidableEq, Repr

/-- The touch calibration and sampler state (R42, R43). -/
structure TouchState where
  calX    : AxisCal
  calY    : AxisCal
  autocal : Bool
  sumPrev : Option Nat
  phase   : TouchPhase
deriving DecidableEq, Repr

/-- The actions of the host and the environment (R352, R356, R357). -/
inductive HostAction where
  /-- Appends bytes to the request stream (R356). -/
  | sendFrames (bytes : List Byte)
  /-- PIN_RESTORE(v) (R356). -/
  | pinRestore (v : Word)
  /-- EXT_OUT(m, v) (R356). -/
  | extOut (m v : Word)
  /-- PLATFORM_RESET (R357), after `made` GPIO stores of the request that is due; `env` is what the
  environment leaves at the pins (R375). -/
  | platformReset (made : Nat) (env : ResetEnv)
  /-- DELAY ms (R352). -/
  | delay (ms : Nat)
  /-- DESIGN CHOICE (log 3): bus words handed to the model's bus-word port. -/
  | sendBusWords (ws : List BusWord)
deriving DecidableEq, Repr

/-- Who takes the next step (DESIGN CHOICE, log 6). -/
inductive Turn where
  /-- The machine's own move: the block's, or the model's bus-word port while a word waits there (log 3). -/
  | block
  | host (a : HostAction)
deriving DecidableEq, Repr

/-- What a run that a platform reset has ended leaves to an observer (R353, R357). -/
structure RunRecord where
  responses : List Response
  stores    : List (Nat × Word)
  bus       : List BusEvent
deriving DecidableEq, Repr

/-- The state of the block. The last six fields are not the spec's own state elements: `params` are
its parameters (log 2), `busQueue`, `schedule`, `past`, `adcIn` and `draws` the model's (logs 3, 6, 13, 7, 8). -/
structure State where
  /-- The bus configuration (R31). -/
  cfg       : BusConfig
  /-- OUT, the GPIO output latch (R34). -/
  out       : Word
  /-- LUT, the byte-to-GPIO lookup table (R36). -/
  lut       : Vector Word 256
  /-- BASE, the captured baseline (R38). -/
  base      : Word
  /-- pin_mode (R39). -/
  pinMode   : Vector PinMode 32
  /-- The display geometry (R40). -/
  geom      : Geometry
  /-- The touch calibration and sampler (R42, R43). -/
  touch     : TouchState
  /-- The byte index of the next frame (R44). -/
  pc        : Nat
  /-- The sticky fault (R45). -/
  fault     : Option FaultCode
  /-- The response log, oldest first (R46). -/
  responses : List Response
  /-- The store trace, oldest first (R47). -/
  stores    : List (Nat × Word)
  /-- The bus trace, oldest first (R48). -/
  bus       : List BusEvent
  /-- The request stream (R70, R100). -/
  stream    : List Byte
  /-- The parameters (R8, R281); no step writes them. -/
  params    : Params
  /-- Bus words still to be sent through the model's port, first first; the block does not read it. -/
  busQueue  : List BusWord
  /-- Turns still to be taken, first first; when it is empty the machine makes its own move. -/
  schedule  : List Turn
  /-- The runs that platform resets have ended, oldest first. -/
  past      : List RunRecord
  /-- ADC readings the environment has still to give, in call order. -/
  adcIn     : List Half
  /-- How many free values have been drawn. -/
  draws     : Nat
deriving DecidableEq, Repr

/-- Why the block has no step. Raised by `blockStep` and the meanings' common fault test; safe: the spec
gives no step in these states (R45, R353). -/
inductive Fault where
  /-- A sticky fault is set: only a reset clears it (R45, R334). Raised by every meaning and by
  `blockStep`; safe. -/
  | halted (code : FaultCode)
  /-- The stream ends inside the frame at pc: stuck, not final (R103, R353). Raised by `blockStep`; safe. -/
  | incompleteFrame
  /-- pc stands at the end of the stream: the run is final (R353). Raised by `blockStep`; safe. -/
  | streamEnd
deriving DecidableEq, Repr

/-- What is outside the model. -/
inductive Refusal where
  /-- An instruction without a meaning; raised by `exec` only; safe. -/
  | notModelled (mnemonic : String)
  /-- A GPIO access other than a 4-byte read of OUT or write of OUT or SET (R75). Raised by `memRead`
  and `memWrite`; no instruction produces it; safe. -/
  | gpioAccess
  /-- PIN_RESTORE whose value does not hold CS, WR, RD and RST at 1 (R356, U19). Raised by `hostStep`; safe. -/
  | pinRestorePremise
  /-- EXT_OUT whose mask meets BUSMASK (R356, U19). Raised by `hostStep`; safe. -/
  | extOutPremise
  /-- A host action other than PLATFORM_RESET while a request is in progress (R356). Raised by
  `hostStep`; safe. -/
  | hostDuringRequest
deriving DecidableEq, Repr

/-- The outcome of an instruction or a step. -/
abbrev Result := Host.Outcome State Fault Refusal

/-- Construction, which is reset (R370): the checks of R371, the state of R52 under the premises of
R373, and the table build of R374. -/
def construct (p : Params) (env : ResetEnv) : State :=
  let cfg := busConfigOf p
  let out := resetOut cfg.pins env.out
  { cfg := cfg
    out := out
    lut := resetLut p out
    base := resetBase p out
    pinMode := setModes env.pinMode (busMask cfg.pins) .output
    geom := { fmt := p.format, rotation := 0, width := p.nativeW, height := p.nativeH }
    touch := { calX := p.cal0X, calY := p.cal0Y, autocal := p.autocal0, sumPrev := none, phase := .idle }
    pc := 0
    fault := (configError p).map .configurationError
    responses := []
    stores := []
    bus := []
    stream := []
    params := p
    busQueue := []
    schedule := []
    past := []
    adcIn := []
    draws := 0 }

/-- The block right after reset: constructed with the spec's example configuration EX1 (DESIGN CHOICE,
log 1). -/
def State.reset : State := construct ex1 ex1Env

end Sys2Proof.Machine
end

