-- ==== Sys2Proof/Machine/Flags.lean ====
section
/-! DEFINITION. The block has no flags and no condition codes (10_state.md R49): the outcome of a request
is the status of its response record. This file holds the numbers of statuses, faults and reject
reasons (60_exceptions.md R331, 44_touch.md R297). -/

namespace Sys2Proof.Machine

/-- The number of a status (R331). -/
def Status.code : Status → Byte
  | .ok => 0
  | .protocolPrecondition => 2
  | .unsupportedFormat => 3
  | .missingResource => 4
  | .ioError => 5

/-- The number of a fault (R331). -/
def FaultCode.code : FaultCode → Byte
  | .configurationError _ => 1
  | .illegalRequest => 16
  | .pinModeHazard => 17

/-- Why a touch sample is rejected (R297). -/
inductive RejectReason where
  | noPress
  | range
  | noise
deriving DecidableEq, Repr

/-- The number of a reject reason; an accepted sample has 0 (R297). -/
def RejectReason.code : RejectReason → Byte
  | .noPress => 1
  | .range => 2
  | .noise => 3

end Sys2Proof.Machine
end

