-- ==== Sys2Proof/Syntax.lean ====
section
/-! DEFINITION. The instructions: one constructor per row of spec/opcode_table.json, 17 request frames
(30_encoding.md R102) and 17 bus words (R109, R110). -/

namespace Sys2Proof

/-- An instruction of the block. The length fields `n` and `k` of the two variable-length frames are
the lengths of their lists (R112). -/
inductive Instr where
  -- request frames (R102)
  | buildLut
  | writeCommand (cmd : Byte)
  | writeData (d : Byte)
  | writeDataBurst (data : List Byte)
  | writeDataRepeat (pat : List Byte) (count : Word)
  | setWindow (x0 y0 x1 y1 : Half)
  | drawPixel (x y : Half) (color : Word)
  | fillRect (x y w h : Half) (color : Word)
  | colorRgb (r g b : Byte)
  | setRotation (r : Byte)
  | setScrollArea (tfa vsa bfa : Half)
  | setScrollStart (vsp : Half)
  | touchSetCal (xmin xmax : Half) (xdir : Byte) (ymin ymax : Half) (ydir : Byte)
  | touchSetAutocal (en : Byte)
  | touchGetCal
  | touchSample
  | touchListen (delay : Word)
  -- bus words (R109): the named controller command bytes of R255 to R269
  | reset
  | sleepOut
  | displayOff
  | displayOn
  | columnAddressSet
  | pageAddressSet
  | memoryWrite
  | madctl
  | pixelFormat
  | vscrollDefine
  | vscrollStart
  | tearingOn
  | tearingOff
  | invertOn
  | invertOff
  -- every other command byte (R165, R270), and any data byte (R166)
  | busCommand (c : Byte)
  | busData (d : Byte)
deriving DecidableEq, Repr

end Sys2Proof
end

