-- ==== Sys2Proof/WellFormed.lean ====
section
/-! DEFINITION. Which instructions have an encoding: the length fields fit, and a named command byte is
written by its own name. Every operand VALUE of a fixed-width field is legal as an encoding (R106). -/

namespace Sys2Proof

/-- The command bytes that have a row of their own (R110, R255 to R269). -/
def namedCommands : List Byte :=
  [0x01, 0x11, 0x28, 0x29, 0x2A, 0x2B, 0x2C, 0x36, 0x3A, 0x33, 0x37, 0x35, 0x34, 0x21, 0x20]

/-- Well-formed: `n` fits u32, `k` fits u8 (R103), and `BUS_COMMAND` is a byte that no named row has. -/
def Instr.wf : Instr → Bool
  | .writeDataBurst data => data.length < 2 ^ 32
  | .writeDataRepeat pat _ => pat.length < 2 ^ 8
  | .busCommand c => !namedCommands.contains c
  | .buildLut | .writeCommand _ | .writeData _ | .setWindow _ _ _ _ | .drawPixel _ _ _
  | .fillRect _ _ _ _ _ | .colorRgb _ _ _ | .setRotation _ | .setScrollArea _ _ _
  | .setScrollStart _ | .touchSetCal _ _ _ _ _ _ | .touchSetAutocal _ | .touchGetCal
  | .touchSample | .touchListen _ | .reset | .sleepOut | .displayOff | .displayOn
  | .columnAddressSet | .pageAddressSet | .memoryWrite | .madctl | .pixelFormat
  | .vscrollDefine | .vscrollStart | .tearingOn | .tearingOff | .invertOn | .invertOff
  | .busData _ => true

end Sys2Proof
end

