-- ==== Sys2Proof/Decode.lean ====
section
/-! DEFINITION. Decoding and encoding (30_encoding.md): request frames from the byte stream, bus words
from 9 bits; then the encoder, from the same tables; then the host's view of a table row. -/

namespace Sys2Proof

/-! ### Field assembly (R101, R108): most significant byte first -/

/-- A u16 or s16 field: `f[i] << 8 | f[i+1]`. -/
def halfOf (hi lo : Byte) : Half := hi ++ lo

/-- A u32 field: `f[i] << 24 | f[i+1] << 16 | f[i+2] << 8 | f[i+3]`. -/
def wordOf (b3 b2 b1 b0 : Byte) : Word := b3 ++ b2 ++ b1 ++ b0

/-- High byte of a 16-bit field. -/
def hiByte (v : Half) : Byte := v.extractLsb' 8 8

/-- Low byte of a 16-bit field. -/
def loByte (v : Half) : Byte := v.extractLsb' 0 8

/-- The bytes of a 16-bit field in frame and bus order (R78, R101). -/
def halfBytes (v : Half) : List Byte := [hiByte v, loByte v]

/-- The bytes of a 32-bit field in frame order (R101). -/
def wordBytes (v : Word) : List Byte :=
  [v.extractLsb' 24 8, v.extractLsb' 16 8, v.extractLsb' 8 8, v.extractLsb' 0 8]

/-! ### Request frames -/

/-- What stands at a frame boundary of the stream. -/
inductive Frame where
  /-- A whole frame: its instruction and the bytes after it. -/
  | request (i : Instr) (rest : List Byte)
  /-- No byte at all: the run is final there (R353). -/
  | streamEnd
  /-- The opcode is known and the stream ends inside the frame (R103). -/
  | incomplete (opcode : Byte)
  /-- The opcode byte selects no operation (R105). -/
  | illegal (opcode : Byte)
deriving DecidableEq, Repr

/-- WRITE_DATA_BURST after its opcode: `n:u32, data:bytes[n]` (R102, R103). -/
def decodeBurst (bs : List Byte) : Frame :=
  match bs with
  | n3 :: n2 :: n1 :: n0 :: r =>
    let n := (wordOf n3 n2 n1 n0).toNat
    if n ≤ r.length then .request (.writeDataBurst (r.take n)) (r.drop n) else .incomplete 0x04
  | _ => .incomplete 0x04

/-- WRITE_DATA_REPEAT after its opcode: `k:u8, pat:bytes[k], count:u32` (R102, R103). -/
def decodeRepeat (bs : List Byte) : Frame :=
  match bs with
  | k :: r =>
    if k.toNat ≤ r.length then
      match r.drop k.toNat with
      | c3 :: c2 :: c1 :: c0 :: rest =>
        .request (.writeDataRepeat (r.take k.toNat) (wordOf c3 c2 c1 c0)) rest
      | _ => .incomplete 0x05
    else .incomplete 0x05
  | _ => .incomplete 0x05

/-- The frame at the head of a byte list: the opcode map of R102, illegal opcodes by R105. -/
def decodeFrame (bs : List Byte) : Frame :=
  match bs with
  | [] => .streamEnd
  | op :: r =>
    match op.toNat with
    | 0x01 => .request .buildLut r
    | 0x02 => match r with
      | c :: rest => .request (.writeCommand c) rest
      | _ => .incomplete op
    | 0x03 => match r with
      | d :: rest => .request (.writeData d) rest
      | _ => .incomplete op
    | 0x04 => decodeBurst r
    | 0x05 => decodeRepeat r
    | 0x06 => match r with
      | a1 :: a0 :: b1 :: b0 :: c1 :: c0 :: d1 :: d0 :: rest =>
        .request (.setWindow (halfOf a1 a0) (halfOf b1 b0) (halfOf c1 c0) (halfOf d1 d0)) rest
      | _ => .incomplete op
    | 0x07 => match r with
      | x1 :: x0 :: y1 :: y0 :: c3 :: c2 :: c1 :: c0 :: rest =>
        .request (.drawPixel (halfOf x1 x0) (halfOf y1 y0) (wordOf c3 c2 c1 c0)) rest
      | _ => .incomplete op
    | 0x08 => match r with
      | x1 :: x0 :: y1 :: y0 :: w1 :: w0 :: h1 :: h0 :: c3 :: c2 :: c1 :: c0 :: rest =>
        .request (.fillRect (halfOf x1 x0) (halfOf y1 y0) (halfOf w1 w0) (halfOf h1 h0)
          (wordOf c3 c2 c1 c0)) rest
      | _ => .incomplete op
    | 0x09 => match r with
      | cr :: cg :: cb :: rest => .request (.colorRgb cr cg cb) rest
      | _ => .incomplete op
    | 0x0A => match r with
      | a :: rest => .request (.setRotation a) rest
      | _ => .incomplete op
    | 0x0B => match r with
      | t1 :: t0 :: v1 :: v0 :: b1 :: b0 :: rest =>
        .request (.setScrollArea (halfOf t1 t0) (halfOf v1 v0) (halfOf b1 b0)) rest
      | _ => .incomplete op
    | 0x0C => match r with
      | v1 :: v0 :: rest => .request (.setScrollStart (halfOf v1 v0)) rest
      | _ => .incomplete op
    | 0x10 => match r with
      | a1 :: a0 :: b1 :: b0 :: xd :: c1 :: c0 :: d1 :: d0 :: yd :: rest =>
        .request (.touchSetCal (halfOf a1 a0) (halfOf b1 b0) xd (halfOf c1 c0) (halfOf d1 d0) yd) rest
      | _ => .incomplete op
    | 0x11 => match r with
      | e :: rest => .request (.touchSetAutocal e) rest
      | _ => .incomplete op
    | 0x12 => .request .touchGetCal r
    | 0x13 => .request .touchSample r
    | 0x14 => match r with
      | d3 :: d2 :: d1 :: d0 :: rest => .request (.touchListen (wordOf d3 d2 d1 d0)) rest
      | _ => .incomplete op
    | _ => .illegal op

/-! ### Bus words -/

/-- The instruction of a command byte on the bus: the named rows of R255 to R269, else BUS_COMMAND. -/
def decodeCommandByte (c : Byte) : Instr :=
  match c.toNat with
  | 0x01 => .reset
  | 0x11 => .sleepOut
  | 0x28 => .displayOff
  | 0x29 => .displayOn
  | 0x2A => .columnAddressSet
  | 0x2B => .pageAddressSet
  | 0x2C => .memoryWrite
  | 0x36 => .madctl
  | 0x3A => .pixelFormat
  | 0x33 => .vscrollDefine
  | 0x37 => .vscrollStart
  | 0x35 => .tearingOn
  | 0x34 => .tearingOff
  | 0x21 => .invertOn
  | 0x20 => .invertOff
  | _ => .busCommand c

/-- Is the bus word a data word? Bit 8 is DC: 0 for a command, 1 for data (R109). -/
def isDataWord (w : BusWord) : Bool := w.getLsbD 8

/-- The instruction of a bus word; every word has one (R109, R110, R270). -/
def decodeBusWord (w : BusWord) : Instr :=
  if isDataWord w then .busData (w.setWidth 8) else decodeCommandByte (w.setWidth 8)

/-! ### Encoding -/

/-- An encoded instruction: a request frame or a bus word. -/
inductive Code where
  | frame (bytes : List Byte)
  | busWord (w : BusWord)
deriving DecidableEq, Repr

/-- The bus word of a command byte: DC = 0 (R109). -/
def commandWord (c : Byte) : BusWord := c.setWidth 9

/-- The bus word of a data byte: DC = 1 (R109). -/
def dataWord (d : Byte) : BusWord := 0x100#9 ||| d.setWidth 9

/-- The encoding of an instruction (R101, R102; R110 for the command bytes). -/
def encode : Instr → Code
  | .buildLut => .frame [0x01]
  | .writeCommand c => .frame [0x02, c]
  | .writeData d => .frame [0x03, d]
  | .writeDataBurst data => .frame (0x04 :: wordBytes (BitVec.ofNat 32 data.length) ++ data)
  | .writeDataRepeat pat count => .frame (0x05 :: BitVec.ofNat 8 pat.length :: pat ++ wordBytes count)
  | .setWindow x0 y0 x1 y1 => .frame (0x06 :: halfBytes x0 ++ halfBytes y0 ++ halfBytes x1 ++ halfBytes y1)
  | .drawPixel x y color => .frame (0x07 :: halfBytes x ++ halfBytes y ++ wordBytes color)
  | .fillRect x y w h color =>
    .frame (0x08 :: halfBytes x ++ halfBytes y ++ halfBytes w ++ halfBytes h ++ wordBytes color)
  | .colorRgb r g b => .frame [0x09, r, g, b]
  | .setRotation r => .frame [0x0A, r]
  | .setScrollArea tfa vsa bfa => .frame (0x0B :: halfBytes tfa ++ halfBytes vsa ++ halfBytes bfa)
  | .setScrollStart vsp => .frame (0x0C :: halfBytes vsp)
  | .touchSetCal xmin xmax xdir ymin ymax ydir =>
    .frame (0x10 :: halfBytes xmin ++ halfBytes xmax ++ xdir :: halfBytes ymin ++ halfBytes ymax ++ [ydir])
  | .touchSetAutocal en => .frame [0x11, en]
  | .touchGetCal => .frame [0x12]
  | .touchSample => .frame [0x13]
  | .touchListen delay => .frame (0x14 :: wordBytes delay)
  | .reset => .busWord (commandWord 0x01)
  | .sleepOut => .busWord (commandWord 0x11)
  | .displayOff => .busWord (commandWord 0x28)
  | .displayOn => .busWord (commandWord 0x29)
  | .columnAddressSet => .busWord (commandWord 0x2A)
  | .pageAddressSet => .busWord (commandWord 0x2B)
  | .memoryWrite => .busWord (commandWord 0x2C)
  | .madctl => .busWord (commandWord 0x36)
  | .pixelFormat => .busWord (commandWord 0x3A)
  | .vscrollDefine => .busWord (commandWord 0x33)
  | .vscrollStart => .busWord (commandWord 0x37)
  | .tearingOn => .busWord (commandWord 0x35)
  | .tearingOff => .busWord (commandWord 0x34)
  | .invertOn => .busWord (commandWord 0x21)
  | .invertOff => .busWord (commandWord 0x20)
  | .busCommand c => .busWord (commandWord c)
  | .busData d => .busWord (dataWord d)

/-- The bytes of an encoded request; a bus word has none in the stream. -/
def Code.bytes : Code → List Byte
  | .frame bs => bs
  | .busWord _ => []

/-- The instruction of an encoded instruction: a frame must be exactly one request. -/
def decode : Code → Option Instr
  | .frame bs =>
    match decodeFrame bs with
    | .request i [] => some i
    | _ => none
  | .busWord w => some (decodeBusWord w)

/-- Frame length (R102, R103): what `pc` advances by when the request completes. A bus word is no
frame of the stream: 0. -/
def frameLength : Instr → Nat
  | .buildLut => 1
  | .writeCommand _ => 2
  | .writeData _ => 2
  | .writeDataBurst data => 5 + data.length
  | .writeDataRepeat pat _ => 6 + pat.length
  | .setWindow _ _ _ _ => 9
  | .drawPixel _ _ _ => 9
  | .fillRect _ _ _ _ _ => 13
  | .colorRgb _ _ _ => 4
  | .setRotation _ => 2
  | .setScrollArea _ _ _ => 7
  | .setScrollStart _ => 3
  | .touchSetCal _ _ _ _ _ _ => 11
  | .touchSetAutocal _ => 2
  | .touchGetCal => 1
  | .touchSample => 1
  | .touchListen _ => 5
  | .reset | .sleepOut | .displayOff | .displayOn | .columnAddressSet | .pageAddressSet
  | .memoryWrite | .madctl | .pixelFormat | .vscrollDefine | .vscrollStart | .tearingOn
  | .tearingOff | .invertOn | .invertOff | .busCommand _ | .busData _ => 0

/-! ### A table row as the host numbers it -/

/-- Byte `i` of a numbered instruction: bits 8i+7 .. 8i. -/
def tableByte (w i : Nat) : Byte := BitVec.ofNat 8 (w / 2 ^ (8 * i))

/-- Does the row stand in the bus-word space? The BUS9 rows have 9 bits, two whole bytes; a request
row has 8, or whole frames of more than two bytes (DESIGN CHOICE, log 20). -/
def isBusRow (nbits : Nat) : Bool := 8 < nbits && nbits ≤ 16

/-- How many bytes the request frame with these bits has, zeros standing above the bits given. -/
def tableFrameLength (w : Nat) : Nat :=
  match (tableByte w 0).toNat with
  | 0x02 | 0x03 | 0x0A | 0x11 => 2
  | 0x04 => 5 + (wordOf (tableByte w 1) (tableByte w 2) (tableByte w 3) (tableByte w 4)).toNat
  | 0x05 => 6 + (tableByte w 1).toNat
  | 0x06 | 0x07 => 9
  | 0x08 => 13
  | 0x09 => 4
  | 0x0B => 7
  | 0x0C => 3
  | 0x10 => 11
  | 0x14 => 5
  | _ => 1

/-- The request frame with these bits, in stream order. -/
def tableFrame (w : Nat) : List Byte := (List.range (tableFrameLength w)).map (tableByte w)

/-- What the decoder reads from a row's bits: a bus word for a BUS9 row, else a request frame. -/
def decodeTableWord (nbits w : Nat) : Option Instr :=
  if isBusRow nbits then
    if w < 2 ^ 9 then decode (.busWord (BitVec.ofNat 9 w)) else none
  else
    decode (.frame (tableFrame w))

end Sys2Proof
end

