-- ==== Sys2Proof/Machine/Operands.lean ====
section
/-! DEFINITION. The operand functions: colour packing and conversion, clipping (42_window_pixel.md),
window stores, median and the calibration transform (44_touch.md). -/

namespace Sys2Proof.Machine

/-! ### Colours (R200 to R203) -/

/-- The low byte of a word: `& 0xFF`. -/
def byteOf (w : Word) : Byte := w.setWidth 8

/-- `pack(fmt, color)`: the bytes of one pixel in bus order (R200). The 18-bit formula is the source's,
transcribed as it stands (90_conflicts.md C1). -/
def pack (fmt : PixelFormat) (c : Word) : List Byte :=
  match fmt with
  | .bpp16 => [byteOf (c >>> 8), byteOf c]
  | .bpp18 => [byteOf (c >>> 10), byteOf (c >>> 2), byteOf ((c <<< 4) &&& 0xF0#32)]
  | .bpp24 => [byteOf (c >>> 16), byteOf (c >>> 8), byteOf c]

/-- Bytes per pixel (R201). -/
def bytesPerPixel : PixelFormat → Nat
  | .bpp16 => 2
  | .bpp18 => 3
  | .bpp24 => 3

/-- `rgb(fmt, r, g, b)`: channel conversion by truncation (R203). -/
def rgb (fmt : PixelFormat) (r g b : Byte) : Word :=
  let r := r.setWidth 32
  let g := g.setWidth 32
  let b := b.setWidth 32
  match fmt with
  | .bpp16 => ((r >>> 3) <<< 11) ||| ((g >>> 2) <<< 5) ||| (b >>> 3)
  | .bpp18 => ((r >>> 2) <<< 12) ||| ((g >>> 2) <<< 6) ||| (b >>> 2)
  | .bpp24 => (r <<< 16) ||| (g <<< 8) ||| b

/-! ### Windows (R205 to R209) -/

/-- `window(x0, y0, x1, y1)`: column address, page address, memory write (R205). -/
def windowOps (pins : BusPins Nat) (lut : Vector Word 256) (x0 y0 x1 y1 : Half) : List GpioStore :=
  commandOp pins lut 0x2A ++ burstOp pins lut (halfBytes x0 ++ halfBytes x1) ++
  commandOp pins lut 0x2B ++ burstOp pins lut (halfBytes y0 ++ halfBytes y1) ++
  commandOp pins lut 0x2C

/-- A clipped rectangle, corners inclusive (R209). -/
structure ClipBox where
  x0 : Int
  y0 : Int
  x1 : Int
  y1 : Int
deriving DecidableEq, Repr

/-- `clip(x, y, w, h)` to the current width and height, in exact arithmetic; none when empty (R209). -/
def clip (geom : Geometry) (x y : Int) (w h : Nat) : Option ClipBox :=
  if w = 0 ∨ h = 0 then none
  else
    let box : ClipBox :=
      { x0 := max x 0, y0 := max y 0,
        x1 := min (x + w - 1) (geom.width.toNat - 1), y1 := min (y + h - 1) (geom.height.toNat - 1) }
    if box.x0 > box.x1 ∨ box.y0 > box.y1 then none else some box

/-- The pixel count of a clipped rectangle (R206, R213). -/
def ClipBox.count (c : ClipBox) : Nat := ((c.x1 - c.x0 + 1) * (c.y1 - c.y0 + 1)).toNat

/-- The window stores of a clipped rectangle. -/
def ClipBox.windowOps (pins : BusPins Nat) (lut : Vector Word 256) (c : ClipBox) : List GpioStore :=
  Sys2Proof.Machine.windowOps pins lut (BitVec.ofInt 16 c.x0) (BitVec.ofInt 16 c.y0)
    (BitVec.ofInt 16 c.x1) (BitVec.ofInt 16 c.y1)

/-- A point lies on the screen: `0 <= x < width and 0 <= y < height` (R210, R307). -/
def onScreen (geom : Geometry) (x y : Int) : Bool :=
  0 ≤ x && x < geom.width.toNat && 0 ≤ y && y < geom.height.toNat

/-! ### Touch (R287 to R293) -/

/-- Insert into an ascending list. -/
def insertAscending (v : Half) : List Half → List Half
  | [] => [v]
  | a :: rest => if v ≤ a then v :: a :: rest else a :: insertAscending v rest

/-- A list sorted ascending. -/
def ascending : List Half → List Half
  | [] => []
  | v :: rest => insertAscending v (ascending rest)

/-- `median(L)`: the element at index floor(N/2) of the sorted list (R287); free for no readings (log 21). -/
def median (l : List Half) : Half := (ascending l)[l.length / 2]?.getD Config.emptyMedian

/-- Strictly inside an axis's range (R289). -/
def axisInRange (c : AxisCal) (r : Half) : Bool := c.min < r && r < c.max

/-- Widens an axis to hold an accepted reading; never shrinks it (R293). -/
def axisWiden (c : AxisCal) (r : Half) : AxisCal :=
  { c with min := if r < c.min then r else c.min, max := if c.max < r then r else c.max }

/-- `coef = (max - min) / S`, an exact rational (R290). -/
def axisCoef (c : AxisCal) (size : Half) : Rat := ((c.max.toNat : Rat) - c.min.toNat) / size.toNat

/-- `corr = min / coef` (R290). -/
def axisCorr (c : AxisCal) (size : Half) : Rat := c.min.toNat / axisCoef c size

/-- `floor((r - min) * S / (max - min))`, exact (R291); free where min = max, which the spec excludes (log 21). -/
def axisPixel (c : AxisCal) (size r : Half) : Int :=
  if c.min = c.max then Config.flatAxis c.min size r
  else Int.fdiv (((r.toNat : Int) - c.min.toNat) * size.toNat) ((c.max.toNat : Int) - c.min.toNat)

/-- A valid calibration axis: min < max (R302). The direction code is in 0..3 by type. -/
def axisValid (c : AxisCal) : Bool := c.min < c.max

/-- `P_PRESSURE` (R286). -/
def pressureOf (p : Params) (zs : List Half) : Int :=
  match p.pressureFn with
  | .unconstrained => Config.pressure zs
  | .firstRead =>
    match zs with
    | z :: _ => (z.toNat : Int)
    | [] => Config.pressure []

/-- An integer that an s16 field holds (R299). -/
def fitsS16 (v : Int) : Bool := -32768 ≤ v && v ≤ 32767

/-- `P_TOUCH_ORIENT` (R292), its result as s16 fields: (0, 0, 0) is the identity. Where a coordinate that
the identity would give does not fit s16, which the spec excludes by premise (R299), the result is free (log 10). -/
def orientOf (p : Params) (xdir ydir rotation : Fin 4) (px py : Int) : Half × Half :=
  if fitsS16 px && fitsS16 py &&
      (p.orientFn = .identity || (xdir = 0 && ydir = 0 && rotation = 0)) then
    (BitVec.ofInt 16 px, BitVec.ofInt 16 py)
  else
    Config.orient xdir ydir rotation px py

end Sys2Proof.Machine
end

