-- ==== Sys2Proof/Machine/Ops.lean ====
section
/-! DEFINITION. The named operations over the state that the meanings share: GPIO accesses, completing a
request, taking a fault, the guard, the bus-word port, the touch sampler. -/

namespace Sys2Proof.Machine

/-! ### GPIO accesses (20_memory.md) -/

/-- Performs GPIO stores in order: OUT moves, the store trace and the bus trace grow (R47, R73, R74, R81,
R161). -/
def State.perform (s : State) (l : List GpioStore) : State :=
  { s with
    out := outAfter s.out l
    stores := s.stores ++ l.map (GpioStore.entry s.cfg)
    bus := s.bus ++ traceOf s.cfg.pins s.out l }

/-- The register at an address, if there is one (R70, R71). -/
def regAt (cfg : BusConfig) (addr : Nat) : Option GpioReg :=
  if addr = cfg.outAddr then some .out else if addr = cfg.setAddr then some .set else none

/-- `MemRead(addr, width)`: OUT, whole, without a side effect; every other read is refused (R72, R75). -/
def memRead (s : State) (addr width : Nat) : Except Refusal Word :=
  if width = 4 ∧ regAt s.cfg addr = some .out then .ok s.out else .error .gpioAccess

/-- `MemWrite(addr, width, v)`: one 32-bit store to OUT or SET; every other write is refused (R73 to R75). -/
def memWrite (s : State) (addr width : Nat) (v : Word) : Except Refusal State :=
  match regAt s.cfg addr with
  | some reg => if width = 4 then .ok (s.perform [⟨reg, v⟩]) else .error .gpioAccess
  | none => .error .gpioAccess

/-! ### Ending a request (60_exceptions.md R330) -/

/-- `respond(v...)` with a status: the record is appended and pc advances by the frame length (R330, R44). -/
def State.complete (s : State) (i : Instr) (status : Status) (results : Results) : State :=
  { s with
    responses := s.responses ++ [{ status := status, results := results }]
    pc := s.pc + frameLength i }

/-- Success (R330). -/
def State.respond (s : State) (i : Instr) (results : Results) : State := s.complete i .ok results

/-- `raise E`: an error status changes nothing but the response log and pc (R333, R335). -/
def State.raise (s : State) (i : Instr) (status : Status) : State := s.complete i status .none

/-- TAKING A FAULT (R334): `fault` is set and nothing else changes; pc stays at the faulting frame. The only
way back is a platform reset (R346). -/
def State.takeFault (s : State) (code : FaultCode) : State := { s with fault := some code }

/-- The first check of every request: while a fault is set there is no step (R344, R45). -/
def State.whenRunning (s : State) (k : Result) : Result :=
  match s.fault with
  | some code => .fault (.halted code)
  | none => k

/-- Every pin of BUSMASK is an output (R171). -/
def State.busDriven (s : State) : Bool :=
  (List.range 32).all fun p => !(busMask s.cfg.pins).getLsbD p || modeAt s.pinMode p == .output

/-- `guard_bus()`: a request that stores takes PinModeHazard if a bus pin is Released (R171, R340). -/
def State.guarded (s : State) (k : State) : Result :=
  if s.busDriven then .next k else .next (s.takeFault .pinModeHazard)

/-! ### The bodies of the bus primitives (R172, R176, R178, R205) -/

/-- WRITE_COMMAND-body (R172). -/
def State.sendCommand (s : State) (c : Byte) : State := s.perform (commandOp s.cfg.pins s.lut c)

/-- WRITE_DATA_BURST-body (R176). -/
def State.sendBurst (s : State) (bs : List Byte) : State := s.perform (burstOp s.cfg.pins s.lut bs)

/-- `window(x0, y0, x1, y1)` (R205). -/
def State.sendWindow (s : State) (x0 y0 x1 y1 : Half) : State :=
  s.perform (windowOps s.cfg.pins s.lut x0 y0 x1 y1)

/-- The body of BUILD_LUT: BASE and the 256 entries from one read of OUT; no store (R142, R374). -/
def State.buildTable (s : State) : State :=
  { s with
    base := baseline s.cfg.pins s.out
    lut := tableOf s.cfg.pins (baseline s.cfg.pins s.out) }

/-! ### The bus-word port (DESIGN CHOICE, logs 3 to 5) -/

/-- The first word of a queue is a data word. -/
def dataNext : List BusWord → Bool
  | [] => false
  | w :: _ => isDataWord w

/-- CS is released after a cycle unless the logical operation goes on: a burst of data words (R170, log 4). -/
def releaseUnless (goesOn : Bool) (pins : BusPins Nat) : List GpioStore :=
  if goesOn then [] else csRelease pins

/-- The bus word that ran leaves the port. -/
def State.popBusWord (s : State) : State := { s with busQueue := s.busQueue.tail }

/-- The bus cycle of a command word, which is a logical operation of its own (R165, R170, R172). -/
def State.busCommandCycle (s : State) (c : Byte) : Result :=
  s.whenRunning (s.guarded
    (s.perform (cmdCycle s.cfg.pins s.lut c ++ csRelease s.cfg.pins)).popBusWord)

/-- The bus cycle of a data word; CS stays low when the next word of the port goes on with the burst
(R166, R170, R176). -/
def State.busDataCycle (s : State) (d : Byte) : Result :=
  s.whenRunning (s.guarded
    (s.perform (dataCycle s.cfg.pins s.lut d ++
      releaseUnless (dataNext s.busQueue.tail) s.cfg.pins)).popBusWord)

/-! ### The touch sampler (44_touch.md) -/

/-- The outcome of one sample (R297, R298). -/
inductive SampleOutcome where
  | rejected (why : RejectReason)
  | accepted (x y : Half)
deriving DecidableEq, Repr

/-- The result record of TOUCH_SAMPLE (R305): accepted, reason, x, y. -/
def SampleOutcome.results : SampleOutcome → Results
  | .rejected why => .sample 0 why.code 0 0
  | .accepted x y => .sample 1 0 x y

/-- `ADC(ch)`: the environment's next reading, else a free value (R284, log 7). -/
def State.readAdc (s : State) (ch : AdcChannel) : Half × State :=
  match s.adcIn with
  | v :: rest => (v, { s with adcIn := rest })
  | [] => (Config.adcReading s.draws ch, { s with draws := s.draws + 1 })

/-- `ADC(ch)` repeated n times, in order (R286, R288). -/
def State.readAdcs (ch : AdcChannel) : Nat → State → List Half × State
  | 0, s => ([], s)
  | n + 1, s =>
    let (v, s) := s.readAdc ch
    let (vs, s) := State.readAdcs ch n s
    (v :: vs, s)

/-- `touch_phase <- ph`. -/
def State.setPhase (s : State) (ph : TouchPhase) : State := { s with touch := { s.touch with phase := ph } }

/-- Both axes strictly inside their ranges (R289). -/
def TouchState.inRange (t : TouchState) (rx ry : Half) : Bool := axisInRange t.calX rx && axisInRange t.calY ry

/-- `sum_prev != none and |s - sum_prev| < P_NOISE_TH` (R295). -/
def quiet (p : Params) (sumPrev : Option Nat) (sum : Nat) : Bool :=
  match sumPrev with
  | none => false
  | some prev => (((sum : Int) - prev).natAbs : Int) < p.noiseTh

/-- Auto-calibration of an accepted sample (R293). -/
def TouchState.calibrate (t : TouchState) (rx ry : Half) : TouchState :=
  if t.autocal then { t with calX := axisWiden t.calX rx, calY := axisWiden t.calY ry } else t

/-- The screen point of an accepted sample (R291, R292). -/
def samplePoint (p : Params) (rotation : Fin 4) (t : TouchState) (rx ry : Half) : Half × Half :=
  orientOf p t.calX.dir t.calY.dir rotation (axisPixel t.calX p.nativeW rx)
    (axisPixel t.calY p.nativeH ry)

/-- `sample()` from RangeCheck on, given the two medians (R289, R293 to R295, R298). -/
def State.judge (s : State) (rx ry : Half) : SampleOutcome × State :=
  if !s.touch.autocal && !s.touch.inRange rx ry then
    (.rejected .range, s.setPhase .rangeCheck)
  else
    let sum := rx.toNat + ry.toNat
    let noted := { s.touch with sumPrev := some sum }
    if quiet s.params s.touch.sumPrev sum then
      let t := { noted with phase := .accept }.calibrate rx ry
      let point := samplePoint s.params s.geom.rotation t rx ry
      (.accepted point.1 point.2, { s with touch := t })
    else
      (.rejected .noise, { s with touch := { noted with phase := .noiseCheck } })

/-- `sample()`: one pass of the state machine (R298). A rejected sample leaves touch_phase at the check
that rejected it (DEDUCED, log 15). -/
def State.sample (s : State) : SampleOutcome × State :=
  let (zs, s) := State.readAdcs .z s.params.pressReads (s.setPhase .pressureCheck)
  if pressureOf s.params zs < s.params.pressTh then (.rejected .noPress, s)
  else
    let (xs, s) := State.readAdcs .x s.params.touchN (s.setPhase .sampleX)
    let (ys, s) := State.readAdcs .y s.params.touchN (s.setPhase .sampleY)
    s.judge (median xs) (median ys)

/-- The shared pins contain a line whose level the controller watches (R300). -/
def sharesStrobe (p : Params) : Bool := sharedMask p &&& strobeMask (busConfigOf p).pins != 0#32

/-- The start of a touch pass: the shared pins are Released, and Indeterminate is appended if a strobe line
is among them (R300). -/
def State.releaseShared (s : State) : State :=
  { s with
    pinMode := setModes s.pinMode (sharedMask s.params) .released
    bus := s.bus ++ (if sharesStrobe s.params then [.indeterminate] else []) }

/-- The end of a touch pass (R300): the shared pins go back to Output with their OUT bits as before, or stay
Released with free OUT bits (log 8). With no shared pin nothing is drawn. -/
def State.settleShared (s : State) : State :=
  if sharedMask s.params = 0#32 then s
  else if s.params.restoresPins then
    { s with pinMode := setModes s.pinMode (sharedMask s.params) .output }
  else
    { s with
      out := replaceBits s.out (sharedMask s.params) (Config.outDraw s.draws)
      draws := s.draws + 1 }

/-- One sampling pass of a touch request: release, sample, settle (R300, R305, R307). -/
def State.touchPass (s : State) : SampleOutcome × State :=
  let (r, s) := s.releaseShared.sample
  (r, s.settleShared)

end Sys2Proof.Machine
end

