-- ==== Sys2Proof/Machine/BusWords.lean ====
section
/-! DEFINITION. The bus words (30_encoding.md R109, R110): each runs the one 8080 cycle that carries it
(41_bus_cycles.md R165, R166; 43_controller_commands.md R255 to R270). The block's own instruction set is the requests
(R2), which send the same bytes by WRITE_COMMAND and WRITE_DATA_BURST; how a row of format BUS9 runs alone, and where
its logical operation ends, are the model's choices (DESIGN CHOICE, logs 3 to 5). -/

namespace Sys2Proof.Machine

/-- RESET, command 0x01 (R255). -/
def execReset (s : State) : Result := s.busCommandCycle 0x01

/-- SLEEP_OUT, command 0x11 (R256). -/
def execSleepOut (s : State) : Result := s.busCommandCycle 0x11

/-- DISPLAY_OFF, command 0x28 (R257). -/
def execDisplayOff (s : State) : Result := s.busCommandCycle 0x28

/-- DISPLAY_ON, command 0x29 (R258). -/
def execDisplayOn (s : State) : Result := s.busCommandCycle 0x29

/-- COLUMN_ADDRESS_SET, command 0x2A (R259); its four address bytes follow as data words. -/
def execColumnAddressSet (s : State) : Result := s.busCommandCycle 0x2A

/-- PAGE_ADDRESS_SET, command 0x2B (R260); its four address bytes follow as data words. -/
def execPageAddressSet (s : State) : Result := s.busCommandCycle 0x2B

/-- MEMORY_WRITE, command 0x2C (R261); the pixel data follow as data words. -/
def execMemoryWrite (s : State) : Result := s.busCommandCycle 0x2C

/-- MADCTL, command 0x36 (R262); its parameter byte follows as a data word. -/
def execMadctl (s : State) : Result := s.busCommandCycle 0x36

/-- PIXEL_FORMAT, command 0x3A (R263); its parameter byte follows as a data word. -/
def execPixelFormat (s : State) : Result := s.busCommandCycle 0x3A

/-- VSCROLL_DEFINE, command 0x33 (R264); its six parameter bytes follow as data words. -/
def execVscrollDefine (s : State) : Result := s.busCommandCycle 0x33

/-- VSCROLL_START, command 0x37 (R265); its two parameter bytes follow as data words. -/
def execVscrollStart (s : State) : Result := s.busCommandCycle 0x37

/-- TEARING_ON, command 0x35 (R266); its mode byte follows as a data word. -/
def execTearingOn (s : State) : Result := s.busCommandCycle 0x35

/-- TEARING_OFF, command 0x34 (R267). -/
def execTearingOff (s : State) : Result := s.busCommandCycle 0x34

/-- INVERT_ON, command 0x21 (R268). -/
def execInvertOn (s : State) : Result := s.busCommandCycle 0x21

/-- INVERT_OFF, command 0x20 (R269). -/
def execInvertOff (s : State) : Result := s.busCommandCycle 0x20

/-- BUS_COMMAND: any command byte, unchecked (R165, R270). -/
def execBusCommand (c : Byte) (s : State) : Result := s.busCommandCycle c

/-- BUS_DATA: any data byte (R166). -/
def execBusData (d : Byte) (s : State) : Result := s.busDataCycle d

end Sys2Proof.Machine
end

