-- ==== Sys2Proof/Machine/Controller.lean ====
section
/-! DEFINITION. Rotation and scrolling (43_controller_commands.md R242 to R248). -/

namespace Sys2Proof.Machine

/-- The geometry after a rotation: width and height are exchanged when the parity changes (R242, R243). -/
def rotateTo (g : Geometry) (r : Fin 4) : Geometry :=
  if r.val % 2 = g.rotation.val % 2 then { g with rotation := r }
  else { g with rotation := r, width := g.height, height := g.width }

/-- SET_ROTATION (R242): MADCTL and the profile's byte for the rotation; r > 3 is ProtocolPrecondition. -/
def execSetRotation (r : Byte) (s : State) : Result :=
  s.whenRunning <|
    if h : r.toNat < 4 then
      s.guarded ((({ s with geom := rotateTo s.geom ⟨r.toNat, h⟩ }.sendCommand 0x36).sendBurst
        [s.params.rotMadctl[r.toNat]]).respond (.setRotation r) .none)
    else .next (s.raise (.setRotation r) .protocolPrecondition)

/-- SET_SCROLL_AREA (R246): command 0x33 and the three row counts, whose exact sum must be P_SCROLL_ROWS. -/
def execSetScrollArea (tfa vsa bfa : Half) (s : State) : Result :=
  s.whenRunning <|
    if tfa.toNat + vsa.toNat + bfa.toNat = s.params.scrollRows.toNat then
      s.guarded (((s.sendCommand 0x33).sendBurst
        (halfBytes tfa ++ halfBytes vsa ++ halfBytes bfa)).respond (.setScrollArea tfa vsa bfa) .none)
    else .next (s.raise (.setScrollArea tfa vsa bfa) .protocolPrecondition)

/-- SET_SCROLL_START (R248): command 0x37 and the start row, unchecked. -/
def execSetScrollStart (vsp : Half) (s : State) : Result :=
  s.whenRunning (s.guarded
    (((s.sendCommand 0x37).sendBurst (halfBytes vsp)).respond (.setScrollStart vsp) .none))

end Sys2Proof.Machine
end

