-- ==== Sys2Proof/Machine/Lut.lean ====
section
/-! DEFINITION. The table request (40_lut.md): BUILD_LUT. -/

namespace Sys2Proof.Machine

/-- BUILD_LUT (R142): the table from one read of OUT; no store, no bus event, no guard. -/
def execBuildLut (s : State) : Result :=
  s.whenRunning (.next (s.buildTable.respond .buildLut .none))

end Sys2Proof.Machine
end

