-- ==== Sys2Proof/Machine/Primitives.lean ====
section
/-! DEFINITION. The write primitives (41_bus_cycles.md R172 to R178). -/

namespace Sys2Proof.Machine

/-- WRITE_COMMAND (R172): one command byte, unchecked (R270). -/
def execWriteCommand (cmd : Byte) (s : State) : Result :=
  s.whenRunning (s.guarded ((s.sendCommand cmd).respond (.writeCommand cmd) .none))

/-- WRITE_DATA (R174): one data byte. -/
def execWriteData (d : Byte) (s : State) : Result :=
  s.whenRunning (s.guarded ((s.sendBurst [d]).respond (.writeData d) .none))

/-- WRITE_DATA_BURST (R176): n data bytes in one CS-low period; n = 0 stores nothing and is not guarded. -/
def execWriteDataBurst (data : List Byte) (s : State) : Result :=
  s.whenRunning <|
    if data = [] then .next (s.respond (.writeDataBurst data) .none)
    else s.guarded ((s.sendBurst data).respond (.writeDataBurst data) .none)

/-- WRITE_DATA_REPEAT (R178): a k-byte pattern `count` times in one CS-low period; k = 0 or count = 0
stores nothing and is not guarded. -/
def execWriteDataRepeat (pat : List Byte) (count : Word) (s : State) : Result :=
  s.whenRunning <|
    if pat = [] ∨ count = 0#32 then .next (s.respond (.writeDataRepeat pat count) .none)
    else s.guarded ((s.sendBurst (repeated pat count.toNat)).respond (.writeDataRepeat pat count) .none)

end Sys2Proof.Machine
end

