-- ==== Sys2Proof/Machine/Touch.lean ====
section
/-! DEFINITION. The touch requests (44_touch.md R302 to R308). None makes a GPIO store. -/

namespace Sys2Proof.Machine

/-- A direction code operand, 0..3, as the calibration holds it; none above 3 (R302). -/
def dirOf (d : Byte) : Option (Fin 4) := if h : d.toNat < 4 then some ⟨d.toNat, h⟩ else none

/-- The two axes of TOUCH_SET_CAL's operands, if they pass its check (R302). -/
def calibrationOf (xmin xmax : Half) (xdir : Byte) (ymin ymax : Half) (ydir : Byte) :
    Option (AxisCal × AxisCal) :=
  if xmin < xmax ∧ ymin < ymax then
    match dirOf xdir, dirOf ydir with
    | some dx, some dy => some ({ min := xmin, max := xmax, dir := dx }, { min := ymin, max := ymax, dir := dy })
    | _, _ => none
  else none

/-- TOUCH_SET_CAL (R302): a new calibration, or ProtocolPrecondition; sum_prev is kept. -/
def execTouchSetCal (xmin xmax : Half) (xdir : Byte) (ymin ymax : Half) (ydir : Byte) (s : State) : Result :=
  s.whenRunning <|
    match calibrationOf xmin xmax xdir ymin ymax ydir with
    | some (cx, cy) =>
      .next ({ s with touch := { s.touch with calX := cx, calY := cy } }.respond
        (.touchSetCal xmin xmax xdir ymin ymax ydir) .none)
    | none => .next (s.raise (.touchSetCal xmin xmax xdir ymin ymax ydir) .protocolPrecondition)

/-- TOUCH_SET_AUTOCAL (R303): bit 0 of `en`; bits 7..1 are ignored (R106). -/
def execTouchSetAutocal (en : Byte) (s : State) : Result :=
  s.whenRunning (.next
    ({ s with touch := { s.touch with autocal := en.getLsbD 0 } }.respond (.touchSetAutocal en) .none))

/-- The calibration as TOUCH_GET_CAL reports it (R304). -/
def calibrationResults (t : TouchState) : Results :=
  .calibration t.calX.min t.calX.max (BitVec.ofNat 8 t.calX.dir.val)
    t.calY.min t.calY.max (BitVec.ofNat 8 t.calY.dir.val)

/-- TOUCH_GET_CAL (R304). -/
def execTouchGetCal (s : State) : Result :=
  s.whenRunning (.next (s.respond .touchGetCal (calibrationResults s.touch)))

/-- TOUCH_SAMPLE (R305): one pass of the sampler; a rejected sample is a success. -/
def execTouchSample (s : State) : Result :=
  s.whenRunning (.next
    ((s.touchPass.2.setPhase .idle).respond .touchSample s.touchPass.1.results))

/-- How a TOUCH_LISTEN iteration ends: it responds if an accepted point lies on the screen, and otherwise the
request stays at pc, so that the next step is the next iteration (R307, R308). -/
def State.listenEnd (s : State) (i : Instr) : SampleOutcome → State
  | .accepted x y =>
    if onScreen s.geom x.toInt y.toInt then (s.setPhase .idle).respond i (.point x y) else s
  | .rejected _ => s

/-- TOUCH_LISTEN (R307): one iteration of its loop. The delay is the host's and changes no state (R352). -/
def execTouchListen (delay : Word) (s : State) : Result :=
  s.whenRunning (.next (s.touchPass.2.listenEnd (.touchListen delay) s.touchPass.1))

end Sys2Proof.Machine
end

