-- ==== Sys2Proof/Machine/Window.lean ====
section
/-! DEFINITION. Window, pixel, fill and colour requests (42_window_pixel.md R202 to R213). -/

namespace Sys2Proof.Machine

/-- SET_WINDOW (R205): the five operations of a window; no range check (R208). -/
def execSetWindow (x0 y0 x1 y1 : Half) (s : State) : Result :=
  s.whenRunning (s.guarded ((s.sendWindow x0 y0 x1 y1).respond (.setWindow x0 y0 x1 y1) .none))

/-- DRAW_PIXEL (R210): a one-pixel window and the pixel's bytes; off the screen it responds without a store. -/
def execDrawPixel (x y : Half) (color : Word) (s : State) : Result :=
  s.whenRunning <|
    if onScreen s.geom x.toInt y.toInt then
      s.guarded (((s.sendWindow x y x y).sendBurst (pack s.geom.fmt color)).respond
        (.drawPixel x y color) .none)
    else .next (s.respond (.drawPixel x y color) .none)

/-- FILL_RECT (R213): the window of the clipped rectangle, then its pixel count of the colour's bytes in one
burst; clipped to nothing it responds without a store. -/
def execFillRect (x y w h : Half) (color : Word) (s : State) : Result :=
  s.whenRunning <|
    match clip s.geom x.toInt y.toInt w.toNat h.toNat with
    | none => .next (s.respond (.fillRect x y w h color) .none)
    | some box =>
      s.guarded (((s.perform (box.windowOps s.cfg.pins s.lut)).sendBurst
        (repeated (pack s.geom.fmt color) box.count)).respond (.fillRect x y w h color) .none)

/-- COLOR_RGB (R202): the packed colour of three channels; no store. -/
def execColorRgb (r g b : Byte) (s : State) : Result :=
  s.whenRunning (.next (s.respond (.colorRgb r g b) (.color (rgb s.geom.fmt r g b))))

end Sys2Proof.Machine
end

