-- ==== Sys2Proof/Machine/Dispatch.lean ====
section
/-! DEFINITION. One arm per instruction. -/

namespace Sys2Proof.Machine

def exec (i : Instr) (s : State) : Host.Outcome State Fault Refusal :=
  match i with
  | .buildLut => Sys2Proof.Machine.execBuildLut s
  | .writeCommand cmd => Sys2Proof.Machine.execWriteCommand cmd s
  | .writeData d => Sys2Proof.Machine.execWriteData d s
  | .writeDataBurst data => Sys2Proof.Machine.execWriteDataBurst data s
  | .writeDataRepeat pat count => Sys2Proof.Machine.execWriteDataRepeat pat count s
  | .setWindow x0 y0 x1 y1 => Sys2Proof.Machine.execSetWindow x0 y0 x1 y1 s
  | .drawPixel x y color => Sys2Proof.Machine.execDrawPixel x y color s
  | .fillRect x y w h color => Sys2Proof.Machine.execFillRect x y w h color s
  | .colorRgb r g b => Sys2Proof.Machine.execColorRgb r g b s
  | .setRotation r => Sys2Proof.Machine.execSetRotation r s
  | .setScrollArea tfa vsa bfa => Sys2Proof.Machine.execSetScrollArea tfa vsa bfa s
  | .setScrollStart vsp => Sys2Proof.Machine.execSetScrollStart vsp s
  | .touchSetCal xmin xmax xdir ymin ymax ydir => Sys2Proof.Machine.execTouchSetCal xmin xmax xdir ymin ymax ydir s
  | .touchSetAutocal en => Sys2Proof.Machine.execTouchSetAutocal en s
  | .touchGetCal => Sys2Proof.Machine.execTouchGetCal s
  | .touchSample => Sys2Proof.Machine.execTouchSample s
  | .touchListen delay => Sys2Proof.Machine.execTouchListen delay s
  | .reset => Sys2Proof.Machine.execReset s
  | .sleepOut => Sys2Proof.Machine.execSleepOut s
  | .displayOff => Sys2Proof.Machine.execDisplayOff s
  | .displayOn => Sys2Proof.Machine.execDisplayOn s
  | .columnAddressSet => Sys2Proof.Machine.execColumnAddressSet s
  | .pageAddressSet => Sys2Proof.Machine.execPageAddressSet s
  | .memoryWrite => Sys2Proof.Machine.execMemoryWrite s
  | .madctl => Sys2Proof.Machine.execMadctl s
  | .pixelFormat => Sys2Proof.Machine.execPixelFormat s
  | .vscrollDefine => Sys2Proof.Machine.execVscrollDefine s
  | .vscrollStart => Sys2Proof.Machine.execVscrollStart s
  | .tearingOn => Sys2Proof.Machine.execTearingOn s
  | .tearingOff => Sys2Proof.Machine.execTearingOff s
  | .invertOn => Sys2Proof.Machine.execInvertOn s
  | .invertOff => Sys2Proof.Machine.execInvertOff s
  | .busCommand c => Sys2Proof.Machine.execBusCommand c s
  | .busData d => Sys2Proof.Machine.execBusData d s

end Sys2Proof.Machine
end

