-- ==== Sys2Proof/Machine/Run.lean ====
section
/-! DEFINITION. One step of the block: fetching a request frame, in the check order of 60_exceptions.md R344;
the model's bus-word port beside it; and how a table row is put where the next one is fetched. -/

namespace Sys2Proof.Machine

/-- The bytes of the stream from the frame at pc on (R44). -/
def State.pending (s : State) : List Byte := s.stream.drop s.pc

/-- One step of the block (R344), which runs the request operations and nothing more (R2): no step while a
fault is set; else the frame at pc, whose opcode is checked before its completeness (R338). A TOUCH_LISTEN
iteration is one step (R308). -/
def blockStep (s : State) : Result :=
  match s.fault with
  | some code => .fault (.halted code)
  | none =>
    match decodeFrame s.pending with
    | .request i _ => exec i s
    | .illegal _ => .next (s.takeFault .illegalRequest)
    | .incomplete _ => .fault .incompleteFrame
    | .streamEnd => .fault .streamEnd

/-- The machine's own move: the block's step, unless a bus word waits at the model's port, which is no part of
the block and runs the BUS9 rows of the opcode table, one bus cycle each (DESIGN CHOICE, log 3). -/
def ownMove (s : State) : Result :=
  match s.busQueue with
  | w :: _ => exec (decodeBusWord w) s
  | [] => blockStep s

/-- The run is final: no fault, and pc at the end of the stream (R353); no bus word waits. -/
def State.final (s : State) : Bool :=
  s.fault == none && s.busQueue.isEmpty && s.pc == s.stream.length

/-- A stream with a frame laid at an index; bytes missing before it are zeros. -/
def layAt (stream : List Byte) (pc : Nat) (frame : List Byte) : List Byte :=
  stream.take pc ++ List.replicate (pc - stream.length) 0 ++ frame ++ stream.drop (pc + frame.length)

/-- A table row's instruction where the next one is fetched: a bus word at the head of the port, or a frame at
pc with no bus word before it; and the machine has the next turn (log 20). -/
def State.placeRow (s : State) (nbits w : Nat) : State :=
  if isBusRow nbits then
    { s with schedule := [], busQueue := BitVec.ofNat 9 w :: s.busQueue.tail }
  else
    { s with schedule := [], busQueue := [], stream := layAt s.stream s.pc (tableFrame w) }

end Sys2Proof.Machine
end

