-- ==== Sys2Proof/Machine/Environment.lean ====
section
/-! DEFINITION. The steps of the host and the environment (60_exceptions.md R352, R356, R357). -/

namespace Sys2Proof.Machine

/-- A request is in progress: a TOUCH_LISTEN between two iterations, or bus words waiting at the port (R356,
log 22). -/
def State.inProgress (s : State) : Bool :=
  s.fault == none && (s.touch.phase != .idle || !s.busQueue.isEmpty)

/-- Host actions happen between requests, never during one (R356). -/
def State.betweenRequests (s : State) (k : Result) : Result :=
  if s.inProgress then .refused .hostDuringRequest else k

/-- OUT changed by the host: no store, and the events of the change (R356). -/
def State.hostOut (s : State) (new : Word) : State :=
  { s with out := new, bus := s.bus ++ busEvents s.cfg.pins s.out new }

/-- The effect of PIN_RESTORE(v) (R356). -/
def State.pinRestore (s : State) (v : Word) : State :=
  { s.hostOut (replaceBits s.out (busMask s.cfg.pins) v) with
    pinMode := setModes s.pinMode (busMask s.cfg.pins) .output }

/-- The GPIO stores of the request or bus word that is due. -/
def State.dueStores (s : State) : List (Nat × Word) :=
  match ownMove s with
  | .next t => t.stores.drop s.stores.length
  | _ => []

/-- A store of the store trace as a GPIO store. -/
def storeOfEntry (cfg : BusConfig) (e : Nat × Word) : GpioStore :=
  { reg := if e.1 = cfg.outAddr then .out else .set, value := e.2 }

/-- What the ended run leaves: if the reset falls inside a logical operation, after its first store and before
its release of CS, or inside a burst of the bus-word port, Indeterminate ends its bus trace (R163, R170, R357,
log 13). Between the operations of one request CS is high and nothing is added. -/
def State.endedRun (s : State) (made : Nat) : RunRecord :=
  let done := s.dueStores.take made
  let gpio := done.map (storeOfEntry s.cfg)
  let inside := !(outAfter s.out gpio).getLsbD s.cfg.pins.cs && (!done.isEmpty || !s.busQueue.isEmpty)
  { responses := s.responses
    stores := s.stores ++ done
    bus := s.bus ++ traceOf s.cfg.pins s.out gpio ++ (if inside then [.indeterminate] else []) }

/-- PLATFORM_RESET (R357): the block is constructed again with the same parameters (R370). What survives is
the environment's: the turns and readings to come, and the ended run's record (logs 13, 14). -/
def State.platformReset (s : State) (made : Nat) (env : ResetEnv) : State :=
  { construct s.params env with
    schedule := s.schedule
    past := s.past ++ [s.endedRun made]
    adcIn := s.adcIn
    draws := s.draws }

/-- One step of the host or the environment (R352, R356, R357). -/
def hostStep (a : HostAction) (s : State) : Result :=
  match a with
  | .sendFrames bytes => s.betweenRequests (.next { s with stream := s.stream ++ bytes })
  | .pinRestore v =>
    s.betweenRequests <|
      if v &&& strobeMask s.cfg.pins = strobeMask s.cfg.pins then .next (s.pinRestore v)
      else .refused .pinRestorePremise
  | .extOut m v =>
    s.betweenRequests <|
      if m &&& busMask s.cfg.pins = 0#32 then .next (s.hostOut (replaceBits s.out m v))
      else .refused .extOutPremise
  | .platformReset made env => .next (s.platformReset made env)
  | .delay _ => .next s
  | .sendBusWords ws => s.betweenRequests (.next { s with busQueue := s.busQueue ++ ws })

end Sys2Proof.Machine
end

