-- ==== Sys2Proof/Machine/Step.lean ====
section
/-! DEFINITION. One step of the machine: the turn that `schedule` names, its own move when it names none
(DESIGN CHOICE, log 6). -/

namespace Sys2Proof.Machine

/-- One step. -/
def step (s : State) : Host.Outcome State Fault Refusal :=
  match s.schedule with
  | [] => ownMove s
  | .block :: rest => ownMove { s with schedule := rest }
  | .host a :: rest => hostStep a { s with schedule := rest }

/-- The state in which the next step runs the table row's instruction (log 20). -/
def State.withFetchWord (s : State) (nbits w : Nat) : State := s.placeRow nbits w

end Sys2Proof.Machine
end

