-- ==== Sys2Proof/Safety.lean ====
section
/-! DEFINITION. The terms claims use: which states drive the bus as the rules say, the logical operations
of 41_bus_cycles.md R170 and what they leave, the invariant of the machine, and what a safe run is. -/

namespace Sys2Proof.Machine

/-! ### Valid pins and ready states -/

/-- The thirteen bus pins in the order of R371. -/
def pinList (pins : BusPins Nat) : List Nat :=
  [pins.d[0], pins.d[1], pins.d[2], pins.d[3], pins.d[4], pins.d[5], pins.d[6], pins.d[7],
   pins.cs, pins.dc, pins.wr, pins.rd, pins.rst]

/-- The bus pins are positions of a 32-bit word and distinct: what the checks of R371 leave. -/
structure PinsValid (pins : BusPins Nat) : Prop where
  inWord : ∀ p ∈ pinList pins, p < 32
  distinct : (pinList pins).Nodup

/-- The idle levels (R169): CS and WR high. -/
def State.idle (s : State) : Bool := s.out.getLsbD s.cfg.pins.cs && s.out.getLsbD s.cfg.pins.wr

/-- The table is the one BUILD_LUT leaves: a baseline and its 256 entries (R86, R143). -/
structure State.TableBuilt (s : State) : Prop where
  base : ∃ o, s.base = baseline s.cfg.pins o
  lut : s.lut = tableOf s.cfg.pins s.base

/-- A state in which every cycle has exactly the events of R165 to R167 (R169): no fault, valid pins, a
built table with RD = RST = 1, the idle levels, RD and RST high, every bus pin an output. -/
structure State.Ready (s : State) : Prop where
  running : s.fault = none
  pins : PinsValid s.cfg.pins
  table : s.TableBuilt
  baseRd : s.base.getLsbD s.cfg.pins.rd = true
  baseRst : s.base.getLsbD s.cfg.pins.rst = true
  idle : s.idle = true
  outRd : s.out.getLsbD s.cfg.pins.rd = true
  outRst : s.out.getLsbD s.cfg.pins.rst = true
  driven : s.busDriven = true

/-! ### Logical operations (R170) -/

/-- A logical operation: one command byte, or a burst of data bytes, closed by the release of CS. -/
inductive LogicalOp where
  | command (c : Byte)
  | burst (bs : List Byte)
deriving DecidableEq, Repr

/-- Its bus trace: Begin, X(b1), ..., X(bn), End (R170). -/
def LogicalOp.events : LogicalOp → List BusEvent
  | .command c => [.csBegin, .cmd c, .csEnd]
  | .burst bs => .csBegin :: (bs.map .data ++ [.csEnd])

/-- The entries of the store trace of one data byte: its table word to OUT, the WR bit to SET (R166). -/
def dataEntries (s : State) (b : Byte) : List (Nat × Word) :=
  [(s.cfg.outAddr, lutAt s.lut b), (s.cfg.setAddr, bit s.cfg.pins.wr)]

/-- Its entries of the store trace (R165 to R167): the table word of a data byte, the command word of a
command byte with DC cleared, the WR bit after each, the CS bit last. -/
def LogicalOp.entries (s : State) : LogicalOp → List (Nat × Word)
  | .command c =>
    [(s.cfg.outAddr, lutAt s.lut c &&& ~~~(bit s.cfg.pins.dc)), (s.cfg.setAddr, bit s.cfg.pins.wr),
     (s.cfg.setAddr, bit s.cfg.pins.cs)]
  | .burst bs => bs.flatMap (dataEntries s) ++ [(s.cfg.setAddr, bit s.cfg.pins.cs)]

/-- OUT after the word of the last cycle, the WR pulse and the release of CS. -/
def State.restLevel (s : State) (word : Word) : Word :=
  word ||| bit s.cfg.pins.wr ||| bit s.cfg.pins.cs

/-- OUT after the operation, from the OUT before it: the last word with WR and CS set. -/
def LogicalOp.outAfter (s : State) (old : Word) : LogicalOp → Word
  | .command c => s.restLevel (lutAt s.lut c &&& ~~~(bit s.cfg.pins.dc))
  | .burst bs =>
    match bs.getLast? with
    | some b => s.restLevel (lutAt s.lut b)
    | none => old ||| bit s.cfg.pins.cs

/-- The state after logical operations, in order, with the given events added to the bus trace: OUT, the
store trace and the bus trace change, nothing else. -/
def State.afterOps (s : State) (ops : List LogicalOp) (events : List BusEvent) : State :=
  { s with
    out := ops.foldl (LogicalOp.outAfter s) s.out
    stores := s.stores ++ ops.flatMap (LogicalOp.entries s)
    bus := s.bus ++ events }

/-- The bus trace of logical operations, in order. -/
def opEvents (ops : List LogicalOp) : List BusEvent := ops.flatMap LogicalOp.events

/-- The operations of a window (R205). -/
def windowLogicalOps (x0 y0 x1 y1 : Half) : List LogicalOp :=
  [.command 0x2A, .burst [hiByte x0, loByte x0, hiByte x1, loByte x1],
   .command 0x2B, .burst [hiByte y0, loByte y0, hiByte y1, loByte y1], .command 0x2C]

/-- The state of a request that has completed: its record, and pc past its frame (R330). -/
def State.completed (s : State) (len : Nat) (status : Status) (results : Results) : State :=
  { s with pc := s.pc + len, responses := s.responses ++ [{ status := status, results := results }] }

/-- The request sends these logical operations and succeeds, in every state where no fault is set and the bus
pins are outputs; from a ready state the bus trace is that of the operations. -/
def Sends (i : Instr) (s : State) (len : Nat) (ops : List LogicalOp) : Prop :=
  ∃ events, exec i s = .next ((s.afterOps ops events).completed len .ok .none) ∧
    (s.Ready → events = opEvents ops)

/-- The request takes PinModeHazard: `fault` is set and nothing else changes (R171, R334). -/
def TakesHazard (i : Instr) (s : State) : Prop :=
  exec i s = .next { s with fault := some .pinModeHazard }

/-- The request succeeds without a store: only its record and pc change. -/
def SucceedsWithoutStore (i : Instr) (s : State) (len : Nat) : Prop :=
  exec i s = .next (s.completed len .ok .none)

/-- The request ends with ProtocolPrecondition: only its record and pc change (R333). -/
def EndsWithPrecondition (i : Instr) (s : State) (len : Nat) : Prop :=
  exec i s = .next (s.completed len .protocolPrecondition .none)

/-! ### Kinds of instruction -/

/-- A bus word rather than a request frame. -/
def isBusInstr (i : Instr) : Bool :=
  match encode i with
  | .busWord _ => true
  | .frame _ => false

/-- A request that runs the touch sampler (R300). -/
def samplesTouch : Instr → Bool
  | .touchSample | .touchListen _ => true
  | _ => false

/-- The instruction makes GPIO stores in this state, once its operand checks, its clip and its empty-length
tests are passed (R171, R344). -/
def storesGpio (s : State) : Instr → Bool
  | .writeCommand _ | .writeData _ | .setWindow _ _ _ _ | .setScrollStart _ => true
  | .writeDataBurst data => data != []
  | .writeDataRepeat pat count => pat != [] && count != 0#32
  | .drawPixel x y _ => onScreen s.geom x.toInt y.toInt
  | .fillRect x y w h _ => (clip s.geom x.toInt y.toInt w.toNat h.toNat).isSome
  | .setRotation r => r.toNat < 4
  | .setScrollArea tfa vsa bfa => tfa.toNat + vsa.toNat + bfa.toNat == s.params.scrollRows.toNat
  | .buildLut | .colorRgb _ _ _ | .touchSetCal _ _ _ _ _ _ | .touchSetAutocal _ | .touchGetCal
  | .touchSample | .touchListen _ => false
  | .reset | .sleepOut | .displayOff | .displayOn | .columnAddressSet | .pageAddressSet
  | .memoryWrite | .madctl | .pixelFormat | .vscrollDefine | .vscrollStart | .tearingOn
  | .tearingOff | .invertOn | .invertOff | .busCommand _ | .busData _ => true

/-- The command byte of a bus word that is a command (R255 to R270). -/
def busCommandByte : Instr → Option Byte
  | .reset => some 0x01
  | .sleepOut => some 0x11
  | .displayOff => some 0x28
  | .displayOn => some 0x29
  | .columnAddressSet => some 0x2A
  | .pageAddressSet => some 0x2B
  | .memoryWrite => some 0x2C
  | .madctl => some 0x36
  | .pixelFormat => some 0x3A
  | .vscrollDefine => some 0x33
  | .vscrollStart => some 0x37
  | .tearingOn => some 0x35
  | .tearingOff => some 0x34
  | .invertOn => some 0x21
  | .invertOff => some 0x20
  | .busCommand c => some c
  | .buildLut | .writeCommand _ | .writeData _ | .writeDataBurst _ | .writeDataRepeat _ _
  | .setWindow _ _ _ _ | .drawPixel _ _ _ | .fillRect _ _ _ _ _ | .colorRgb _ _ _ | .setRotation _
  | .setScrollArea _ _ _ | .setScrollStart _ | .touchSetCal _ _ _ _ _ _ | .touchSetAutocal _
  | .touchGetCal | .touchSample | .touchListen _ | .busData _ => none

/-- The requests that can end with ProtocolPrecondition (R332, R341). -/
def mayFailPrecondition : Instr → Bool
  | .setRotation _ | .setScrollArea _ _ _ | .touchSetCal _ _ _ _ _ _ => true
  | _ => false

/-! ### The invariant -/

/-- What every step keeps. Its parts about the bus hold once construction has succeeded. -/
structure State.Inv (s : State) : Prop where
  /-- `cfg` and `fmt` are the construction arguments (R31, R32, R40). -/
  cfg : s.cfg = busConfigOf s.params
  format : s.geom.fmt = s.params.format
  /-- The fault ConfigurationError is the configuration's (R371, R372). -/
  configured : ∀ item, s.fault = some (.configurationError item) ↔ configError s.params = some item
  /-- Width and height follow the rotation (R41). -/
  size : (s.geom.width, s.geom.height) =
    if s.geom.rotation.val % 2 = 0 then (s.params.nativeW, s.params.nativeH)
    else (s.params.nativeH, s.params.nativeW)
  /-- The parameter calibration and the calibration hold min < max (R281, R293, R302). -/
  calibrated0 : axisValid s.params.cal0X = true ∧ axisValid s.params.cal0Y = true
  calibrated : axisValid s.touch.calX = true ∧ axisValid s.touch.calY = true
  /-- The table is a build of one baseline (R86). -/
  table : configError s.params = none → s.TableBuilt
  /-- While every bus pin is an output, WR is high, and CS is high unless a burst of the bus-word port goes
  on (R169). -/
  levels : configError s.params = none → s.busDriven = true →
    s.out.getLsbD s.cfg.pins.wr = true ∧
    (s.out.getLsbD s.cfg.pins.cs = true ∨ dataNext s.busQueue = true)
  /-- A touch request that restores its pins leaves every bus pin an output (R300). -/
  restored : s.params.restoresPins = true → s.busDriven = true
  /-- The sampler is idle between requests: another phase stands only inside a TOUCH_LISTEN (R43, R307). -/
  listening : s.touch.phase ≠ .idle →
    s.fault = none ∧ s.busQueue = [] ∧ ∃ delay rest, decodeFrame s.pending = .request (.touchListen delay) rest
  /-- pc is an index of the stream (R44). -/
  pcInStream : s.pc ≤ s.stream.length
  /-- Every store went to OUT or SET (R75). -/
  storeAddrs : ∀ e ∈ s.stores, e.1 = s.cfg.outAddr ∨ e.1 = s.cfg.setAddr

/-! ### Safe runs -/

/-- The state makes its own move next, no host action: the schedule is empty, or names it; `s'` is the state
without that turn (log 6). -/
def OwnTurn (s s' : State) : Prop :=
  (s.schedule = [] ∧ s' = s) ∨ ∃ turns, s.schedule = .block :: turns ∧ s' = { s with schedule := turns }

/-- The run so far is safe: no fault, and nothing Indeterminate reached the controller (R163). -/
def State.safe (s : State) : Bool := s.fault == none && !s.bus.contains .indeterminate

/-- The state after a number of steps, if each of them has a next state. -/
def State.after : Nat → State → Option State
  | 0, s => some s
  | n + 1, s =>
    match step s with
    | .next t => State.after n t
    | _ => none

/-- A step does not leave the model. -/
def stepStaysInModel (s : State) : Bool :=
  match step s with
  | .refused _ => false
  | _ => true

end Sys2Proof.Machine
end

