-- ==== Sys2Proof/Certificates/Slice0/Obligations.lean ====
section
/-! DEFINITION. The statements about the model, one `Obligations.<Name>` each. "R<n>" cites the rule of
spec/ that the statement formalises; "log n" is notes/assumptions/n.md. A statement's terms that are not
the machine's own stand in Sys2Proof/Safety.lean. -/

set_option autoImplicit false

open Sys2Proof Sys2Proof.Machine

/-! ### Encoding (30_encoding.md) -/

/-- Decoding the encoding of a well-formed instruction gives it back, with every operand (R101, R102, R109). -/
def Obligations.DecodeOfEncodeIsTheInstruction : Prop :=
  ∀ i : Instr, i.wf = true → decode (encode i) = some i

/-- A frame in a stream decodes to its instruction and leaves the bytes after it; its length is the frame
length; a stream that ends inside it is incomplete (R102, R103). -/
def Obligations.FramesDecodeInStreamAndOnlyWhole : Prop :=
  ∀ (i : Instr) (frame : List Byte), i.wf = true → encode i = .frame frame →
    frame.length = frameLength i ∧
    (∀ rest, decodeFrame (frame ++ rest) = .request i rest) ∧
    ∀ n, 0 < n → n < frame.length → ∃ op, frame.head? = some op ∧ decodeFrame (frame.take n) = .incomplete op

/-- What the decoder reads is the encoding of what it answers: no bit of a frame or a bus word is dropped, and
no word has two meanings (R109, R114). -/
def Obligations.DecodedWordsEncodeBack : Prop :=
  (∀ (bs rest : List Byte) (i : Instr), decodeFrame bs = .request i rest →
    i.wf = true ∧ ∃ frame, encode i = .frame frame ∧ bs = frame ++ rest) ∧
  ∀ w : BusWord, (decodeBusWord w).wf = true ∧ encode (decodeBusWord w) = .busWord w

/-- The opcode map: exactly the bytes 0x00, 0x0D to 0x0F and 0x15 to 0xFF are illegal, whatever follows them
(R105, R114). -/
def Obligations.IllegalOpcodesAreExactlyThoseOutsideTheMap : Prop :=
  ∀ (op : Byte) (rest : List Byte),
    decodeFrame (op :: rest) = .illegal op ↔
      op.toNat = 0 ∨ (0x0D ≤ op.toNat ∧ op.toNat ≤ 0x0F) ∨ 0x15 ≤ op.toNat

/-- Words written out from the encoding tables decode to the instructions they stand for (R102, R110; the frames
are those of 95_test_vectors.md V1, V14, V22, V50). -/
def Obligations.WrittenWordsDecode : Prop :=
  decode (.frame [0x02, 0x29]) = some (.writeCommand 0x29) ∧
  decode (.frame [0x05, 0x02, 0xF8, 0x00, 0x00, 0x00, 0x00, 0x02]) =
    some (.writeDataRepeat [0xF8, 0x00] 2) ∧
  decode (.frame [0x08, 0, 0, 0, 0, 0, 0x0A, 0, 0x0A, 0, 0, 0xF8, 0]) =
    some (.fillRect 0 0 10 10 0xF800) ∧
  decode (.frame [0x10, 0x00, 0x64, 0x00, 0xC8, 0x01, 0x00, 0x32, 0x01, 0x00, 0x02]) =
    some (.touchSetCal 100 200 1 50 256 2) ∧
  decode (.busWord 0x029) = some .displayOn ∧
  decode (.busWord 0x1A5) = some (.busData 0xA5)

/-! ### A step -/

/-- The machine's own move runs the decoded instruction, and adds nothing around `exec` but the turn taken from
the schedule: the frame at pc, unless a bus word waits at the model's port. The block itself runs the request
operations and nothing more (R2): each of its steps is `exec` of one, or takes IllegalRequest. The port and the
schedule are the model's choice (logs 3, 6). -/
def Obligations.StepRunsTheDecodedInstruction : Prop :=
  (∀ s s' : State, OwnTurn s s' → s.fault = none →
    (∀ w ws, s.busQueue = w :: ws → step s = exec (decodeBusWord w) s') ∧
    (s.busQueue = [] → ∀ i rest, decodeFrame (s.stream.drop s.pc) = .request i rest → step s = exec i s')) ∧
  ∀ s t : State, blockStep s = .next t →
    (∃ i rest, decodeFrame (s.stream.drop s.pc) = .request i rest ∧ isBusInstr i = false ∧ exec i s = .next t) ∨
    t = { s with fault := some .illegalRequest }

/-- An illegal opcode byte at pc takes IllegalRequest as soon as it is present: `fault` is set, nothing else
changes, and from then on no instruction runs and the machine's own move is no step (R338). -/
def Obligations.IllegalOpcodeTakesIllegalRequest : Prop :=
  ∀ (s s' : State) (op : Byte) (rest : List Byte),
    OwnTurn s s' → s.fault = none → s.busQueue = [] → s.stream.drop s.pc = op :: rest →
    (op.toNat = 0 ∨ (0x0D ≤ op.toNat ∧ op.toNat ≤ 0x0F) ∨ 0x15 ≤ op.toNat) →
    let t := { s' with fault := some .illegalRequest }
    step s = .next t ∧ (∀ i, exec i t = .fault (.halted .illegalRequest)) ∧
    ∀ t', OwnTurn t t' → step t = .fault (.halted .illegalRequest)

/-- Where the machine's own move is no step: a fault is set (for every instruction), the stream ends inside the
frame at pc, or pc is at its end (R45, R103, R353). -/
def Obligations.NoStepWhenHaltedIncompleteOrFinal : Prop :=
  (∀ (s : State) (code : FaultCode), s.fault = some code →
    (∀ i, exec i s = .fault (.halted code)) ∧ ∀ s', OwnTurn s s' → step s = .fault (.halted code)) ∧
  ∀ s s' : State, OwnTurn s s' → s.fault = none → s.busQueue = [] →
    (∀ op, decodeFrame (s.stream.drop s.pc) = .incomplete op → step s = .fault .incompleteFrame) ∧
    (s.stream.length ≤ s.pc → step s = .fault .streamEnd)

/-- A fault is sticky: of all steps, only a platform reset clears it or changes it (R45). -/
def Obligations.OnlyPlatformResetClearsAFault : Prop :=
  ∀ (s t : State) (code : FaultCode), s.fault = some code → step s = .next t →
    t.fault = some code ∨ ∃ made env turns, s.schedule = .host (.platformReset made env) :: turns

/-! ### Reset (70_reset_and_hazards.md) -/

/-- A successful construction leaves the reset values of R52. -/
def Obligations.ConstructionLeavesResetValues : Prop :=
  ∀ (p : Params) (env : ResetEnv), configError p = none →
    let s := construct p env
    ((∀ i : Fin 8, ((s.cfg.pins.d[i] : Nat) : Int) = p.pins.d[i]) ∧ (s.cfg.pins.cs : Int) = p.pins.cs ∧
      (s.cfg.pins.dc : Int) = p.pins.dc ∧ (s.cfg.pins.wr : Int) = p.pins.wr ∧
      (s.cfg.pins.rd : Int) = p.pins.rd ∧ (s.cfg.pins.rst : Int) = p.pins.rst ∧
      s.cfg.outAddr = p.outAddr ∧ s.cfg.setAddr = p.setAddr) ∧
    (∀ q, q < 32 → s.out.getLsbD q =
      if q = s.cfg.pins.cs ∨ q = s.cfg.pins.wr ∨ q = s.cfg.pins.rd ∨ q = s.cfg.pins.rst then true
      else env.out.getLsbD q) ∧
    (∀ q, q < 32 → modeAt s.pinMode q =
      if (busMask s.cfg.pins).getLsbD q then .output else modeAt env.pinMode q) ∧
    s.base = (s.out &&& ~~~(dataMask s.cfg.pins) &&& ~~~(bit s.cfg.pins.cs) &&& ~~~(bit s.cfg.pins.wr)) |||
      bit s.cfg.pins.dc ∧
    (∀ b, lutAt s.lut b = s.base ||| spread s.cfg.pins b) ∧
    s.geom = { fmt := p.format, rotation := 0, width := p.nativeW, height := p.nativeH } ∧
    s.touch = { calX := p.cal0X, calY := p.cal0Y, autocal := p.autocal0, sumPrev := none, phase := .idle } ∧
    s.pc = 0 ∧ s.fault = none ∧ s.responses = [] ∧ s.stores = [] ∧ s.bus = []

/-- The configuration checks and the item they name, in order: bus pins usable, bus pins distinct, touch pins
usable, panel pins distinct, addresses (R371, R282). That step 3 checks the range of all touch pins before the
distinctness of four is the model's reading (log 16). -/
def Obligations.ConfigurationChecksNameTheFirstOffender : Prop :=
  ∀ p : Params,
    let usable := fun v : Int => 0 ≤ v ∧ v ≤ 31 ∧ v ∈ p.validPins
    let addrOk := fun a : Nat => a % 4 = 0 ∧ a < 2 ^ p.addrBits
    let busUsable := ∀ x ∈ busPinFields p.pins, usable x.2
    let busDistinct := ((busPinFields p.pins).map Prod.snd).Nodup
    let touchUsable := ∀ x ∈ touchPinFields p.touchPins, usable x.2
    let panelDistinct := ((panelPinFields p.touchPins).map Prod.snd).Nodup
    (∀ pre f v post, busPinFields p.pins = pre ++ (f, v) :: post → (∀ x ∈ pre, usable x.2) → ¬usable v →
      configError p = some (.pin f v)) ∧
    (busUsable → ∀ pre f v post, busPinFields p.pins = pre ++ (f, v) :: post →
      (pre.map Prod.snd).Nodup → v ∈ pre.map Prod.snd → configError p = some (.pin f v)) ∧
    (busUsable → busDistinct → ∀ pre f v post, touchPinFields p.touchPins = pre ++ (f, v) :: post →
      (∀ x ∈ pre, usable x.2) → ¬usable v → configError p = some (.pin f v)) ∧
    (busUsable → busDistinct → touchUsable → ∀ pre f v post,
      panelPinFields p.touchPins = pre ++ (f, v) :: post →
      (pre.map Prod.snd).Nodup → v ∈ pre.map Prod.snd → configError p = some (.pin f v)) ∧
    (busUsable → busDistinct → touchUsable → panelDistinct →
      (¬addrOk p.outAddr → configError p = some .outAddr) ∧
      (addrOk p.outAddr → ¬addrOk p.setAddr → configError p = some .setAddr) ∧
      (addrOk p.outAddr → p.outAddr = p.setAddr → configError p = some .setAddr) ∧
      (addrOk p.outAddr → addrOk p.setAddr → p.outAddr ≠ p.setAddr → configError p = none))

/-- A failed construction sets ConfigurationError with the item and never takes a step (R372). -/
def Obligations.FailedConstructionNeverSteps : Prop :=
  ∀ (p : Params) (env : ResetEnv) (item : ConfigItem), configError p = some item →
    let s := construct p env
    s.fault = some (.configurationError item) ∧ s.responses = [] ∧ s.stores = [] ∧ s.bus = [] ∧
    step s = .fault (.halted (.configurationError item))

/-- The reset state, which is EX1's (the model's choice, log 1), meets the invariant and is ready. -/
def Obligations.ResetMeetsTheInvariant : Prop :=
  State.reset.Inv ∧ State.reset.Ready

/-- Every construction with a valid calibration parameter meets the invariant, and a successful one is ready
(R169, R373, R374). Of a failed construction R372 gives only the fault and the empty traces; that the
other elements meet the invariant there is the model's choice (log 12). -/
def Obligations.ConstructionMeetsTheInvariant : Prop :=
  ∀ (p : Params) (env : ResetEnv), axisValid p.cal0X = true → axisValid p.cal0Y = true →
    (construct p env).Inv ∧ (configError p = none → (construct p env).Ready)

/-- Every step, of the block, the host or the environment, keeps the invariant (R31, R32, R41, R75, R86,
R169). Three of its clauses are the model's: CS low inside a burst of the bus-word port (logs 3, 4); when the sampler is not idle
(logs 15, 22); and what holds after a platform reset whose checks fail (log 12). -/
def Obligations.EveryStepKeepsTheInvariant : Prop :=
  ∀ s t : State, s.Inv → step s = .next t → t.Inv

/-! ### The lookup table (40_lut.md) -/

/-- BUILD_LUT captures BASE from one read of OUT and builds the 256 entries; it makes no store and changes
nothing else (R142). -/
def Obligations.BuildLutBuildsTheTable : Prop :=
  encode .buildLut = .frame [0x01] ∧
  ∀ s : State, s.fault = none →
    let base := (s.out &&& ~~~(dataMask s.cfg.pins) &&& ~~~(bit s.cfg.pins.cs) &&& ~~~(bit s.cfg.pins.wr)) |||
      bit s.cfg.pins.dc
    ∃ lut, exec .buildLut s = .next ({ s with base := base, lut := lut }.completed 1 .ok .none) ∧
      ∀ b, lutAt lut b = base ||| spread s.cfg.pins b

/-- Decoding a table entry through the pin map gives its byte back, and every other bit is the baseline's
(R145). -/
def Obligations.TableEntriesDecodeToTheirByte : Prop :=
  ∀ (pins : BusPins Nat) (o : Word) (b : Byte), PinsValid pins →
    let base := baseline pins o
    let entry := lutAt (tableOf pins base) b
    dataByte pins entry = b ∧ (∀ i : Fin 8, entry.getLsbD pins.d[i] = b.getLsbD i) ∧
    entry &&& ~~~(dataMask pins) = base

/-- Every table word has CS = 0, DC = 1 and WR = 0, and RD and RST as OUT had them (R146). -/
def Obligations.TableWordsHaveControlBits : Prop :=
  ∀ (pins : BusPins Nat) (o : Word) (b : Byte), PinsValid pins →
    let entry := lutAt (tableOf pins (baseline pins o)) b
    entry.getLsbD pins.cs = false ∧ entry.getLsbD pins.dc = true ∧ entry.getLsbD pins.wr = false ∧
    entry.getLsbD pins.rd = o.getLsbD pins.rd ∧ entry.getLsbD pins.rst = o.getLsbD pins.rst

/-- The table is injective; its first entry is BASE and its last is BASE with every data pin (R147). -/
def Obligations.TableIsInjective : Prop :=
  ∀ (pins : BusPins Nat) (o : Word), PinsValid pins →
    let base := baseline pins o
    let lut := tableOf pins base
    (∀ a b : Byte, lutAt lut a = lutAt lut b → a = b) ∧ (∀ a b : Byte, spread pins a = spread pins b → a = b) ∧
    lutAt lut 0x00 = base ∧ lutAt lut 0xFF = base ||| dataMask pins

/-- No instruction changes a bit of OUT outside BUSMASK to anything but the baseline's (R144, R347). -/
def Obligations.UnownedPinsOnlyReplayTheBaseline : Prop :=
  ∀ (s t : State) (i : Instr) (q : Nat), s.Inv → exec i s = .next t →
    q < 32 → (busMask s.cfg.pins).getLsbD q = false →
    t.out.getLsbD q = s.out.getLsbD q ∨ t.out.getLsbD q = s.base.getLsbD q

/-! ### Bus cycles (41_bus_cycles.md) -/

/-- The three procedures, from any value of OUT and a table whose baseline has RD = RST = 1 (R169): the stores,
and the events they add (R165, R166, R167). -/
def Obligations.CyclesLatchTheirByte : Prop :=
  ∀ (s : State) (old : Word) (b : Byte), PinsValid s.cfg.pins → s.TableBuilt →
    s.base.getLsbD s.cfg.pins.rd = true → s.base.getLsbD s.cfg.pins.rst = true →
    let pins := s.cfg.pins
    let start : List BusEvent := if old.getLsbD pins.cs = true then [.csBegin] else []
    cmdCycle pins s.lut b = [⟨.out, lutAt s.lut b &&& ~~~(bit pins.dc)⟩, ⟨.set, bit pins.wr⟩] ∧
    traceOf pins old (cmdCycle pins s.lut b) = start ++ [.cmd b] ∧
    dataCycle pins s.lut b = [⟨.out, lutAt s.lut b⟩, ⟨.set, bit pins.wr⟩] ∧
    traceOf pins old (dataCycle pins s.lut b) = start ++ [.data b] ∧
    csRelease pins = [⟨.set, bit pins.cs⟩] ∧
    (old.getLsbD pins.cs = false → traceOf pins old (csRelease pins) = [.csEnd]) ∧
    (outAfter old (csRelease pins)).getLsbD pins.cs = true ∧
    ∀ q, q ≠ pins.cs → (outAfter old (csRelease pins)).getLsbD q = old.getLsbD q

/-- Which changes of OUT are no event, and which WR edges are Indeterminate (R162, R163). -/
def Obligations.EdgesWithoutAndWithIndeterminateEvents : Prop :=
  ∀ (pins : BusPins Nat) (old new : Word), PinsValid pins →
    (old.getLsbD pins.cs = new.getLsbD pins.cs →
      ¬(old.getLsbD pins.wr = false ∧ new.getLsbD pins.wr = true) → busEvents pins old new = []) ∧
    (old.getLsbD pins.cs = true → new.getLsbD pins.cs = true → busEvents pins old new = []) ∧
    ((∀ q, (busMask pins).getLsbD q = true → old.getLsbD q = new.getLsbD q) → busEvents pins old new = []) ∧
    (old.getLsbD pins.wr = false → new.getLsbD pins.wr = true →
      (old.getLsbD pins.cs ≠ new.getLsbD pins.cs ∨
        (old.getLsbD pins.cs = false ∧
          (new.getLsbD pins.rd = false ∨ new.getLsbD pins.rst = false ∨
            ∃ q, (dataMask pins ||| bit pins.dc ||| bit pins.rd ||| bit pins.rst).getLsbD q = true ∧
              old.getLsbD q ≠ new.getLsbD q))) →
      .indeterminate ∈ busEvents pins old new ∧
      ∀ d, .cmd d ∉ busEvents pins old new ∧ .data d ∉ busEvents pins old new)

/-- What an instruction adds to the bus trace is determined by OUT before it and the stores it makes (R164). The
touch requests, which may append Indeterminate (R300), make no store. -/
def Obligations.TraceIsDeterminedByStores : Prop :=
  ∀ (s t : State) (i : Instr), exec i s = .next t →
    (samplesTouch i = true → t.stores = s.stores) ∧
    (samplesTouch i = false →
      ∃ l : List GpioStore, t.stores = s.stores ++ l.map (fun st => (regAddr s.cfg st.reg, st.value)) ∧
        t.out = outAfter s.out l ∧ t.bus = s.bus ++ traceOf s.cfg.pins s.out l)

/-- From a ready state, every request that does not sample touch leaves a ready state and adds nothing
Indeterminate to the bus trace: the idle invariant (R169). -/
def Obligations.RequestsKeepReadyStates : Prop :=
  ∀ (s t : State) (i : Instr), s.Ready → isBusInstr i = false → samplesTouch i = false → exec i s = .next t →
    t.Ready ∧ ∃ events, t.bus = s.bus ++ events ∧ .indeterminate ∉ events

/-! ### The write primitives (41_bus_cycles.md R172 to R179) -/

/-- WRITE_COMMAND (R172). -/
def Obligations.WriteCommandSendsOneCommand : Prop :=
  ∀ (s : State) (cmd : Byte), encode (.writeCommand cmd) = .frame [0x02, cmd] ∧
    (s.fault = none → s.busDriven = true → Sends (.writeCommand cmd) s 2 [.command cmd]) ∧
    (s.fault = none → s.busDriven = false → TakesHazard (.writeCommand cmd) s)

/-- WRITE_DATA (R174). -/
def Obligations.WriteDataSendsOneByte : Prop :=
  ∀ (s : State) (d : Byte), encode (.writeData d) = .frame [0x03, d] ∧
    (s.fault = none → s.busDriven = true → Sends (.writeData d) s 2 [.burst [d]]) ∧
    (s.fault = none → s.busDriven = false → TakesHazard (.writeData d) s)

/-- WRITE_DATA_BURST (R176). -/
def Obligations.WriteDataBurstSendsItsBytes : Prop :=
  ∀ (s : State) (data : List Byte),
    (data.length < 2 ^ 32 → ∃ n3 n2 n1 n0 : Byte,
      encode (.writeDataBurst data) = .frame ([0x04, n3, n2, n1, n0] ++ data) ∧
      data.length = n3.toNat * 2 ^ 24 + n2.toNat * 2 ^ 16 + n1.toNat * 2 ^ 8 + n0.toNat) ∧
    (s.fault = none → data = [] → SucceedsWithoutStore (.writeDataBurst data) s 5) ∧
    (s.fault = none → data ≠ [] → s.busDriven = true →
      Sends (.writeDataBurst data) s (5 + data.length) [.burst data]) ∧
    (s.fault = none → data ≠ [] → s.busDriven = false → TakesHazard (.writeDataBurst data) s)

/-- WRITE_DATA_REPEAT (R178). -/
def Obligations.WriteDataRepeatSendsItsPattern : Prop :=
  ∀ (s : State) (pat : List Byte) (count : Word),
    (pat.length < 2 ^ 8 → ∃ k c3 c2 c1 c0 : Byte,
      encode (.writeDataRepeat pat count) = .frame (0x05 :: k :: (pat ++ [c3, c2, c1, c0])) ∧
      pat.length = k.toNat ∧
      count.toNat = c3.toNat * 2 ^ 24 + c2.toNat * 2 ^ 16 + c1.toNat * 2 ^ 8 + c0.toNat) ∧
    (s.fault = none → pat = [] ∨ count = 0 →
      SucceedsWithoutStore (.writeDataRepeat pat count) s (6 + pat.length)) ∧
    (s.fault = none → pat ≠ [] → count ≠ 0 → s.busDriven = true →
      Sends (.writeDataRepeat pat count) s (6 + pat.length)
        [.burst (List.replicate count.toNat pat).flatten]) ∧
    (s.fault = none → pat ≠ [] → count ≠ 0 → s.busDriven = false →
      TakesHazard (.writeDataRepeat pat count) s)

/-- The number of GPIO stores each primitive makes (R179). -/
def Obligations.PrimitivesMakeTheStatedNumberOfStores : Prop :=
  ∀ s t : State, s.fault = none → s.busDriven = true →
    (∀ c, exec (.writeCommand c) s = .next t → t.stores.length = s.stores.length + 3) ∧
    (∀ d, exec (.writeData d) s = .next t → t.stores.length = s.stores.length + 3) ∧
    (∀ data, exec (.writeDataBurst data) s = .next t →
      t.stores.length = s.stores.length + (if data.length = 0 then 0 else 2 * data.length + 1)) ∧
    (∀ pat count, exec (.writeDataRepeat pat count) s = .next t →
      t.stores.length = s.stores.length +
        (if pat.length * count.toNat = 0 then 0 else 2 * pat.length * count.toNat + 1))

/-- The guard: an instruction that would store takes PinModeHazard while a bus pin is Released and nothing else
changes; while every bus pin is an output it takes no fault; and an instruction that would not store makes no
store either way (R171, R340, R344). The rules speak of the requests; for the bus words the guard is
the model's choice (logs 3, 5). -/
def Obligations.StoringInstructionsAreGuarded : Prop :=
  ∀ (s : State) (i : Instr), s.fault = none →
    (storesGpio s i = true → s.busDriven = false → TakesHazard i s) ∧
    (storesGpio s i = true → s.busDriven = true →
      ∃ t, exec i s = .next t ∧ t.fault = none ∧ s.stores.length < t.stores.length) ∧
    (storesGpio s i = false → ∃ t, exec i s = .next t ∧ t.fault = none ∧ t.stores = s.stores)

/-! ### Colours, windows, pixels and fills (42_window_pixel.md) -/

/-- The bytes of a packed colour, and their number (R200, R201). -/
def Obligations.PackGivesThePixelBytes : Prop :=
  ∀ c : Word,
    (pack .bpp16 c).map BitVec.toNat = [(c.toNat >>> 8) &&& 0xFF, c.toNat &&& 0xFF] ∧
    (pack .bpp18 c).map BitVec.toNat =
      [(c.toNat >>> 10) &&& 0xFF, (c.toNat >>> 2) &&& 0xFF, (c.toNat <<< 4) &&& 0xF0] ∧
    (pack .bpp24 c).map BitVec.toNat =
      [(c.toNat >>> 16) &&& 0xFF, (c.toNat >>> 8) &&& 0xFF, c.toNat &&& 0xFF] ∧
    (pack .bpp16 c).length = 2 ∧ (pack .bpp18 c).length = 3 ∧ (pack .bpp24 c).length = 3

/-- COLOR_RGB responds with the truncated channels at their field positions and makes no store (R202, R203). -/
def Obligations.ColorRgbRespondsWithThePackedColour : Prop :=
  ∀ (s : State) (r g b : Byte), encode (.colorRgb r g b) = .frame [0x09, r, g, b] ∧
    (s.fault = none → ∃ color : Word,
      exec (.colorRgb r g b) s = .next (s.completed 4 .ok (.color color)) ∧
      color.toNat = match s.geom.fmt with
        | .bpp16 => (r.toNat >>> 3) * 2 ^ 11 + (g.toNat >>> 2) * 2 ^ 5 + (b.toNat >>> 3)
        | .bpp18 => (r.toNat >>> 2) * 2 ^ 12 + (g.toNat >>> 2) * 2 ^ 6 + (b.toNat >>> 2)
        | .bpp24 => r.toNat * 2 ^ 16 + g.toNat * 2 ^ 8 + b.toNat)

/-- Unpacking a colour and scaling each channel back loses less than the channel's dropped bits (R204). -/
def Obligations.RgbRoundTripsWithinChannelPrecision : Prop :=
  ∀ r g b : Byte,
    (let c := (rgb .bpp16 r g b).toNat
     let r' := (c >>> 11) <<< 3
     let g' := ((c >>> 5) &&& 0x3F) <<< 2
     let b' := (c &&& 0x1F) <<< 3
     r' ≤ r.toNat ∧ r.toNat - r' < 8 ∧ g' ≤ g.toNat ∧ g.toNat - g' < 4 ∧ b' ≤ b.toNat ∧ b.toNat - b' < 8) ∧
    (let c := (rgb .bpp18 r g b).toNat
     let r' := (c >>> 12) <<< 2
     let g' := ((c >>> 6) &&& 0x3F) <<< 2
     let b' := (c &&& 0x3F) <<< 2
     r' ≤ r.toNat ∧ r.toNat - r' < 4 ∧ g' ≤ g.toNat ∧ g.toNat - g' < 4 ∧ b' ≤ b.toNat ∧ b.toNat - b' < 4) ∧
    (let c := (rgb .bpp24 r g b).toNat
     c >>> 16 = r.toNat ∧ (c >>> 8) &&& 0xFF = g.toNat ∧ c &&& 0xFF = b.toNat)

/-- SET_WINDOW sends column address, page address and memory write, 27 stores, with no range check (R205). -/
def Obligations.SetWindowSendsTheWindow : Prop :=
  ∀ (s : State) (x0 y0 x1 y1 : Half),
    encode (.setWindow x0 y0 x1 y1) = .frame [0x06, hiByte x0, loByte x0, hiByte y0, loByte y0,
      hiByte x1, loByte x1, hiByte y1, loByte y1] ∧
    (s.fault = none → s.busDriven = true →
      Sends (.setWindow x0 y0 x1 y1) s 9 (windowLogicalOps x0 y0 x1 y1)) ∧
    ((windowLogicalOps x0 y0 x1 y1).flatMap (LogicalOp.entries s)).length = 27 ∧
    (s.fault = none → s.busDriven = false → TakesHazard (.setWindow x0 y0 x1 y1) s)

/-- The clip is exactly the part of the rectangle on the screen; a clipped rectangle meets the window's
precondition; and DRAW_PIXEL's test is the clip of one pixel (R208, R209, R211). -/
def Obligations.ClipIsTheOnScreenPart : Prop :=
  ∀ (g : Geometry) (x y : Int) (w h : Nat),
    let inside := fun i j : Int => x ≤ i ∧ i < x + w ∧ y ≤ j ∧ j < y + h ∧
      0 ≤ i ∧ i < g.width.toNat ∧ 0 ≤ j ∧ j < g.height.toNat
    (clip g x y w h = none ↔ ∀ i j, ¬inside i j) ∧
    (∀ box, clip g x y w h = some box →
      (∀ i j, inside i j ↔ box.x0 ≤ i ∧ i ≤ box.x1 ∧ box.y0 ≤ j ∧ j ≤ box.y1) ∧
      0 ≤ box.x0 ∧ box.x0 ≤ box.x1 ∧ box.x1 < g.width.toNat ∧
      0 ≤ box.y0 ∧ box.y0 ≤ box.y1 ∧ box.y1 < g.height.toNat) ∧
    (clip g x y 1 1 = if onScreen g x y = true then some { x0 := x, y0 := y, x1 := x, y1 := y } else none)

/-- DRAW_PIXEL: on the screen a one-pixel window and the pixel's bytes; off it, success without a store, the
pins driven or not (R210, R212). -/
def Obligations.DrawPixelDrawsOnScreenPixels : Prop :=
  ∀ (s : State) (x y : Half) (color : Word), s.fault = none →
    let ops := windowLogicalOps x y x y ++ [.burst (pack s.geom.fmt color)]
    (∃ c3 c2 c1 c0 : Byte, color = wordOf c3 c2 c1 c0 ∧
      encode (.drawPixel x y color) = .frame [0x07, hiByte x, loByte x, hiByte y, loByte y, c3, c2, c1, c0]) ∧
    (ops.flatMap (LogicalOp.entries s)).length = 27 + 2 * bytesPerPixel s.geom.fmt + 1 ∧
    let visible := 0 ≤ x.toInt ∧ x.toInt < s.geom.width.toNat ∧ 0 ≤ y.toInt ∧ y.toInt < s.geom.height.toNat
    (visible → s.busDriven = true →
      Sends (.drawPixel x y color) s 9 ops) ∧
    (visible → s.busDriven = false → TakesHazard (.drawPixel x y color) s) ∧
    (¬visible → SucceedsWithoutStore (.drawPixel x y color) s 9)

/-- FILL_RECT: the window of the clipped rectangle and one burst of its pixel count of the colour's bytes; the
burst has the pixel count times the bytes per pixel; clipped to nothing it succeeds without a store (R213,
R206). -/
def Obligations.FillRectFillsTheClippedRectangle : Prop :=
  ∀ (s : State) (x y w h : Half) (color : Word), s.fault = none →
    (∃ c3 c2 c1 c0 : Byte, color = wordOf c3 c2 c1 c0 ∧
      encode (.fillRect x y w h color) = .frame [0x08, hiByte x, loByte x, hiByte y, loByte y, hiByte w, loByte w,
        hiByte h, loByte h, c3, c2, c1, c0]) ∧
    (clip s.geom x.toInt y.toInt w.toNat h.toNat = none → SucceedsWithoutStore (.fillRect x y w h color) s 13) ∧
    ∀ box, clip s.geom x.toInt y.toInt w.toNat h.toNat = some box →
      let pixels := (box.x1 - box.x0 + 1).toNat * (box.y1 - box.y0 + 1).toNat
      let burst := (List.replicate pixels (pack s.geom.fmt color)).flatten
      let ops := windowLogicalOps (BitVec.ofInt 16 box.x0) (BitVec.ofInt 16 box.y0) (BitVec.ofInt 16 box.x1)
        (BitVec.ofInt 16 box.y1) ++ [.burst burst]
      burst.length = pixels * bytesPerPixel s.geom.fmt ∧
      (ops.flatMap (LogicalOp.entries s)).length = 27 + 2 * bytesPerPixel s.geom.fmt * pixels + 1 ∧
      (s.busDriven = true → Sends (.fillRect x y w h color) s 13 ops) ∧
      (s.busDriven = false → TakesHazard (.fillRect x y w h color) s)

/-- The source's fill scenario: a 10 by 10 fill with 0xF800 in 16-bit (R214). -/
def Obligations.FillScenarioEmitsAHundredPixels : Prop :=
  ∀ s : State, s.fault = none → s.busDriven = true → s.geom.fmt = .bpp16 →
    10 ≤ s.geom.width.toNat → 10 ≤ s.geom.height.toNat →
    Sends (.fillRect 0 0 10 10 0xF800) s 13
      (windowLogicalOps 0 0 9 9 ++ [.burst (List.replicate 100 [0xF8, 0x00]).flatten])

/-! ### Rotation and scrolling (43_controller_commands.md) -/

/-- SET_ROTATION: MADCTL with the profile's byte, the exchange of width and height when the parity changes,
ProtocolPrecondition above 3 whatever the pins (R242, R243). -/
def Obligations.SetRotationRotates : Prop :=
  ∀ (s : State) (r : Byte), encode (.setRotation r) = .frame [0x0A, r] ∧
    (s.fault = none → 3 < r.toNat → EndsWithPrecondition (.setRotation r) s 2) ∧
    (s.fault = none → ∀ k : Fin 4, k.val = r.toNat →
      let swapped := k.val % 2 ≠ s.geom.rotation.val % 2
      let geom : Geometry :=
        { fmt := s.geom.fmt, rotation := k,
          width := if swapped then s.geom.height else s.geom.width,
          height := if swapped then s.geom.width else s.geom.height }
      let ops : List LogicalOp := [.command 0x36, .burst [s.params.rotMadctl[k]]]
      (s.busDriven = true → ∃ events,
        exec (.setRotation r) s =
          .next (({ s with geom := geom }.afterOps ops events).completed 2 .ok .none) ∧
        (s.Ready → events = opEvents ops)) ∧
      (s.busDriven = false → TakesHazard (.setRotation r) s))

/-- Four calls 1, 2, 3, 0 from rotation 0 restore the geometry and send MADCTL for rotation 0 last; and any call
with r = 0 restores the native size wherever the size follows the rotation (R244, R41). -/
def Obligations.FourRotationsRestoreTheGeometry : Prop :=
  (∀ s : State, s.Ready → s.geom.rotation = 0 → ∃ a b c d : State,
    exec (.setRotation 1) s = .next a ∧ exec (.setRotation 2) a = .next b ∧
    exec (.setRotation 3) b = .next c ∧ exec (.setRotation 0) c = .next d ∧
    d.geom = s.geom ∧
    d.bus = s.bus ++ opEvents [.command 0x36, .burst [s.params.rotMadctl[1]], .command 0x36,
      .burst [s.params.rotMadctl[2]], .command 0x36, .burst [s.params.rotMadctl[3]], .command 0x36,
      .burst [s.params.rotMadctl[0]]]) ∧
  ∀ s t : State, s.Inv → s.busDriven = true → exec (.setRotation 0) s = .next t →
    t.geom.rotation = 0 ∧ t.geom.width = s.params.nativeW ∧ t.geom.height = s.params.nativeH

/-- SET_SCROLL_AREA: command 0x33 and six bytes, 16 stores, if the exact sum is P_SCROLL_ROWS, else
ProtocolPrecondition whatever the pins (R246). -/
def Obligations.SetScrollAreaChecksTheRowSum : Prop :=
  ∀ (s : State) (tfa vsa bfa : Half),
    encode (.setScrollArea tfa vsa bfa) = .frame [0x0B, hiByte tfa, loByte tfa, hiByte vsa, loByte vsa,
      hiByte bfa, loByte bfa] ∧
    (let matches_ := tfa.toNat + vsa.toNat + bfa.toNat = s.params.scrollRows.toNat
     let ops : List LogicalOp := [.command 0x33,
       .burst [hiByte tfa, loByte tfa, hiByte vsa, loByte vsa, hiByte bfa, loByte bfa]]
     (s.fault = none → ¬matches_ → EndsWithPrecondition (.setScrollArea tfa vsa bfa) s 7) ∧
     (s.fault = none → matches_ → s.busDriven = true → Sends (.setScrollArea tfa vsa bfa) s 7 ops) ∧
     (ops.flatMap (LogicalOp.entries s)).length = 16 ∧
     (s.fault = none → matches_ → s.busDriven = false → TakesHazard (.setScrollArea tfa vsa bfa) s))

/-- SET_SCROLL_START: command 0x37 and two bytes, 8 stores, unchecked (R248). -/
def Obligations.SetScrollStartSendsTheStartRow : Prop :=
  ∀ (s : State) (vsp : Half), encode (.setScrollStart vsp) = .frame [0x0C, hiByte vsp, loByte vsp] ∧
    (let ops : List LogicalOp := [.command 0x37, .burst [hiByte vsp, loByte vsp]]
     (s.fault = none → s.busDriven = true → Sends (.setScrollStart vsp) s 3 ops) ∧
     (ops.flatMap (LogicalOp.entries s)).length = 8 ∧
     (s.fault = none → s.busDriven = false → TakesHazard (.setScrollStart vsp) s))

/-! ### Touch (44_touch.md) -/

/-- TOUCH_SET_CAL replaces the calibration and keeps sum_prev, or ends with ProtocolPrecondition (R302). -/
def Obligations.TouchSetCalReplacesTheCalibration : Prop :=
  ∀ (s : State) (xmin xmax : Half) (xdir : Byte) (ymin ymax : Half) (ydir : Byte), s.fault = none →
    let i := Instr.touchSetCal xmin xmax xdir ymin ymax ydir
    encode i = .frame [0x10, hiByte xmin, loByte xmin, hiByte xmax, loByte xmax, xdir, hiByte ymin, loByte ymin,
      hiByte ymax, loByte ymax, ydir] ∧
    (∀ dx dy : Fin 4, dx.val = xdir.toNat → dy.val = ydir.toNat → xmin.toNat < xmax.toNat →
      ymin.toNat < ymax.toNat →
      exec i s = .next ({ s with touch := { s.touch with
          calX := { min := xmin, max := xmax, dir := dx },
          calY := { min := ymin, max := ymax, dir := dy } } }.completed 11 .ok .none)) ∧
    (3 < xdir.toNat ∨ 3 < ydir.toNat ∨ xmax.toNat ≤ xmin.toNat ∨ ymax.toNat ≤ ymin.toNat →
      EndsWithPrecondition i s 11)

/-- TOUCH_SET_AUTOCAL takes bit 0 of its operand (R303); TOUCH_GET_CAL reports the six fields (R304). -/
def Obligations.TouchAutocalAndReadBack : Prop :=
  (∀ (s : State) (en : Byte), encode (.touchSetAutocal en) = .frame [0x11, en] ∧
    (s.fault = none → exec (.touchSetAutocal en) s =
      .next ({ s with touch := { s.touch with autocal := decide (en.toNat % 2 = 1) } }.completed 2 .ok .none))) ∧
  encode .touchGetCal = .frame [0x12] ∧
  ∀ s : State, s.fault = none → ∃ xd yd : Byte,
    xd.toNat = s.touch.calX.dir.val ∧ yd.toNat = s.touch.calY.dir.val ∧
    exec .touchGetCal s = .next (s.completed 1 .ok
      (.calibration s.touch.calX.min s.touch.calX.max xd s.touch.calY.min s.touch.calY.max yd))

/-- TOUCH_SAMPLE always completes; it writes the sampler, the shared pins' modes and OUT bits and the two input
counters, makes no store, and reports a reject reason 1 to 3 with (0, 0) or an acceptance (R297, R300, R305).
The claim holds for every value of the free readings (logs 7, 8); that the drawn OUT bits
add no event but R300's Indeterminate is the model's reading (log 18). -/
def Obligations.TouchSampleCompletesAndFrames : Prop :=
  encode .touchSample = .frame [0x13] ∧
  ∀ s : State, s.fault = none →
    ∃ (touch : TouchState) (out : Word) (pinMode : Vector PinMode 32) (events : List BusEvent)
      (adcIn : List Half) (draws : Nat) (accepted reason : Byte) (x y : Half),
      exec .touchSample s = .next ({ s with
        touch := touch, out := out, pinMode := pinMode, bus := s.bus ++ events, adcIn := adcIn,
        draws := draws }.completed 1 .ok (.sample accepted reason x y)) ∧
      touch.phase = .idle ∧ touch.autocal = s.touch.autocal ∧
      (∀ q, (sharedMask s.params).getLsbD q = false →
        out.getLsbD q = s.out.getLsbD q ∧ modeAt pinMode q = modeAt s.pinMode q) ∧
      (s.params.restoresPins = true → out = s.out) ∧
      (∀ q, (sharedMask s.params).getLsbD q = true →
        modeAt pinMode q = if s.params.restoresPins then .output else .released) ∧
      events = (if sharesStrobe s.params then [.indeterminate] else []) ∧
      ((accepted = 1 ∧ reason = 0) ∨
        (accepted = 0 ∧ (reason = 1 ∨ reason = 2 ∨ reason = 3) ∧ x = 0 ∧ y = 0 ∧
          touch.calX = s.touch.calX ∧ touch.calY = s.touch.calY))

/-- The sample procedure on the readings the environment gives: NoPress, Range, Noise or Accept, and what each
leaves in sum_prev and the calibration (R286, R289, R293, R295, R296, R298); and
the one law of the orientation: directions 0 and 0 at rotation 0 give the point itself (R292). -/
def Obligations.SampleFollowsItsChecks : Prop :=
  (∀ (s t : State) (zs xs ys more : List Half), s.fault = none →
    zs.length = s.params.pressReads → xs.length = s.params.touchN → ys.length = s.params.touchN →
    s.adcIn = zs ++ xs ++ ys ++ more → exec .touchSample s = .next t →
    let rx := median xs
    let ry := median ys
    let inRange := s.touch.calX.min.toNat < rx.toNat ∧ rx.toNat < s.touch.calX.max.toNat ∧
      s.touch.calY.min.toNat < ry.toNat ∧ ry.toNat < s.touch.calY.max.toNat
    let sum := rx.toNat + ry.toNat
    let steady := ∃ prev, s.touch.sumPrev = some prev ∧ |(sum : Int) - prev| < s.params.noiseTh
    let answers := fun r : Results => t.responses = s.responses ++ [{ status := .ok, results := r }]
    (pressureOf s.params zs < s.params.pressTh →
      answers (.sample 0 1 0 0) ∧ t.adcIn = xs ++ ys ++ more ∧ t.touch = { s.touch with phase := .idle }) ∧
    (s.params.pressTh ≤ pressureOf s.params zs → s.touch.autocal = false → ¬inRange →
      answers (.sample 0 2 0 0) ∧ t.adcIn = more ∧ t.touch = { s.touch with phase := .idle }) ∧
    (s.params.pressTh ≤ pressureOf s.params zs → s.touch.autocal = true ∨ inRange → ¬steady →
      answers (.sample 0 3 0 0) ∧ t.adcIn = more ∧
      t.touch = { s.touch with sumPrev := some sum, phase := .idle }) ∧
    (s.params.pressTh ≤ pressureOf s.params zs → s.touch.autocal = true ∨ inRange → steady →
      t.adcIn = more ∧ t.touch.sumPrev = some sum ∧
      (s.touch.autocal = false → t.touch.calX = s.touch.calX ∧ t.touch.calY = s.touch.calY) ∧
      (s.touch.autocal = true →
        t.touch.calX.min.toNat = min s.touch.calX.min.toNat rx.toNat ∧
        t.touch.calX.max.toNat = max s.touch.calX.max.toNat rx.toNat ∧
        t.touch.calY.min.toNat = min s.touch.calY.min.toNat ry.toNat ∧
        t.touch.calY.max.toNat = max s.touch.calY.max.toNat ry.toNat) ∧
      ∃ x y, answers (.sample 1 0 x y) ∧
        (x, y) = orientOf s.params s.touch.calX.dir s.touch.calY.dir s.geom.rotation
          (axisPixel t.touch.calX s.params.nativeW rx) (axisPixel t.touch.calY s.params.nativeH ry))) ∧
  ∀ (p : Params) (px py : Int), -32768 ≤ px → px ≤ 32767 → -32768 ≤ py → py ≤ 32767 →
    orientOf p 0 0 0 px py = (BitVec.ofInt 16 px, BitVec.ofInt 16 py)

/-- The median is the element at index floor(N/2) of the readings sorted ascending (R287). -/
def Obligations.MedianIsTheUpperMiddleElement : Prop :=
  ∀ l : List Half, l ≠ [] →
    ∃ sorted : List Half, sorted.Perm l ∧ sorted.Pairwise (fun a b => a.toNat ≤ b.toNat) ∧
      sorted[l.length / 2]? = some (median l)

/-- The calibration transform is the linear map of R290 and R291, floored; inside the range it is a pixel of the
screen. -/
def Obligations.CalibrationTransformIsLinear : Prop :=
  ∀ (c : AxisCal) (size r : Half), c.min.toNat < c.max.toNat → 0 < size.toNat →
    let coef : ℚ := ((c.max.toNat : ℚ) - c.min.toNat) / size.toNat
    let corr : ℚ := c.min.toNat / coef
    axisPixel c size r = ⌊(r.toNat : ℚ) / coef - corr⌋ ∧
    axisPixel c size c.min = 0 ∧ axisPixel c size c.max = size.toNat ∧
    (c.min.toNat ≤ r.toNat → r.toNat ≤ c.max.toNat → 0 ≤ axisPixel c size r ∧ axisPixel c size r ≤ size.toNat) ∧
    (c.min.toNat < r.toNat → r.toNat < c.max.toNat → 0 ≤ axisPixel c size r ∧ axisPixel c size r < size.toNat)

/-- Auto-calibration only widens, and without it no touch request but TOUCH_SET_CAL changes the calibration
(R293, R302). -/
def Obligations.AutocalibrationNeverShrinks : Prop :=
  ∀ (s t : State) (i : Instr), samplesTouch i = true → exec i s = .next t →
    t.touch.calX.min.toNat ≤ s.touch.calX.min.toNat ∧ s.touch.calX.max.toNat ≤ t.touch.calX.max.toNat ∧
    t.touch.calY.min.toNat ≤ s.touch.calY.min.toNat ∧ s.touch.calY.max.toNat ≤ t.touch.calY.max.toNat ∧
    t.touch.calX.dir = s.touch.calX.dir ∧ t.touch.calY.dir = s.touch.calY.dir ∧
    (s.touch.autocal = false → t.touch.calX = s.touch.calX ∧ t.touch.calY = s.touch.calY)

/-- One TOUCH_LISTEN step makes the pass TOUCH_SAMPLE makes: an accepted point on the screen completes the
request, anything else leaves it at pc for the next iteration; it never stores and never ends otherwise (R307,
R308). That each iteration appends R300's Indeterminate, and the drawn OUT bits add no other event, is the
model's reading (logs 18, 29). -/
def Obligations.TouchListenAcceptsOnScreenPoints : Prop :=
  (∀ d3 d2 d1 d0 : Byte, encode (.touchListen (wordOf d3 d2 d1 d0)) = .frame [0x14, d3, d2, d1, d0] ∧
    (wordOf d3 d2 d1 d0).toNat = d3.toNat * 2 ^ 24 + d2.toNat * 2 ^ 16 + d1.toNat * 2 ^ 8 + d0.toNat) ∧
  ∀ (s : State) (delay : Word), s.fault = none →
    ∃ t u : State, exec (.touchListen delay) s = .next t ∧ exec .touchSample s = .next u ∧
      t.stores = s.stores ∧ t.fault = none ∧
      t = { u with touch := t.touch, pc := t.pc, responses := t.responses } ∧
      { t.touch with phase := .idle } = u.touch ∧
      (∀ x y : Half, u.responses = s.responses ++ [{ status := .ok, results := .sample 1 0 x y }] →
        onScreen s.geom x.toInt y.toInt = true →
        t.pc = s.pc + 5 ∧ t.touch.phase = .idle ∧
        t.responses = s.responses ++ [{ status := .ok, results := .point x y }]) ∧
      ((¬∃ x y : Half, u.responses = s.responses ++ [{ status := .ok, results := .sample 1 0 x y }] ∧
        onScreen s.geom x.toInt y.toInt = true) →
        t.pc = s.pc ∧ t.responses = s.responses)

/-- The source's touch scenario: raw (30000, 30000) under calibration X = [8000, 56000, 0], Y = [8000, 58000, 0]
on a 240 by 320 screen gives (110, 140) to TOUCH_SAMPLE and completes TOUCH_LISTEN there, when the pressure
and the noise check pass (R309, R307). -/
def Obligations.TouchScenarioGivesTheLinearPoint : Prop :=
  ∀ (s : State) (zs more : List Half), s.fault = none → zs.length = s.params.pressReads →
    0 < s.params.touchN →
    s.adcIn = zs ++ List.replicate s.params.touchN 30000 ++ List.replicate s.params.touchN 30000 ++ more →
    s.params.pressTh ≤ pressureOf s.params zs → 1 ≤ s.params.noiseTh → s.touch.sumPrev = some 60000 →
    s.touch.calX = { min := 8000, max := 56000, dir := 0 } →
    s.touch.calY = { min := 8000, max := 58000, dir := 0 } →
    s.geom.rotation = 0 → s.params.nativeW = 240 → s.params.nativeH = 320 →
    (∃ t, exec .touchSample s = .next t ∧
      t.responses = s.responses ++ [{ status := .ok, results := .sample 1 0 110 140 }] ∧ t.pc = s.pc + 1) ∧
    ∀ delay, s.geom.width = 240 → s.geom.height = 320 →
      ∃ t, exec (.touchListen delay) s = .next t ∧
        t.responses = s.responses ++ [{ status := .ok, results := .point 110 140 }] ∧ t.pc = s.pc + 5

/-- After a touch request whose pins are shared and not restored, every instruction that stores takes
PinModeHazard (R301). For the bus words, of which R301 does not speak, the guard is the model's choice
(logs 3, 5). -/
def Obligations.SharedTouchPinsBlockTheBus : Prop :=
  ∀ (s t : State) (i j : Instr), s.Inv → s.params.restoresPins = false → sharedMask s.params ≠ 0#32 →
    samplesTouch i = true → exec i s = .next t → storesGpio t j = true → TakesHazard j t

/-! ### Outcomes (60_exceptions.md) -/

/-- A request that ends with an error status changes nothing but the response log and pc (R333). -/
def Obligations.ErrorStatusChangesOnlyTheLogAndPc : Prop :=
  ∀ (s t : State) (i : Instr) (r : Response), exec i s = .next t → t.responses = s.responses ++ [r] →
    r.status ≠ .ok →
    r.status = .protocolPrecondition ∧ r.results = .none ∧
    t = { s with responses := s.responses ++ [r], pc := s.pc + frameLength i }

/-- Every request runs to one of the three outcomes: success or ProtocolPrecondition, with its record and pc past
the frame, or PinModeHazard with nothing else changed; only three requests can report ProtocolPrecondition.
TOUCH_LISTEN may also stay (R330, R332). -/
def Obligations.RequestsEndInOneOfThreeOutcomes : Prop :=
  ∀ (s : State) (i : Instr), s.fault = none → isBusInstr i = false → (∀ delay, i ≠ .touchListen delay) →
    ∃ t, exec i s = .next t ∧
      (t = { s with fault := some .pinModeHazard } ∨
        (t.fault = none ∧ t.pc = s.pc + frameLength i ∧
          ∃ r : Response, t.responses = s.responses ++ [r] ∧
            (r.status = .ok ∨ (r.status = .protocolPrecondition ∧ mayFailPrecondition i = true))))

/-! ### Bus words (30_encoding.md R109, R110), run through the model's port (logs 3 to 5) -/

/-- Each command bus word, the fifteen named ones and every other byte, is one command cycle closed by the release
of CS, and leaves the port; it makes no record and leaves pc (R165, R170). It does to OUT, the traces and the
fault what WRITE_COMMAND of its byte does, by which the rules send it (R255 to R270). The port, the guard, the
record and the release are the model's choice (logs 3 to 5). -/
def Obligations.CommandWordsSendTheirByte : Prop :=
  ∀ (s : State) (i : Instr) (c : Byte), busCommandByte i = some c → s.fault = none →
    encode i = .busWord (c.setWidth 9) ∧
    (s.busDriven = true → ∃ events,
      exec i s = .next { s.afterOps [.command c] events with busQueue := s.busQueue.tail } ∧
      (s.Ready → events = opEvents [.command c])) ∧
    (s.busDriven = false → TakesHazard i s) ∧
    ∀ t u, exec i s = .next t → exec (.writeCommand c) s = .next u →
      t.out = u.out ∧ t.stores = u.stores ∧ t.bus = u.bus ∧ t.fault = u.fault

/-- A data bus word is one data cycle; CS is released after it unless a data word follows at the port (R166, R170;
the port is the model's choice, logs 3 to 5). -/
def Obligations.DataWordsSendTheirByte : Prop :=
  ∀ (s : State) (d : Byte), s.fault = none →
    let goesOn := ∃ w ws, s.busQueue.tail = w :: ws ∧ w.getLsbD 8 = true
    (s.busDriven = true → ¬goesOn → ∃ events,
      exec (.busData d) s = .next { s.afterOps [.burst [d]] events with busQueue := s.busQueue.tail } ∧
      (s.Ready → events = opEvents [.burst [d]])) ∧
    (s.busDriven = true → goesOn → ∃ events,
      exec (.busData d) s = .next { s with
        out := lutAt s.lut d ||| bit s.cfg.pins.wr
        stores := s.stores ++ [(s.cfg.outAddr, lutAt s.lut d), (s.cfg.setAddr, bit s.cfg.pins.wr)]
        bus := s.bus ++ events
        busQueue := s.busQueue.tail } ∧
      (s.Ready → events = [.csBegin, .data d])) ∧
    (s.busDriven = false → TakesHazard (.busData d) s)

/-- Data words sent through the port, one step each, make the stores and the bus trace of one burst of their
bytes: the port refines WRITE_DATA_BURST's body (R176). All of it is about the model's port: one word
a step, CS released at the end, no record, pc kept (logs 3 to 5). -/
def Obligations.PortBurstRefinesWriteDataBurst : Prop :=
  ∀ (s : State) (bs : List Byte), s.Ready → s.schedule = [] → bs ≠ [] → s.busQueue = bs.map dataWord →
    s.after bs.length = some { s.afterOps [.burst bs] (opEvents [.burst bs]) with busQueue := [] }

/-! ### The host and the environment (60_exceptions.md R356, R357) -/

/-- PIN_RESTORE, EXT_OUT and sending frames: their effects between requests, without a store; their premises;
and during a request all three are refused (R356). DELAY changes nothing (R352). The schedule, and what counts as
during a request, are the model's choice (logs 6, 22). -/
def Obligations.HostActionsBetweenRequests : Prop :=
  (∀ (s : State) (turns : List Turn), s.inProgress = false →
    (∀ bytes, s.schedule = .host (.sendFrames bytes) :: turns →
      step s = .next { s with schedule := turns, stream := s.stream ++ bytes }) ∧
    (∀ v, s.schedule = .host (.pinRestore v) :: turns →
      v.getLsbD s.cfg.pins.cs = true → v.getLsbD s.cfg.pins.wr = true → v.getLsbD s.cfg.pins.rd = true →
      v.getLsbD s.cfg.pins.rst = true →
      ∃ pinMode, step s = .next { s with
          schedule := turns
          out := (s.out &&& ~~~(busMask s.cfg.pins)) ||| (v &&& busMask s.cfg.pins)
          pinMode := pinMode
          bus := s.bus ++ busEvents s.cfg.pins s.out
            ((s.out &&& ~~~(busMask s.cfg.pins)) ||| (v &&& busMask s.cfg.pins)) } ∧
        (∀ q, (busMask s.cfg.pins).getLsbD q = true → modeAt pinMode q = .output) ∧
        ∀ q, (busMask s.cfg.pins).getLsbD q = false → modeAt pinMode q = modeAt s.pinMode q) ∧
    (∀ v, s.schedule = .host (.pinRestore v) :: turns → PinsValid s.cfg.pins →
      v.getLsbD s.cfg.pins.cs = false ∨ v.getLsbD s.cfg.pins.wr = false ∨ v.getLsbD s.cfg.pins.rd = false ∨
        v.getLsbD s.cfg.pins.rst = false →
      step s = .refused .pinRestorePremise) ∧
    (∀ m v, s.schedule = .host (.extOut m v) :: turns → m &&& busMask s.cfg.pins = 0#32 →
      PinsValid s.cfg.pins →
      step s = .next { s with schedule := turns, out := (s.out &&& ~~~m) ||| (v &&& m) }) ∧
    (∀ m v, s.schedule = .host (.extOut m v) :: turns → m &&& busMask s.cfg.pins ≠ 0#32 →
      step s = .refused .extOutPremise)) ∧
  (∀ (s : State) (turns : List Turn) (a : HostAction), s.inProgress = true → s.schedule = .host a :: turns →
    (∃ bytes, a = .sendFrames bytes) ∨ (∃ v, a = .pinRestore v) ∨ (∃ m v, a = .extOut m v) →
    step s = .refused .hostDuringRequest) ∧
  ∀ (s : State) (turns : List Turn) (ms : Nat), s.schedule = .host (.delay ms) :: turns →
    step s = .next { s with schedule := turns }

/-- PLATFORM_RESET constructs the block again with the same parameters at any point, also while a fault is set
(R357, R370). Of the run it ends it keeps the observation: the stores with those already made of the move that was
due, and their events, with Indeterminate at the end exactly if CS is low after them, so inside a logical operation
(R163, R170): from a ready state not after whole operations, and always inside one. That CS low, with a store made
or a word waiting, marks the inside of an operation, and what else survives, are the model's choice (logs 13, 14). -/
def Obligations.PlatformResetConstructsAgain : Prop :=
  ∀ (s : State) (made : Nat) (env : ResetEnv) (turns : List Turn),
    s.schedule = .host (.platformReset made env) :: turns →
    ∃ t ended, step s = .next t ∧
      t = { construct s.params env with
        schedule := turns, past := s.past ++ [ended], adcIn := s.adcIn, draws := s.draws } ∧
      ended.responses = s.responses ∧
      ∀ due : List GpioStore,
        (∃ u, ownMove { s with schedule := turns } = .next u ∧
            u.stores = s.stores ++ due.map (GpioStore.entry s.cfg)) ∨
          ((∀ u, ownMove { s with schedule := turns } ≠ .next u) ∧ due = []) →
        due = [] ∨ s.cfg.outAddr ≠ s.cfg.setAddr →
        let done := due.take made
        let low := (outAfter s.out done).getLsbD s.cfg.pins.cs = false
        ended.stores = s.stores ++ done.map (GpioStore.entry s.cfg) ∧
        ended.bus = s.bus ++ traceOf s.cfg.pins s.out done ++
          (if low ∧ (done ≠ [] ∨ s.busQueue ≠ []) then [.indeterminate] else []) ∧
        (s.Ready → ∀ ops : List LogicalOp, .burst [] ∉ ops →
          (done.map (GpioStore.entry s.cfg) = ops.flatMap (LogicalOp.entries s) →
            ended.bus = s.bus ++ opEvents ops) ∧
          ∀ (op : LogicalOp) (part : List (Nat × Word)), op ≠ .burst [] → part ≠ [] → part <+: op.entries s →
            part ≠ op.entries s → done.map (GpioStore.entry s.cfg) = ops.flatMap (LogicalOp.entries s) ++ part →
            ended.bus.getLast? = some .indeterminate)

/-! ### GPIO accesses (20_memory.md) -/

/-- The only accesses are the 4-byte read of OUT and the 4-byte writes of OUT and SET: a write of OUT replaces it,
a write of SET ORs into it; every other access is refused (R72, R73, R74, R75). -/
def Obligations.OnlyTheGpioRegistersAreReachable : Prop :=
  ∀ (s : State) (addr width : Nat) (v : Word), s.cfg.outAddr ≠ s.cfg.setAddr →
    memRead s s.cfg.outAddr 4 = .ok s.out ∧
    (¬(addr = s.cfg.outAddr ∧ width = 4) → memRead s addr width = .error .gpioAccess) ∧
    memWrite s s.cfg.outAddr 4 v = .ok { s with
      out := v, stores := s.stores ++ [(s.cfg.outAddr, v)], bus := s.bus ++ busEvents s.cfg.pins s.out v } ∧
    memWrite s s.cfg.setAddr 4 v = .ok { s with
      out := s.out ||| v, stores := s.stores ++ [(s.cfg.setAddr, v)],
      bus := s.bus ++ busEvents s.cfg.pins s.out (s.out ||| v) } ∧
    (¬((addr = s.cfg.outAddr ∨ addr = s.cfg.setAddr) ∧ width = 4) →
      memWrite s addr width v = .error .gpioAccess)
end

