-- ==== Sys2Proof/Laws/State.lean ====
section
/-! SUPPORT. One lemma per field and update of the shared operations on the state, true by rfl, so that no
later proof unfolds a record update. -/

namespace Sys2Proof.Machine

/-! ### `State.perform` -/

@[simp] theorem State.perform_cfg (s : State) (l : List GpioStore) :
    (s.perform l).cfg = s.cfg := rfl
@[simp] theorem State.perform_out (s : State) (l : List GpioStore) :
    (s.perform l).out = outAfter s.out l := rfl
@[simp] theorem State.perform_lut (s : State) (l : List GpioStore) :
    (s.perform l).lut = s.lut := rfl
@[simp] theorem State.perform_base (s : State) (l : List GpioStore) :
    (s.perform l).base = s.base := rfl
@[simp] theorem State.perform_pinMode (s : State) (l : List GpioStore) :
    (s.perform l).pinMode = s.pinMode := rfl
@[simp] theorem State.perform_geom (s : State) (l : List GpioStore) :
    (s.perform l).geom = s.geom := rfl
@[simp] theorem State.perform_touch (s : State) (l : List GpioStore) :
    (s.perform l).touch = s.touch := rfl
@[simp] theorem State.perform_pc (s : State) (l : List GpioStore) :
    (s.perform l).pc = s.pc := rfl
@[simp] theorem State.perform_fault (s : State) (l : List GpioStore) :
    (s.perform l).fault = s.fault := rfl
@[simp] theorem State.perform_responses (s : State) (l : List GpioStore) :
    (s.perform l).responses = s.responses := rfl
@[simp] theorem State.perform_stores (s : State) (l : List GpioStore) :
    (s.perform l).stores = s.stores ++ l.map (GpioStore.entry s.cfg) := rfl
@[simp] theorem State.perform_bus (s : State) (l : List GpioStore) :
    (s.perform l).bus = s.bus ++ traceOf s.cfg.pins s.out l := rfl
@[simp] theorem State.perform_stream (s : State) (l : List GpioStore) :
    (s.perform l).stream = s.stream := rfl
@[simp] theorem State.perform_params (s : State) (l : List GpioStore) :
    (s.perform l).params = s.params := rfl
@[simp] theorem State.perform_busQueue (s : State) (l : List GpioStore) :
    (s.perform l).busQueue = s.busQueue := rfl
@[simp] theorem State.perform_schedule (s : State) (l : List GpioStore) :
    (s.perform l).schedule = s.schedule := rfl
@[simp] theorem State.perform_past (s : State) (l : List GpioStore) :
    (s.perform l).past = s.past := rfl
@[simp] theorem State.perform_adcIn (s : State) (l : List GpioStore) :
    (s.perform l).adcIn = s.adcIn := rfl
@[simp] theorem State.perform_draws (s : State) (l : List GpioStore) :
    (s.perform l).draws = s.draws := rfl

/-! ### `State.complete` -/

@[simp] theorem State.complete_cfg (s : State) (i : Instr) (st : Status) (r : Results) :
    (s.complete i st r).cfg = s.cfg := rfl
@[simp] theorem State.complete_out (s : State) (i : Instr) (st : Status) (r : Results) :
    (s.complete i st r).out = s.out := rfl
@[simp] theorem State.complete_lut (s : State) (i : Instr) (st : Status) (r : Results) :
    (s.complete i st r).lut = s.lut := rfl
@[simp] theorem State.complete_base (s : State) (i : Instr) (st : Status) (r : Results) :
    (s.complete i st r).base = s.base := rfl
@[simp] theorem State.complete_pinMode (s : State) (i : Instr) (st : Status) (r : Results) :
    (s.complete i st r).pinMode = s.pinMode := rfl
@[simp] theorem State.complete_geom (s : State) (i : Instr) (st : Status) (r : Results) :
    (s.complete i st r).geom = s.geom := rfl
@[simp] theorem State.complete_touch (s : State) (i : Instr) (st : Status) (r : Results) :
    (s.complete i st r).touch = s.touch := rfl
@[simp] theorem State.complete_pc (s : State) (i : Instr) (st : Status) (r : Results) :
    (s.complete i st r).pc = s.pc + frameLength i := rfl
@[simp] theorem State.complete_fault (s : State) (i : Instr) (st : Status) (r : Results) :
    (s.complete i st r).fault = s.fault := rfl
@[simp] theorem State.complete_responses (s : State) (i : Instr) (st : Status) (r : Results) :
    (s.complete i st r).responses = s.responses ++ [{ status := st, results := r }] := rfl
@[simp] theorem State.complete_stores (s : State) (i : Instr) (st : Status) (r : Results) :
    (s.complete i st r).stores = s.stores := rfl
@[simp] theorem State.complete_bus (s : State) (i : Instr) (st : Status) (r : Results) :
    (s.complete i st r).bus = s.bus := rfl
@[simp] theorem State.complete_stream (s : State) (i : Instr) (st : Status) (r : Results) :
    (s.complete i st r).stream = s.stream := rfl
@[simp] theorem State.complete_params (s : State) (i : Instr) (st : Status) (r : Results) :
    (s.complete i st r).params = s.params := rfl
@[simp] theorem State.complete_busQueue (s : State) (i : Instr) (st : Status) (r : Results) :
    (s.complete i st r).busQueue = s.busQueue := rfl
@[simp] theorem State.complete_schedule (s : State) (i : Instr) (st : Status) (r : Results) :
    (s.complete i st r).schedule = s.schedule := rfl
@[simp] theorem State.complete_past (s : State) (i : Instr) (st : Status) (r : Results) :
    (s.complete i st r).past = s.past := rfl
@[simp] theorem State.complete_adcIn (s : State) (i : Instr) (st : Status) (r : Results) :
    (s.complete i st r).adcIn = s.adcIn := rfl
@[simp] theorem State.complete_draws (s : State) (i : Instr) (st : Status) (r : Results) :
    (s.complete i st r).draws = s.draws := rfl

/-! ### `State.completed` -/

@[simp] theorem State.completed_cfg (s : State) (n : Nat) (st : Status) (r : Results) :
    (s.completed n st r).cfg = s.cfg := rfl
@[simp] theorem State.completed_out (s : State) (n : Nat) (st : Status) (r : Results) :
    (s.completed n st r).out = s.out := rfl
@[simp] theorem State.completed_lut (s : State) (n : Nat) (st : Status) (r : Results) :
    (s.completed n st r).lut = s.lut := rfl
@[simp] theorem State.completed_base (s : State) (n : Nat) (st : Status) (r : Results) :
    (s.completed n st r).base = s.base := rfl
@[simp] theorem State.completed_pinMode (s : State) (n : Nat) (st : Status) (r : Results) :
    (s.completed n st r).pinMode = s.pinMode := rfl
@[simp] theorem State.completed_geom (s : State) (n : Nat) (st : Status) (r : Results) :
    (s.completed n st r).geom = s.geom := rfl
@[simp] theorem State.completed_touch (s : State) (n : Nat) (st : Status) (r : Results) :
    (s.completed n st r).touch = s.touch := rfl
@[simp] theorem State.completed_pc (s : State) (n : Nat) (st : Status) (r : Results) :
    (s.completed n st r).pc = s.pc + n := rfl
@[simp] theorem State.completed_fault (s : State) (n : Nat) (st : Status) (r : Results) :
    (s.completed n st r).fault = s.fault := rfl
@[simp] theorem State.completed_responses (s : State) (n : Nat) (st : Status) (r : Results) :
    (s.completed n st r).responses = s.responses ++ [{ status := st, results := r }] := rfl
@[simp] theorem State.completed_stores (s : State) (n : Nat) (st : Status) (r : Results) :
    (s.completed n st r).stores = s.stores := rfl
@[simp] theorem State.completed_bus (s : State) (n : Nat) (st : Status) (r : Results) :
    (s.completed n st r).bus = s.bus := rfl
@[simp] theorem State.completed_stream (s : State) (n : Nat) (st : Status) (r : Results) :
    (s.completed n st r).stream = s.stream := rfl
@[simp] theorem State.completed_params (s : State) (n : Nat) (st : Status) (r : Results) :
    (s.completed n st r).params = s.params := rfl
@[simp] theorem State.completed_busQueue (s : State) (n : Nat) (st : Status) (r : Results) :
    (s.completed n st r).busQueue = s.busQueue := rfl
@[simp] theorem State.completed_schedule (s : State) (n : Nat) (st : Status) (r : Results) :
    (s.completed n st r).schedule = s.schedule := rfl
@[simp] theorem State.completed_past (s : State) (n : Nat) (st : Status) (r : Results) :
    (s.completed n st r).past = s.past := rfl
@[simp] theorem State.completed_adcIn (s : State) (n : Nat) (st : Status) (r : Results) :
    (s.completed n st r).adcIn = s.adcIn := rfl
@[simp] theorem State.completed_draws (s : State) (n : Nat) (st : Status) (r : Results) :
    (s.completed n st r).draws = s.draws := rfl

/-! ### `State.takeFault` -/

@[simp] theorem State.takeFault_cfg (s : State) (c : FaultCode) :
    (s.takeFault c).cfg = s.cfg := rfl
@[simp] theorem State.takeFault_out (s : State) (c : FaultCode) :
    (s.takeFault c).out = s.out := rfl
@[simp] theorem State.takeFault_lut (s : State) (c : FaultCode) :
    (s.takeFault c).lut = s.lut := rfl
@[simp] theorem State.takeFault_base (s : State) (c : FaultCode) :
    (s.takeFault c).base = s.base := rfl
@[simp] theorem State.takeFault_pinMode (s : State) (c : FaultCode) :
    (s.takeFault c).pinMode = s.pinMode := rfl
@[simp] theorem State.takeFault_geom (s : State) (c : FaultCode) :
    (s.takeFault c).geom = s.geom := rfl
@[simp] theorem State.takeFault_touch (s : State) (c : FaultCode) :
    (s.takeFault c).touch = s.touch := rfl
@[simp] theorem State.takeFault_pc (s : State) (c : FaultCode) :
    (s.takeFault c).pc = s.pc := rfl
@[simp] theorem State.takeFault_fault (s : State) (c : FaultCode) :
    (s.takeFault c).fault = some c := rfl
@[simp] theorem State.takeFault_responses (s : State) (c : FaultCode) :
    (s.takeFault c).responses = s.responses := rfl
@[simp] theorem State.takeFault_stores (s : State) (c : FaultCode) :
    (s.takeFault c).stores = s.stores := rfl
@[simp] theorem State.takeFault_bus (s : State) (c : FaultCode) :
    (s.takeFault c).bus = s.bus := rfl
@[simp] theorem State.takeFault_stream (s : State) (c : FaultCode) :
    (s.takeFault c).stream = s.stream := rfl
@[simp] theorem State.takeFault_params (s : State) (c : FaultCode) :
    (s.takeFault c).params = s.params := rfl
@[simp] theorem State.takeFault_busQueue (s : State) (c : FaultCode) :
    (s.takeFault c).busQueue = s.busQueue := rfl
@[simp] theorem State.takeFault_schedule (s : State) (c : FaultCode) :
    (s.takeFault c).schedule = s.schedule := rfl
@[simp] theorem State.takeFault_past (s : State) (c : FaultCode) :
    (s.takeFault c).past = s.past := rfl
@[simp] theorem State.takeFault_adcIn (s : State) (c : FaultCode) :
    (s.takeFault c).adcIn = s.adcIn := rfl
@[simp] theorem State.takeFault_draws (s : State) (c : FaultCode) :
    (s.takeFault c).draws = s.draws := rfl

/-! ### `State.buildTable` -/

@[simp] theorem State.buildTable_cfg (s : State) :
    s.buildTable.cfg = s.cfg := rfl
@[simp] theorem State.buildTable_out (s : State) :
    s.buildTable.out = s.out := rfl
@[simp] theorem State.buildTable_lut (s : State) :
    s.buildTable.lut = tableOf s.cfg.pins (baseline s.cfg.pins s.out) := rfl
@[simp] theorem State.buildTable_base (s : State) :
    s.buildTable.base = baseline s.cfg.pins s.out := rfl
@[simp] theorem State.buildTable_pinMode (s : State) :
    s.buildTable.pinMode = s.pinMode := rfl
@[simp] theorem State.buildTable_geom (s : State) :
    s.buildTable.geom = s.geom := rfl
@[simp] theorem State.buildTable_touch (s : State) :
    s.buildTable.touch = s.touch := rfl
@[simp] theorem State.buildTable_pc (s : State) :
    s.buildTable.pc = s.pc := rfl
@[simp] theorem State.buildTable_fault (s : State) :
    s.buildTable.fault = s.fault := rfl
@[simp] theorem State.buildTable_responses (s : State) :
    s.buildTable.responses = s.responses := rfl
@[simp] theorem State.buildTable_stores (s : State) :
    s.buildTable.stores = s.stores := rfl
@[simp] theorem State.buildTable_bus (s : State) :
    s.buildTable.bus = s.bus := rfl
@[simp] theorem State.buildTable_stream (s : State) :
    s.buildTable.stream = s.stream := rfl
@[simp] theorem State.buildTable_params (s : State) :
    s.buildTable.params = s.params := rfl
@[simp] theorem State.buildTable_busQueue (s : State) :
    s.buildTable.busQueue = s.busQueue := rfl
@[simp] theorem State.buildTable_schedule (s : State) :
    s.buildTable.schedule = s.schedule := rfl
@[simp] theorem State.buildTable_past (s : State) :
    s.buildTable.past = s.past := rfl
@[simp] theorem State.buildTable_adcIn (s : State) :
    s.buildTable.adcIn = s.adcIn := rfl
@[simp] theorem State.buildTable_draws (s : State) :
    s.buildTable.draws = s.draws := rfl

/-! ### `State.popBusWord` -/

@[simp] theorem State.popBusWord_cfg (s : State) :
    s.popBusWord.cfg = s.cfg := rfl
@[simp] theorem State.popBusWord_out (s : State) :
    s.popBusWord.out = s.out := rfl
@[simp] theorem State.popBusWord_lut (s : State) :
    s.popBusWord.lut = s.lut := rfl
@[simp] theorem State.popBusWord_base (s : State) :
    s.popBusWord.base = s.base := rfl
@[simp] theorem State.popBusWord_pinMode (s : State) :
    s.popBusWord.pinMode = s.pinMode := rfl
@[simp] theorem State.popBusWord_geom (s : State) :
    s.popBusWord.geom = s.geom := rfl
@[simp] theorem State.popBusWord_touch (s : State) :
    s.popBusWord.touch = s.touch := rfl
@[simp] theorem State.popBusWord_pc (s : State) :
    s.popBusWord.pc = s.pc := rfl
@[simp] theorem State.popBusWord_fault (s : State) :
    s.popBusWord.fault = s.fault := rfl
@[simp] theorem State.popBusWord_responses (s : State) :
    s.popBusWord.responses = s.responses := rfl
@[simp] theorem State.popBusWord_stores (s : State) :
    s.popBusWord.stores = s.stores := rfl
@[simp] theorem State.popBusWord_bus (s : State) :
    s.popBusWord.bus = s.bus := rfl
@[simp] theorem State.popBusWord_stream (s : State) :
    s.popBusWord.stream = s.stream := rfl
@[simp] theorem State.popBusWord_params (s : State) :
    s.popBusWord.params = s.params := rfl
@[simp] theorem State.popBusWord_busQueue (s : State) :
    s.popBusWord.busQueue = s.busQueue.tail := rfl
@[simp] theorem State.popBusWord_schedule (s : State) :
    s.popBusWord.schedule = s.schedule := rfl
@[simp] theorem State.popBusWord_past (s : State) :
    s.popBusWord.past = s.past := rfl
@[simp] theorem State.popBusWord_adcIn (s : State) :
    s.popBusWord.adcIn = s.adcIn := rfl
@[simp] theorem State.popBusWord_draws (s : State) :
    s.popBusWord.draws = s.draws := rfl

/-! ### `State.setPhase` -/

@[simp] theorem State.setPhase_cfg (s : State) (ph : TouchPhase) :
    (s.setPhase ph).cfg = s.cfg := rfl
@[simp] theorem State.setPhase_out (s : State) (ph : TouchPhase) :
    (s.setPhase ph).out = s.out := rfl
@[simp] theorem State.setPhase_lut (s : State) (ph : TouchPhase) :
    (s.setPhase ph).lut = s.lut := rfl
@[simp] theorem State.setPhase_base (s : State) (ph : TouchPhase) :
    (s.setPhase ph).base = s.base := rfl
@[simp] theorem State.setPhase_pinMode (s : State) (ph : TouchPhase) :
    (s.setPhase ph).pinMode = s.pinMode := rfl
@[simp] theorem State.setPhase_geom (s : State) (ph : TouchPhase) :
    (s.setPhase ph).geom = s.geom := rfl
@[simp] theorem State.setPhase_touch (s : State) (ph : TouchPhase) :
    (s.setPhase ph).touch = { s.touch with phase := ph } := rfl
@[simp] theorem State.setPhase_pc (s : State) (ph : TouchPhase) :
    (s.setPhase ph).pc = s.pc := rfl
@[simp] theorem State.setPhase_fault (s : State) (ph : TouchPhase) :
    (s.setPhase ph).fault = s.fault := rfl
@[simp] theorem State.setPhase_responses (s : State) (ph : TouchPhase) :
    (s.setPhase ph).responses = s.responses := rfl
@[simp] theorem State.setPhase_stores (s : State) (ph : TouchPhase) :
    (s.setPhase ph).stores = s.stores := rfl
@[simp] theorem State.setPhase_bus (s : State) (ph : TouchPhase) :
    (s.setPhase ph).bus = s.bus := rfl
@[simp] theorem State.setPhase_stream (s : State) (ph : TouchPhase) :
    (s.setPhase ph).stream = s.stream := rfl
@[simp] theorem State.setPhase_params (s : State) (ph : TouchPhase) :
    (s.setPhase ph).params = s.params := rfl
@[simp] theorem State.setPhase_busQueue (s : State) (ph : TouchPhase) :
    (s.setPhase ph).busQueue = s.busQueue := rfl
@[simp] theorem State.setPhase_schedule (s : State) (ph : TouchPhase) :
    (s.setPhase ph).schedule = s.schedule := rfl
@[simp] theorem State.setPhase_past (s : State) (ph : TouchPhase) :
    (s.setPhase ph).past = s.past := rfl
@[simp] theorem State.setPhase_adcIn (s : State) (ph : TouchPhase) :
    (s.setPhase ph).adcIn = s.adcIn := rfl
@[simp] theorem State.setPhase_draws (s : State) (ph : TouchPhase) :
    (s.setPhase ph).draws = s.draws := rfl

/-! ### `State.afterOps` -/

@[simp] theorem State.afterOps_cfg (s : State) (ops : List LogicalOp) (ev : List BusEvent) :
    (s.afterOps ops ev).cfg = s.cfg := rfl
@[simp] theorem State.afterOps_out (s : State) (ops : List LogicalOp) (ev : List BusEvent) :
    (s.afterOps ops ev).out = ops.foldl (LogicalOp.outAfter s) s.out := rfl
@[simp] theorem State.afterOps_lut (s : State) (ops : List LogicalOp) (ev : List BusEvent) :
    (s.afterOps ops ev).lut = s.lut := rfl
@[simp] theorem State.afterOps_base (s : State) (ops : List LogicalOp) (ev : List BusEvent) :
    (s.afterOps ops ev).base = s.base := rfl
@[simp] theorem State.afterOps_pinMode (s : State) (ops : List LogicalOp) (ev : List BusEvent) :
    (s.afterOps ops ev).pinMode = s.pinMode := rfl
@[simp] theorem State.afterOps_geom (s : State) (ops : List LogicalOp) (ev : List BusEvent) :
    (s.afterOps ops ev).geom = s.geom := rfl
@[simp] theorem State.afterOps_touch (s : State) (ops : List LogicalOp) (ev : List BusEvent) :
    (s.afterOps ops ev).touch = s.touch := rfl
@[simp] theorem State.afterOps_pc (s : State) (ops : List LogicalOp) (ev : List BusEvent) :
    (s.afterOps ops ev).pc = s.pc := rfl
@[simp] theorem State.afterOps_fault (s : State) (ops : List LogicalOp) (ev : List BusEvent) :
    (s.afterOps ops ev).fault = s.fault := rfl
@[simp] theorem State.afterOps_responses (s : State) (ops : List LogicalOp) (ev : List BusEvent) :
    (s.afterOps ops ev).responses = s.responses := rfl
@[simp] theorem State.afterOps_stores (s : State) (ops : List LogicalOp) (ev : List BusEvent) :
    (s.afterOps ops ev).stores = s.stores ++ ops.flatMap (LogicalOp.entries s) := rfl
@[simp] theorem State.afterOps_bus (s : State) (ops : List LogicalOp) (ev : List BusEvent) :
    (s.afterOps ops ev).bus = s.bus ++ ev := rfl
@[simp] theorem State.afterOps_stream (s : State) (ops : List LogicalOp) (ev : List BusEvent) :
    (s.afterOps ops ev).stream = s.stream := rfl
@[simp] theorem State.afterOps_params (s : State) (ops : List LogicalOp) (ev : List BusEvent) :
    (s.afterOps ops ev).params = s.params := rfl
@[simp] theorem State.afterOps_busQueue (s : State) (ops : List LogicalOp) (ev : List BusEvent) :
    (s.afterOps ops ev).busQueue = s.busQueue := rfl
@[simp] theorem State.afterOps_schedule (s : State) (ops : List LogicalOp) (ev : List BusEvent) :
    (s.afterOps ops ev).schedule = s.schedule := rfl
@[simp] theorem State.afterOps_past (s : State) (ops : List LogicalOp) (ev : List BusEvent) :
    (s.afterOps ops ev).past = s.past := rfl
@[simp] theorem State.afterOps_adcIn (s : State) (ops : List LogicalOp) (ev : List BusEvent) :
    (s.afterOps ops ev).adcIn = s.adcIn := rfl
@[simp] theorem State.afterOps_draws (s : State) (ops : List LogicalOp) (ev : List BusEvent) :
    (s.afterOps ops ev).draws = s.draws := rfl

/-! ### `State.hostOut` -/

@[simp] theorem State.hostOut_cfg (s : State) (w : Word) :
    (s.hostOut w).cfg = s.cfg := rfl
@[simp] theorem State.hostOut_out (s : State) (w : Word) :
    (s.hostOut w).out = w := rfl
@[simp] theorem State.hostOut_lut (s : State) (w : Word) :
    (s.hostOut w).lut = s.lut := rfl
@[simp] theorem State.hostOut_base (s : State) (w : Word) :
    (s.hostOut w).base = s.base := rfl
@[simp] theorem State.hostOut_pinMode (s : State) (w : Word) :
    (s.hostOut w).pinMode = s.pinMode := rfl
@[simp] theorem State.hostOut_geom (s : State) (w : Word) :
    (s.hostOut w).geom = s.geom := rfl
@[simp] theorem State.hostOut_touch (s : State) (w : Word) :
    (s.hostOut w).touch = s.touch := rfl
@[simp] theorem State.hostOut_pc (s : State) (w : Word) :
    (s.hostOut w).pc = s.pc := rfl
@[simp] theorem State.hostOut_fault (s : State) (w : Word) :
    (s.hostOut w).fault = s.fault := rfl
@[simp] theorem State.hostOut_responses (s : State) (w : Word) :
    (s.hostOut w).responses = s.responses := rfl
@[simp] theorem State.hostOut_stores (s : State) (w : Word) :
    (s.hostOut w).stores = s.stores := rfl
@[simp] theorem State.hostOut_bus (s : State) (w : Word) :
    (s.hostOut w).bus = s.bus ++ busEvents s.cfg.pins s.out w := rfl
@[simp] theorem State.hostOut_stream (s : State) (w : Word) :
    (s.hostOut w).stream = s.stream := rfl
@[simp] theorem State.hostOut_params (s : State) (w : Word) :
    (s.hostOut w).params = s.params := rfl
@[simp] theorem State.hostOut_busQueue (s : State) (w : Word) :
    (s.hostOut w).busQueue = s.busQueue := rfl
@[simp] theorem State.hostOut_schedule (s : State) (w : Word) :
    (s.hostOut w).schedule = s.schedule := rfl
@[simp] theorem State.hostOut_past (s : State) (w : Word) :
    (s.hostOut w).past = s.past := rfl
@[simp] theorem State.hostOut_adcIn (s : State) (w : Word) :
    (s.hostOut w).adcIn = s.adcIn := rfl
@[simp] theorem State.hostOut_draws (s : State) (w : Word) :
    (s.hostOut w).draws = s.draws := rfl

/-! ### `State.pinRestore` -/

@[simp] theorem State.pinRestore_cfg (s : State) (v : Word) :
    (s.pinRestore v).cfg = s.cfg := rfl
@[simp] theorem State.pinRestore_out (s : State) (v : Word) :
    (s.pinRestore v).out = replaceBits s.out (busMask s.cfg.pins) v := rfl
@[simp] theorem State.pinRestore_lut (s : State) (v : Word) :
    (s.pinRestore v).lut = s.lut := rfl
@[simp] theorem State.pinRestore_base (s : State) (v : Word) :
    (s.pinRestore v).base = s.base := rfl
@[simp] theorem State.pinRestore_pinMode (s : State) (v : Word) :
    (s.pinRestore v).pinMode = setModes s.pinMode (busMask s.cfg.pins) .output := rfl
@[simp] theorem State.pinRestore_geom (s : State) (v : Word) :
    (s.pinRestore v).geom = s.geom := rfl
@[simp] theorem State.pinRestore_touch (s : State) (v : Word) :
    (s.pinRestore v).touch = s.touch := rfl
@[simp] theorem State.pinRestore_pc (s : State) (v : Word) :
    (s.pinRestore v).pc = s.pc := rfl
@[simp] theorem State.pinRestore_fault (s : State) (v : Word) :
    (s.pinRestore v).fault = s.fault := rfl
@[simp] theorem State.pinRestore_responses (s : State) (v : Word) :
    (s.pinRestore v).responses = s.responses := rfl
@[simp] theorem State.pinRestore_stores (s : State) (v : Word) :
    (s.pinRestore v).stores = s.stores := rfl
@[simp] theorem State.pinRestore_bus (s : State) (v : Word) :
    (s.pinRestore v).bus = s.bus ++ busEvents s.cfg.pins s.out (replaceBits s.out (busMask s.cfg.pins) v) := rfl
@[simp] theorem State.pinRestore_stream (s : State) (v : Word) :
    (s.pinRestore v).stream = s.stream := rfl
@[simp] theorem State.pinRestore_params (s : State) (v : Word) :
    (s.pinRestore v).params = s.params := rfl
@[simp] theorem State.pinRestore_busQueue (s : State) (v : Word) :
    (s.pinRestore v).busQueue = s.busQueue := rfl
@[simp] theorem State.pinRestore_schedule (s : State) (v : Word) :
    (s.pinRestore v).schedule = s.schedule := rfl
@[simp] theorem State.pinRestore_past (s : State) (v : Word) :
    (s.pinRestore v).past = s.past := rfl
@[simp] theorem State.pinRestore_adcIn (s : State) (v : Word) :
    (s.pinRestore v).adcIn = s.adcIn := rfl
@[simp] theorem State.pinRestore_draws (s : State) (v : Word) :
    (s.pinRestore v).draws = s.draws := rfl

/-! ### `State.releaseShared` -/

@[simp] theorem State.releaseShared_cfg (s : State) :
    s.releaseShared.cfg = s.cfg := rfl
@[simp] theorem State.releaseShared_out (s : State) :
    s.releaseShared.out = s.out := rfl
@[simp] theorem State.releaseShared_lut (s : State) :
    s.releaseShared.lut = s.lut := rfl
@[simp] theorem State.releaseShared_base (s : State) :
    s.releaseShared.base = s.base := rfl
@[simp] theorem State.releaseShared_pinMode (s : State) :
    s.releaseShared.pinMode = setModes s.pinMode (sharedMask s.params) .released := rfl
@[simp] theorem State.releaseShared_geom (s : State) :
    s.releaseShared.geom = s.geom := rfl
@[simp] theorem State.releaseShared_touch (s : State) :
    s.releaseShared.touch = s.touch := rfl
@[simp] theorem State.releaseShared_pc (s : State) :
    s.releaseShared.pc = s.pc := rfl
@[simp] theorem State.releaseShared_fault (s : State) :
    s.releaseShared.fault = s.fault := rfl
@[simp] theorem State.releaseShared_responses (s : State) :
    s.releaseShared.responses = s.responses := rfl
@[simp] theorem State.releaseShared_stores (s : State) :
    s.releaseShared.stores = s.stores := rfl
@[simp] theorem State.releaseShared_bus (s : State) :
    s.releaseShared.bus = s.bus ++ (if sharesStrobe s.params then [.indeterminate] else []) := rfl
@[simp] theorem State.releaseShared_stream (s : State) :
    s.releaseShared.stream = s.stream := rfl
@[simp] theorem State.releaseShared_params (s : State) :
    s.releaseShared.params = s.params := rfl
@[simp] theorem State.releaseShared_busQueue (s : State) :
    s.releaseShared.busQueue = s.busQueue := rfl
@[simp] theorem State.releaseShared_schedule (s : State) :
    s.releaseShared.schedule = s.schedule := rfl
@[simp] theorem State.releaseShared_past (s : State) :
    s.releaseShared.past = s.past := rfl
@[simp] theorem State.releaseShared_adcIn (s : State) :
    s.releaseShared.adcIn = s.adcIn := rfl
@[simp] theorem State.releaseShared_draws (s : State) :
    s.releaseShared.draws = s.draws := rfl

/-! ### Completion in the claims' terms -/

theorem State.respond_eq_completed (s : State) (i : Instr) (r : Results) :
    s.respond i r = s.completed (frameLength i) .ok r := rfl

theorem State.raise_eq_completed (s : State) (i : Instr) (st : Status) :
    s.raise i st = s.completed (frameLength i) st .none := rfl

theorem State.buildTable_tableBuilt (s : State) : s.buildTable.TableBuilt := ⟨⟨s.out, rfl⟩, rfl⟩

end Sys2Proof.Machine
end

