-- ==== Sys2Proof/Laws/Bits.lean ====
section
/-! SUPPORT. Bits of the masks and of the table words (10_state.md R33, 40_lut.md R141 to R147). -/

namespace Sys2Proof.Machine

/-! ### Masks -/

@[simp] theorem bit_getLsbD (p i : Nat) : (bit p).getLsbD i = (decide (i = p) && decide (i < 32)) := by
  unfold bit
  simp only [BitVec.getLsbD_shiftLeft, BitVec.getLsbD_one]
  by_cases h : i < 32
  · by_cases h2 : i = p <;> simp [h, h2]
    omega
  · simp [h]

/-- A position is a data pin. -/
def isDataPin (pins : BusPins Nat) (i : Nat) : Bool :=
  i == pins.d[0] || i == pins.d[1] || i == pins.d[2] || i == pins.d[3] ||
  i == pins.d[4] || i == pins.d[5] || i == pins.d[6] || i == pins.d[7]

theorem dataMask_getLsbD (pins : BusPins Nat) (i : Nat) :
    (dataMask pins).getLsbD i = (decide (i < 32) && isDataPin pins i) := by
  simp only [dataMask, BitVec.getLsbD_or, bit_getLsbD, isDataPin]
  by_cases h : i < 32 <;> simp [h, Bool.beq_eq_decide_eq]

theorem busMask_getLsbD (pins : BusPins Nat) (i : Nat) :
    (busMask pins).getLsbD i = (decide (i < 32) && (isDataPin pins i || i == pins.cs || i == pins.dc ||
      i == pins.wr || i == pins.rd || i == pins.rst)) := by
  simp only [busMask, controlMask, BitVec.getLsbD_or, bit_getLsbD, dataMask_getLsbD]
  by_cases h : i < 32 <;> simp [h, Bool.beq_eq_decide_eq, Bool.or_assoc]

theorem replaceBits_getLsbD (old m v : Word) (i : Nat) :
    (replaceBits old m v).getLsbD i = if m.getLsbD i then v.getLsbD i else old.getLsbD i := by
  simp only [replaceBits, BitVec.getLsbD_or, BitVec.getLsbD_and, BitVec.getLsbD_not]
  by_cases h : i < 32
  · cases m.getLsbD i <;> simp only [h] <;> simp
  · simp only [h, BitVec.getLsbD_of_ge _ i (Nat.le_of_not_lt h)]
    simp

/-! ### Valid pins -/

/-- The inequalities between the pin fields, and their bounds, as one simp set. -/
theorem PinsValid.facts {pins : BusPins Nat} (h : PinsValid pins) :
    (pins.cs < 32 ∧ pins.dc < 32 ∧ pins.wr < 32 ∧ pins.rd < 32 ∧ pins.rst < 32) ∧
    (pins.cs ≠ pins.dc ∧ pins.cs ≠ pins.wr ∧ pins.cs ≠ pins.rd ∧ pins.cs ≠ pins.rst ∧
     pins.dc ≠ pins.wr ∧ pins.dc ≠ pins.rd ∧ pins.dc ≠ pins.rst ∧
     pins.wr ≠ pins.rd ∧ pins.wr ≠ pins.rst ∧ pins.rd ≠ pins.rst) ∧
    isDataPin pins pins.cs = false ∧ isDataPin pins pins.dc = false ∧ isDataPin pins pins.wr = false ∧
    isDataPin pins pins.rd = false ∧ isDataPin pins pins.rst = false := by
  obtain ⟨hb, hd⟩ := h
  simp only [pinList, List.nodup_cons, List.mem_cons, not_or, forall_eq_or_imp,
    List.not_mem_nil, List.nodup_nil, not_false_eq_true, and_true] at hb hd
  simp only [isDataPin, Bool.or_eq_false_iff, beq_eq_false_iff_ne, ne_eq]
  refine ⟨by tauto, ?_, ?_, ?_, ?_, ?_, ?_⟩ <;> simp only [eq_comm] at hd ⊢ <;> tauto

theorem pinList_data (pins : BusPins Nat) (i : Fin 8) :
    (pinList pins)[i.val]'(by simp [pinList]; omega) = pins.d[i] := by
  fin_cases i <;> rfl

theorem PinsValid.data_lt {pins : BusPins Nat} (h : PinsValid pins) (i : Fin 8) : pins.d[i] < 32 := by
  rw [← pinList_data]
  exact h.inWord _ (List.getElem_mem _)

theorem PinsValid.data_inj {pins : BusPins Nat} (h : PinsValid pins) {i j : Fin 8}
    (hij : pins.d[i] = pins.d[j]) : i = j := by
  rw [← pinList_data, ← pinList_data] at hij
  exact Fin.ext ((h.distinct.getElem_inj_iff).1 hij)

theorem isDataPin_iff (pins : BusPins Nat) (p : Nat) :
    isDataPin pins p = true ↔ ∃ i : Fin 8, pins.d[i] = p := by
  constructor
  · simp only [isDataPin, Bool.or_eq_true, beq_iff_eq]
    rintro (((((((h | h) | h) | h) | h) | h) | h) | h)
    exacts [⟨0, h.symm⟩, ⟨1, h.symm⟩, ⟨2, h.symm⟩, ⟨3, h.symm⟩, ⟨4, h.symm⟩, ⟨5, h.symm⟩, ⟨6, h.symm⟩,
      ⟨7, h.symm⟩]
  · rintro ⟨i, rfl⟩
    simp only [isDataPin, Bool.or_eq_true, beq_iff_eq]
    fin_cases i <;> simp

/-! ### spread and the table words -/

theorem spread_lane_getLsbD (pins : BusPins Nat) (b : Byte) (i : Fin 8) (p : Nat) :
    (spread.lane pins b i).getLsbD p = (b.getLsbD i && decide (p = pins.d[i]) && decide (p < 32)) := by
  unfold spread.lane
  cases b.getLsbD i <;> simp

/-- A bit of `spread(b)`: some line of b that is 1 has its pin there. -/
theorem spread_getLsbD (pins : BusPins Nat) (b : Byte) (p : Nat) :
    (spread pins b).getLsbD p = true ↔ p < 32 ∧ ∃ i : Fin 8, b.getLsbD i = true ∧ pins.d[i] = p := by
  unfold spread
  simp only [BitVec.getLsbD_or, spread_lane_getLsbD, Bool.or_eq_true, Bool.and_eq_true, decide_eq_true_eq]
  constructor
  · rintro (((((((h | h) | h) | h) | h) | h) | h) | h)
    exacts [⟨h.2, 0, h.1.1, h.1.2.symm⟩, ⟨h.2, 1, h.1.1, h.1.2.symm⟩, ⟨h.2, 2, h.1.1, h.1.2.symm⟩,
      ⟨h.2, 3, h.1.1, h.1.2.symm⟩, ⟨h.2, 4, h.1.1, h.1.2.symm⟩, ⟨h.2, 5, h.1.1, h.1.2.symm⟩,
      ⟨h.2, 6, h.1.1, h.1.2.symm⟩, ⟨h.2, 7, h.1.1, h.1.2.symm⟩]
  · rintro ⟨hp, i, hb, rfl⟩
    fin_cases i <;> simp_all

/-- On a data pin, `spread(b)` is b's bit. -/
theorem spread_dataPin {pins : BusPins Nat} (h : PinsValid pins) (b : Byte) (i : Fin 8) :
    (spread pins b).getLsbD pins.d[i] = b.getLsbD i := by
  rw [Bool.eq_iff_iff, spread_getLsbD]
  constructor
  · rintro ⟨-, j, hj, hd⟩
    rwa [← h.data_inj hd]
  · exact fun hb => ⟨h.data_lt i, i, hb, rfl⟩

/-- Off the data pins, `spread(b)` is 0. -/
theorem spread_other {pins : BusPins Nat} (b : Byte) {p : Nat} (hp : isDataPin pins p = false) :
    (spread pins b).getLsbD p = false := by
  rw [Bool.eq_false_iff, ne_eq, spread_getLsbD]
  rintro ⟨-, i, -, hd⟩
  rw [Bool.eq_false_iff, ne_eq, isDataPin_iff] at hp
  exact hp ⟨i, hd⟩

/-- A bit of the baseline (R141). -/
theorem baseline_getLsbD (pins : BusPins Nat) (o : Word) (p : Nat) :
    (baseline pins o).getLsbD p =
      ((o.getLsbD p && !isDataPin pins p && !(p == pins.cs) && !(p == pins.wr) ||
        p == pins.dc) && decide (p < 32)) := by
  simp only [baseline, BitVec.getLsbD_or, BitVec.getLsbD_and, BitVec.getLsbD_not, dataMask_getLsbD,
    bit_getLsbD]
  by_cases hp : p < 32
  · simp only [hp, Bool.beq_eq_decide_eq]
    simp
  · simp [hp]

theorem lutAt_tableOf (pins : BusPins Nat) (base : Word) (b : Byte) :
    lutAt (tableOf pins base) b = base ||| spread pins b := by
  simp [lutAt, tableOf]

theorem byte_of_lines (b : Byte) :
    BitVec.ofBool (b.getLsbD (7 : Fin 8)) ++ BitVec.ofBool (b.getLsbD (6 : Fin 8)) ++
    BitVec.ofBool (b.getLsbD (5 : Fin 8)) ++ BitVec.ofBool (b.getLsbD (4 : Fin 8)) ++
    BitVec.ofBool (b.getLsbD (3 : Fin 8)) ++ BitVec.ofBool (b.getLsbD (2 : Fin 8)) ++
    BitVec.ofBool (b.getLsbD (1 : Fin 8)) ++ BitVec.ofBool (b.getLsbD (0 : Fin 8)) = b := by
  revert b
  decide +kernel

/-- `decode(w)` is b when the data pins hold b's bits. -/
theorem dataByte_eq {pins : BusPins Nat} {w : Word} {b : Byte}
    (h : ∀ i : Fin 8, w.getLsbD pins.d[i] = b.getLsbD i) : dataByte pins w = b := by
  have h0 := h 0; have h1 := h 1; have h2 := h 2; have h3 := h 3
  have h4 := h 4; have h5 := h 5; have h6 := h 6; have h7 := h 7
  unfold dataByte dataByte.line
  rw [h0, h1, h2, h3, h4, h5, h6, h7]
  exact byte_of_lines b

end Sys2Proof.Machine
end

