-- ==== Sys2Proof/Laws/Bus.lean ====
section
/-! SUPPORT. The bus events of the cycles and of the logical operations (41_bus_cycles.md R161 to R170):
one lemma per procedure, then the shared operations in the claims' terms. -/

namespace Sys2Proof.Machine

/-! ### Table words (R146) -/

/-- A word of the table of a baseline with RD and RST high (R146, R385). -/
structure TableWord (pins : BusPins Nat) (w : Word) (dc : Bool) (b : Byte) : Prop where
  cs : w.getLsbD pins.cs = false
  wr : w.getLsbD pins.wr = false
  dc : w.getLsbD pins.dc = dc
  rd : w.getLsbD pins.rd = true
  rst : w.getLsbD pins.rst = true
  data : dataByte pins w = b

theorem tableWord_data {pins : BusPins Nat} (h : PinsValid pins) {o : Word}
    (hrd : (baseline pins o).getLsbD pins.rd = true) (hrst : (baseline pins o).getLsbD pins.rst = true)
    (b : Byte) : TableWord pins (lutAt (tableOf pins (baseline pins o)) b) true b := by
  obtain ⟨⟨-, hdc32, -⟩, ⟨hcd, -, -, -, hdw, -⟩, dcs, ddc, dwr, drd, drst⟩ := h.facts
  rw [lutAt_tableOf]
  refine ⟨?_, ?_, ?_, ?_, ?_, dataByte_eq fun i => ?_⟩
  · simp [BitVec.getLsbD_or, spread_other b dcs, baseline_getLsbD, hcd]
  · simp [BitVec.getLsbD_or, spread_other b dwr, baseline_getLsbD, hdw.symm]
  · simp only [BitVec.getLsbD_or, spread_other b ddc, baseline_getLsbD, hdc32]
    simp
  · simp [BitVec.getLsbD_or, hrd]
  · simp [BitVec.getLsbD_or, hrst]
  · have hd : isDataPin pins pins.d[i] = true := (isDataPin_iff _ _).2 ⟨i, rfl⟩
    have hne : (pins.d[i] == pins.dc) = false :=
      beq_eq_false_iff_ne.2 fun he => by rw [he, ddc] at hd; cases hd
    rw [BitVec.getLsbD_or, spread_dataPin h, baseline_getLsbD, hd, hne]
    simp

theorem tableWord_command {pins : BusPins Nat} (h : PinsValid pins) {w : Word} {b : Byte}
    (hw : TableWord pins w true b) : TableWord pins (w &&& ~~~(bit pins.dc)) false b := by
  obtain ⟨⟨hcs, hdc, hwr, hrd, hrst⟩, ⟨hcd, -, -, -, hdw, hdr, hdt, -⟩, -, ddc, -⟩ := h.facts
  have keep : ∀ p, p ≠ pins.dc → (w &&& ~~~(bit pins.dc)).getLsbD p = w.getLsbD p := by
    intro p hp
    by_cases h32 : p < 32
    · simp only [BitVec.getLsbD_and, BitVec.getLsbD_not, bit_getLsbD, h32]
      simp [hp]
    · rw [BitVec.getLsbD_of_ge _ _ (Nat.le_of_not_lt h32), BitVec.getLsbD_of_ge _ _ (Nat.le_of_not_lt h32)]
  refine ⟨(keep _ hcd).trans hw.cs, (keep _ hdw.symm).trans hw.wr, ?_, (keep _ hdr.symm).trans hw.rd,
    (keep _ hdt.symm).trans hw.rst, ?_⟩
  · simp only [BitVec.getLsbD_and, BitVec.getLsbD_not, bit_getLsbD, hdc]
    simp
  · rw [← hw.data]
    have hl : ∀ i : Fin 8, (w &&& ~~~(bit pins.dc)).getLsbD pins.d[i] = w.getLsbD pins.d[i] := by
      intro i
      refine keep _ fun he => ?_
      rw [← he, (isDataPin_iff _ _).2 ⟨i, rfl⟩] at ddc
      cases ddc
    unfold dataByte dataByte.line
    rw [hl 0, hl 1, hl 2, hl 3, hl 4, hl 5, hl 6, hl 7]

/-! ### Events of the three kinds of store -/

/-- A table or command word to OUT: WR does not rise; CS falls if it was high (R165, R166). -/
theorem busEvents_word {pins : BusPins Nat} {w : Word} {dc : Bool} {b : Byte} (hw : TableWord pins w dc b)
    (old : Word) : busEvents pins old w = if old.getLsbD pins.cs = true then [.csBegin] else [] := by
  simp [busEvents, strobeEvents, hw.cs, hw.wr]

theorem or_bit_other {w : Word} {p q : Nat} (h : p ≠ q) : (w ||| bit q).getLsbD p = w.getLsbD p := by
  simp [h]

theorem or_bit_self {w : Word} {p : Nat} (h : p < 32) : (w ||| bit p).getLsbD p = true := by
  simp [h]

/-- The WR pulse after a word: the cycle is latched (R161, R165, R166). -/
theorem busEvents_pulse {pins : BusPins Nat} (h : PinsValid pins) {w : Word} {dc : Bool} {b : Byte}
    (hw : TableWord pins w dc b) :
    busEvents pins w (w ||| bit pins.wr) = [if dc = true then .data b else .cmd b] := by
  obtain ⟨⟨hcs, hdc, hwr, hrd, hrst⟩, ⟨hcd, hcw, -, -, hdw, hdr, hdt, hwd, hwt, -⟩, -, -, dwr, -⟩ := h.facts
  have hstable : (w ^^^ (w ||| bit pins.wr)) &&&
      (dataMask pins ||| bit pins.dc ||| bit pins.rd ||| bit pins.rst) = 0#32 := by
    apply BitVec.eq_of_getLsbD_eq
    intro p hp
    simp only [BitVec.getLsbD_and, BitVec.getLsbD_xor, BitVec.getLsbD_or, bit_getLsbD, dataMask_getLsbD, hp]
    by_cases hpw : p = pins.wr
    · subst hpw
      simp [dwr, hdw.symm, hwd, hwt]
    · simp [hpw]
  have hbyte : dataByte pins (w ||| bit pins.wr) = b := by
    rw [← hw.data]
    have hl : ∀ i : Fin 8, (w ||| bit pins.wr).getLsbD pins.d[i] = w.getLsbD pins.d[i] := by
      intro i
      refine or_bit_other fun he => ?_
      rw [← he, (isDataPin_iff _ _).2 ⟨i, rfl⟩] at dwr
      cases dwr
    unfold dataByte dataByte.line
    rw [hl 0, hl 1, hl 2, hl 3, hl 4, hl 5, hl 6, hl 7]
  have hlatch : latchedCycle pins w (w ||| bit pins.wr) = if dc = true then .data b else .cmd b := by
    simp only [latchedCycle, hstable, or_bit_other hwd.symm, or_bit_other hwt.symm, or_bit_other hdw, hw.rd,
      hw.rst, hw.dc, hbyte]
    simp
  simp only [busEvents, strobeEvents, hw.cs, hw.wr, or_bit_other hcw, or_bit_self hwr, hlatch]
  simp

/-- The release of CS after a pulse (R167). -/
theorem busEvents_release {pins : BusPins Nat} (h : PinsValid pins) {w : Word}
    (hcs : w.getLsbD pins.cs = false) (hwr : w.getLsbD pins.wr = true) :
    busEvents pins w (w ||| bit pins.cs) = [.csEnd] := by
  obtain ⟨⟨hcs32, -⟩, -⟩ := h.facts
  simp [busEvents, strobeEvents, hcs, hwr, or_bit_self hcs32]

/-! ### Lists of stores -/

theorem outAfter_append (old : Word) (l m : List GpioStore) :
    outAfter old (l ++ m) = outAfter (outAfter old l) m := by
  induction l generalizing old with
  | nil => rfl
  | cons st l ih => exact ih _

theorem traceOf_append (pins : BusPins Nat) (old : Word) (l m : List GpioStore) :
    traceOf pins old (l ++ m) = traceOf pins old l ++ traceOf pins (outAfter old l) m := by
  induction l generalizing old with
  | nil => rfl
  | cons st l ih => simp [traceOf, outAfter, ih]

theorem State.perform_perform (s : State) (l m : List GpioStore) :
    (s.perform l).perform m = s.perform (l ++ m) := by
  simp [State.perform, outAfter_append, traceOf_append]

/-! ### Logical operations -/

/-- The GPIO stores of a logical operation. -/
def LogicalOp.gpio (pins : BusPins Nat) (lut : Vector Word 256) : LogicalOp → List GpioStore
  | .command c => commandOp pins lut c
  | .burst bs => burstOp pins lut bs

theorem burst_out (pins : BusPins Nat) (lut : Vector Word 256) (old : Word) (bs : List Byte) :
    outAfter old (bs.flatMap (dataCycle pins lut)) =
      match bs.getLast? with
      | some b => lutAt lut b ||| bit pins.wr
      | none => old := by
  induction bs generalizing old with
  | nil => rfl
  | cons b bs ih =>
    rw [List.flatMap_cons, outAfter_append, ih, List.getLast?_cons]
    cases bs.getLast? <;> rfl

/-- Its store trace, OUT after it and the rest of the state, whatever the state (R165 to R167). -/
theorem perform_op (s : State) (op : LogicalOp) :
    s.perform (op.gpio s.cfg.pins s.lut) =
      s.afterOps [op] (traceOf s.cfg.pins s.out (op.gpio s.cfg.pins s.lut)) := by
  cases op with
  | command c => rfl
  | burst bs =>
    have ho : outAfter s.out (burstOp s.cfg.pins s.lut bs) = LogicalOp.outAfter s s.out (.burst bs) := by
      rw [burstOp, outAfter_append, burst_out]
      simp only [LogicalOp.outAfter, State.restLevel]
      cases bs.getLast? <;> rfl
    have he : (burstOp s.cfg.pins s.lut bs).map (GpioStore.entry s.cfg) = LogicalOp.entries s (.burst bs) := by
      simp only [burstOp, List.map_append, List.map_flatMap, LogicalOp.entries]
      rfl
    simp only [State.perform, State.afterOps, LogicalOp.gpio, ho, he, List.flatMap_cons, List.flatMap_nil,
      List.append_nil, List.foldl]

theorem ops_gpio_out (s : State) (old : Word) (op : LogicalOp) :
    outAfter old (op.gpio s.cfg.pins s.lut) = op.outAfter s old := by
  have := congrArg State.out (perform_op { s with out := old } op)
  cases op <;> simpa [LogicalOp.outAfter, State.restLevel] using this

/-- Several operations in order. -/
theorem perform_ops (s : State) (ops : List LogicalOp) :
    s.perform (ops.flatMap (LogicalOp.gpio s.cfg.pins s.lut)) =
      s.afterOps ops (traceOf s.cfg.pins s.out (ops.flatMap (LogicalOp.gpio s.cfg.pins s.lut))) := by
  have hout : ∀ old, outAfter old (ops.flatMap (LogicalOp.gpio s.cfg.pins s.lut)) =
      ops.foldl (LogicalOp.outAfter s) old := by
    induction ops with
    | nil => intro old; rfl
    | cons op ops ih =>
      intro old
      rw [List.flatMap_cons, outAfter_append, ih, ops_gpio_out, List.foldl_cons]
  have hent : (ops.flatMap (LogicalOp.gpio s.cfg.pins s.lut)).map (GpioStore.entry s.cfg) =
      ops.flatMap (LogicalOp.entries s) := by
    rw [List.map_flatMap]
    refine List.flatMap_congr fun op _ => ?_
    have h : (op.gpio s.cfg.pins s.lut).map (GpioStore.entry s.cfg) =
        LogicalOp.entries { s with stores := [] } op := by
      simpa using congrArg State.stores (perform_op { s with stores := [] } op)
    cases op <;> exact h
  simp only [State.perform, State.afterOps, hout, hent]

/-! ### Ready states -/

theorem State.Ready.dataWord {s : State} (h : s.Ready) (b : Byte) :
    TableWord s.cfg.pins (lutAt s.lut b) true b := by
  obtain ⟨o, ho⟩ := h.table.base
  have hrd := h.baseRd
  have hrst := h.baseRst
  rw [ho] at hrd hrst
  rw [h.table.lut, ho]
  exact tableWord_data h.pins hrd hrst b

theorem State.Ready.commandWord {s : State} (h : s.Ready) (c : Byte) :
    TableWord s.cfg.pins (lutAt s.lut c &&& ~~~(bit s.cfg.pins.dc)) false c :=
  tableWord_command h.pins (h.dataWord c)

/-- The word a logical operation ends on has CS, WR, RD and RST high. -/
theorem TableWord.restLevel {pins : BusPins Nat} (h : PinsValid pins) {w : Word} {dc : Bool} {b : Byte}
    (hw : TableWord pins w dc b) :
    (w ||| bit pins.wr ||| bit pins.cs).getLsbD pins.cs = true ∧
    (w ||| bit pins.wr ||| bit pins.cs).getLsbD pins.wr = true ∧
    (w ||| bit pins.wr ||| bit pins.cs).getLsbD pins.rd = true ∧
    (w ||| bit pins.wr ||| bit pins.cs).getLsbD pins.rst = true := by
  obtain ⟨⟨hcs, hdc, hwr, hrd, hrst⟩, ⟨hcd, hcw, hcr, hct, hdw, hdr, hdt, hwd, hwt, -⟩, -⟩ := h.facts
  refine ⟨or_bit_self hcs, ?_, ?_, ?_⟩
  · rw [or_bit_other hcw.symm, or_bit_self hwr]
  · rw [or_bit_other hcr.symm, or_bit_other hwd.symm, hw.rd]
  · rw [or_bit_other hct.symm, or_bit_other hwt.symm, hw.rst]

/-- The trace of a cycle's two stores. -/
theorem traceOf_cycle {pins : BusPins Nat} (h : PinsValid pins) {w : Word} {dc : Bool} {b : Byte}
    (hw : TableWord pins w dc b) (old : Word) :
    traceOf pins old [⟨.out, w⟩, ⟨.set, bit pins.wr⟩] =
      (if old.getLsbD pins.cs = true then [.csBegin] else []) ++ [if dc = true then .data b else .cmd b] := by
  simp [traceOf, GpioStore.newOut, busEvents_word hw, busEvents_pulse h hw]

/-- The trace of a burst's data cycles: Begin if CS was high, then one Data per byte (R170, R176). -/
theorem traceOf_burst {s : State} (h : s.Ready) (bs : List Byte) (hbs : bs ≠ []) (old : Word) :
    traceOf s.cfg.pins old (bs.flatMap (dataCycle s.cfg.pins s.lut)) =
      (if old.getLsbD s.cfg.pins.cs = true then [.csBegin] else []) ++ bs.map .data := by
  induction bs generalizing old with
  | nil => exact absurd rfl hbs
  | cons b bs ih =>
    have hcw : s.cfg.pins.cs ≠ s.cfg.pins.wr := h.pins.facts.2.1.2.1
    have hc := traceOf_cycle h.pins (h.dataWord b) old
    rw [List.flatMap_cons, traceOf_append]
    have hout : outAfter old (dataCycle s.cfg.pins s.lut b) = lutAt s.lut b ||| bit s.cfg.pins.wr := rfl
    rw [dataCycle, hc, ← dataCycle, hout]
    cases bs with
    | nil => simp [traceOf]
    | cons b' bs' =>
      rw [ih (by simp), or_bit_other hcw, (h.dataWord b).cs]
      simp

/-- The bus trace of a logical operation that starts with CS high (R170). -/
theorem traceOf_op {s : State} (h : s.Ready) (old : Word) (hold : old.getLsbD s.cfg.pins.cs = true)
    (op : LogicalOp) (hop : op ≠ .burst []) :
    traceOf s.cfg.pins old (op.gpio s.cfg.pins s.lut) = op.events := by
  have hcw : s.cfg.pins.cs ≠ s.cfg.pins.wr := h.pins.facts.2.1.2.1
  have hwr : s.cfg.pins.wr < 32 := h.pins.facts.1.2.2.1
  cases op with
  | command c =>
    have hw := h.commandWord c
    have hrel := busEvents_release h.pins (w := lutAt s.lut c &&& ~~~(bit s.cfg.pins.dc) ||| bit s.cfg.pins.wr)
      (by rw [or_bit_other hcw, hw.cs]) (or_bit_self hwr)
    have hc := traceOf_cycle h.pins hw old
    rw [if_pos hold] at hc
    rw [LogicalOp.gpio, commandOp, traceOf_append, cmdCycle, commandGpioWord, hc]
    simp [csRelease, outAfter, GpioStore.newOut, traceOf, hrel, LogicalOp.events]
  | burst bs =>
    have hbs : bs ≠ [] := fun he => hop (by rw [he])
    obtain ⟨b, hb⟩ : ∃ b, bs.getLast? = some b := by
      cases hl : bs.getLast? with
      | none => exact absurd (List.getLast?_eq_none_iff.1 hl) hbs
      | some b => exact ⟨b, rfl⟩
    have hrel := busEvents_release h.pins (w := lutAt s.lut b ||| bit s.cfg.pins.wr)
      (by rw [or_bit_other hcw, (h.dataWord b).cs]) (or_bit_self hwr)
    simp [LogicalOp.gpio, burstOp, csRelease, traceOf_append, LogicalOp.events, traceOf_burst h bs hbs, hold,
      burst_out, hb, traceOf, GpioStore.newOut, hrel]

/-- CS is high after a logical operation. -/
theorem op_outAfter_cs {s : State} (h : s.Ready) (old : Word)
    (op : LogicalOp) : (op.outAfter s old).getLsbD s.cfg.pins.cs = true := by
  have hcs : s.cfg.pins.cs < 32 := h.pins.facts.1.1
  cases op with
  | command c => exact or_bit_self hcs
  | burst bs =>
    simp only [LogicalOp.outAfter]
    cases bs.getLast? <;> exact or_bit_self hcs

/-- The bus trace of several logical operations from a ready state (R169, R170). -/
theorem traceOf_ops {s : State} (h : s.Ready) (ops : List LogicalOp) (hops : ∀ op ∈ ops, op ≠ .burst []) :
    traceOf s.cfg.pins s.out (ops.flatMap (LogicalOp.gpio s.cfg.pins s.lut)) = opEvents ops := by
  have hcs : s.out.getLsbD s.cfg.pins.cs = true := (Bool.and_eq_true _ _ ▸ h.idle).1
  generalize s.out = old at hcs
  induction ops generalizing old with
  | nil => rfl
  | cons op ops ih =>
    rw [List.flatMap_cons, traceOf_append, traceOf_op h old hcs op (hops op (by simp)), ops_gpio_out,
      ih (fun o ho => hops o (by simp [ho])) _ (op_outAfter_cs h old op)]
    rfl

/-- The shared bodies in the claims' terms: a request that performs the stores of logical operations leaves the
state after them, and from a ready state their bus trace. -/
theorem perform_sends (s : State) (ops : List LogicalOp) (hops : ∀ op ∈ ops, op ≠ .burst []) :
    ∃ events, s.perform (ops.flatMap (LogicalOp.gpio s.cfg.pins s.lut)) = s.afterOps ops events ∧
      (s.Ready → events = opEvents ops) :=
  ⟨_, perform_ops s ops, fun h => traceOf_ops h ops hops⟩

end Sys2Proof.Machine
end

