-- ==== Sys2Proof/Laws/Decode.lean ====
section
/-! SUPPORT. Field assembly is invertible (30_encoding.md R101, R108), and a bus word is its two parts (R109). -/

namespace Sys2Proof

@[simp] theorem halfOf_bytes (v : Half) : halfOf (hiByte v) (loByte v) = v := by
  apply BitVec.eq_of_getLsbD_eq
  intro i hi
  simp only [halfOf, hiByte, loByte, BitVec.getLsbD_append, BitVec.getLsbD_extractLsb']
  by_cases h : i < 8
  · simp [h]
  · have : i - 8 < 8 := by omega
    have h2 : 8 + (i - 8) = i := by omega
    simp [h, this, h2]

@[simp] theorem hiByte_halfOf (a b : Byte) : hiByte (halfOf a b) = a := by
  apply BitVec.eq_of_getLsbD_eq
  intro i hi
  rw [hiByte, halfOf, BitVec.getLsbD_extractLsb', BitVec.getLsbD_append]
  simp [hi]

@[simp] theorem loByte_halfOf (a b : Byte) : loByte (halfOf a b) = b := by
  apply BitVec.eq_of_getLsbD_eq
  intro i hi
  rw [loByte, halfOf, BitVec.getLsbD_extractLsb', BitVec.getLsbD_append]
  simp [hi]

@[simp] theorem halfBytes_halfOf (a b : Byte) : halfBytes (halfOf a b) = [a, b] := by
  simp [halfBytes]

@[simp] theorem wordOf_bytes (v : Word) :
    wordOf (v.extractLsb' 24 8) (v.extractLsb' 16 8) (v.extractLsb' 8 8) (v.extractLsb' 0 8) = v := by
  apply BitVec.eq_of_getLsbD_eq
  intro i hi
  simp only [wordOf, BitVec.getLsbD_append, BitVec.getLsbD_extractLsb']
  by_cases h : i < 8
  · simp [h]
  · by_cases h2 : i < 16
    · have h3 : i - 8 < 8 := by omega
      have h4 : 8 + (i - 8) = i := by omega
      simp [h, h3, h4]
    · by_cases h5 : i < 24
      · have h6 : i - 8 - 8 < 8 := by omega
        have h7 : 16 + (i - 8 - 8) = i := by omega
        have h8 : ¬i - 8 < 8 := by omega
        simp [h, h8, h6, h7]
      · have h6 : i - 8 - 8 - 8 < 8 := by omega
        have h7 : 24 + (i - 8 - 8 - 8) = i := by omega
        have h8 : ¬i - 8 < 8 := by omega
        have h9 : ¬i - 8 - 8 < 8 := by omega
        simp [h, h8, h9, h6, h7]

@[simp] theorem wordBytes_wordOf (a b c d : Byte) : wordBytes (wordOf a b c d) = [a, b, c, d] := by
  have key : ∀ (n : Nat) (x : Byte), (∀ i, i < 8 → (wordOf a b c d).getLsbD (n + i) = x.getLsbD i) →
      (wordOf a b c d).extractLsb' n 8 = x := fun n x h =>
    BitVec.eq_of_getLsbD_eq fun i hi => by rw [BitVec.getLsbD_extractLsb', h i hi]; simp [hi]
  simp only [wordBytes]
  rw [key 24 a, key 16 b, key 8 c, key 0 d]
  all_goals
    intro i hi
    simp only [wordOf, BitVec.getLsbD_append]
  · simp [hi]
  · have : ¬8 + i < 8 := by omega
    simp [hi]
  · have h1 : ¬16 + i < 8 := by omega
    have h2 : 16 + i - 8 = 8 + i := by omega
    simp [h1, h2, hi]
  · have h1 : ¬24 + i < 8 := by omega
    have h2 : 24 + i - 8 = 16 + i := by omega
    have h3 : ¬16 + i < 8 := by omega
    have h4 : 16 + i - 8 = 8 + i := by omega
    simp [h1, h2, h3, h4]

theorem halfBytes_length (v : Half) : (halfBytes v).length = 2 := rfl

theorem wordBytes_length (v : Word) : (wordBytes v).length = 4 := rfl

theorem wordOf_toNat (a b c d : Byte) :
    (wordOf a b c d).toNat = a.toNat * 2 ^ 24 + b.toNat * 2 ^ 16 + c.toNat * 2 ^ 8 + d.toNat := by
  have ha := a.isLt; have hb := b.isLt; have hc := c.isLt; have hd := d.isLt
  simp only [wordOf, BitVec.toNat_append]
  rw [← Nat.shiftLeft_add_eq_or_of_lt hd, ← Nat.shiftLeft_add_eq_or_of_lt hc, ← Nat.shiftLeft_add_eq_or_of_lt hb]
  simp only [Nat.shiftLeft_eq]
  omega

/-- A command word's byte and DC bit (R109). -/
theorem commandWord_parts (c : Byte) : isDataWord (commandWord c) = false ∧ (commandWord c).setWidth 8 = c := by
  constructor
  · simp [isDataWord, commandWord]
  · apply BitVec.eq_of_getLsbD_eq
    intro i hi
    simp [commandWord]

/-- A data word's byte and DC bit (R109). -/
theorem dataWord_parts (d : Byte) : isDataWord (dataWord d) = true ∧ (dataWord d).setWidth 8 = d := by
  revert d
  decide +kernel

/-- Every bus word is one of the two. -/
theorem busWord_eq (w : BusWord) :
    w = if isDataWord w = true then dataWord (w.setWidth 8) else commandWord (w.setWidth 8) := by
  revert w
  decide +kernel

end Sys2Proof
end

