-- ==== Sys2Proof/Laws/Ops.lean ====
section
/-! SUPPORT. What the shared operations of Machine/Ops.lean can do, once each: the fault test, the guard, the
completion of a request, pin modes, GPIO accesses, the port cycles. -/

namespace Sys2Proof.Machine

/-! ### The fault test and the guard -/

theorem State.whenRunning_of_none {s : State} (h : s.fault = none) (k : Result) : s.whenRunning k = k := by
  simp [State.whenRunning, h]

theorem State.whenRunning_of_some {s : State} {c : FaultCode} (h : s.fault = some c) (k : Result) :
    s.whenRunning k = .fault (.halted c) := by
  simp [State.whenRunning, h]

theorem State.whenRunning_next {s t : State} {k : Result} :
    s.whenRunning k = .next t ↔ s.fault = none ∧ k = .next t := by
  cases h : s.fault <;> simp [State.whenRunning, h]

theorem State.guarded_of_driven {s : State} (h : s.busDriven = true) (k : State) : s.guarded k = .next k := by
  simp [State.guarded, h]

theorem State.guarded_of_released {s : State} (h : s.busDriven = false) (k : State) :
    s.guarded k = .next (s.takeFault .pinModeHazard) := by
  simp [State.guarded, h]

theorem State.guarded_next {s t k : State} :
    s.guarded k = .next t ↔
      (s.busDriven = true ∧ t = k) ∨ (s.busDriven = false ∧ t = s.takeFault .pinModeHazard) := by
  cases h : s.busDriven <;> simp [State.guarded, h, eq_comm]

/-! ### Completion in the claims' terms -/

theorem State.complete_eq (s : State) (i : Instr) (st : Status) (r : Results) :
    s.complete i st r = s.completed (frameLength i) st r := rfl

theorem State.respond_eq (s : State) (i : Instr) (r : Results) :
    s.respond i r = s.completed (frameLength i) .ok r := rfl

theorem State.raise_eq (s : State) (i : Instr) (st : Status) :
    s.raise i st = s.completed (frameLength i) st .none := rfl

/-! ### Pin modes -/

theorem modeAt_setModes (pm : Vector PinMode 32) (mask : Word) (m : PinMode) (q : Nat) :
    modeAt (setModes pm mask m) q = if mask.getLsbD q = true then m else modeAt pm q := by
  by_cases h : q < 32
  · simp [modeAt, setModes, h]
  · have : mask.getLsbD q = false := BitVec.getLsbD_of_ge mask q (Nat.le_of_not_lt h)
    simp [modeAt, h, this]

theorem State.busDriven_iff (s : State) :
    s.busDriven = true ↔ ∀ q, (busMask s.cfg.pins).getLsbD q = true → modeAt s.pinMode q = .output := by
  simp only [State.busDriven, List.all_eq_true, List.mem_range, Bool.or_eq_true, Bool.not_eq_true',
    beq_iff_eq]
  constructor
  · intro h q hq
    by_cases h32 : q < 32
    · rcases h q h32 with h' | h'
      · rw [hq] at h'; cases h'
      · exact h'
    · rw [BitVec.getLsbD_of_ge _ q (Nat.le_of_not_lt h32)] at hq; cases hq
  · intro h q _
    cases hq : (busMask s.cfg.pins).getLsbD q
    · exact .inl rfl
    · exact .inr (h q hq)

/-- The guard sees only the pins and their modes. -/
theorem State.busDriven_congr {s t : State} (hc : t.cfg = s.cfg) (hm : t.pinMode = s.pinMode) :
    t.busDriven = s.busDriven := by
  simp [State.busDriven, hc, hm]

theorem sharedMask_le (p : Params) (q : Nat) (h : (sharedMask p).getLsbD q = true) :
    (busMask (busConfigOf p).pins).getLsbD q = true := by
  simp only [sharedMask, BitVec.getLsbD_and, Bool.and_eq_true] at h
  exact h.2

theorem eq_zero_of_getLsbD {w : Word} (h : ∀ q, w.getLsbD q = false) : w = 0#32 :=
  BitVec.eq_of_getLsbD_eq fun q _ => by simp [h q]

theorem exists_bit_of_ne_zero {w : Word} (h : w ≠ 0#32) : ∃ q, w.getLsbD q = true := by
  by_contra hn
  exact h (eq_zero_of_getLsbD fun q => by simpa using not_exists.1 hn q)

/-! ### GPIO accesses -/

theorem regAt_out (cfg : BusConfig) : regAt cfg cfg.outAddr = some .out := by simp [regAt]

theorem regAt_set (cfg : BusConfig) (h : cfg.outAddr ≠ cfg.setAddr) : regAt cfg cfg.setAddr = some .set := by
  simp [regAt, h.symm]

end Sys2Proof.Machine
end

