-- ==== Sys2Proof/Laws/Exec.lean ====
section
/-! SUPPORT. What the meanings can do, by kind of instruction: the storing requests perform logical operations,
the other requests make no store, a bus word is one cycle. -/

namespace Sys2Proof.Machine

/-! ### The stores of the composite bodies, as logical operations -/

theorem sendCommand_ops (s : State) (c : Byte) :
    s.sendCommand c = s.perform ([LogicalOp.command c].flatMap (LogicalOp.gpio s.cfg.pins s.lut)) := by
  simp [State.sendCommand, LogicalOp.gpio]

theorem sendBurst_ops (s : State) (bs : List Byte) :
    s.sendBurst bs = s.perform ([LogicalOp.burst bs].flatMap (LogicalOp.gpio s.cfg.pins s.lut)) := by
  simp [State.sendBurst, LogicalOp.gpio]

theorem windowOps_ops (pins : BusPins Nat) (lut : Vector Word 256) (x0 y0 x1 y1 : Half) :
    windowOps pins lut x0 y0 x1 y1 = (windowLogicalOps x0 y0 x1 y1).flatMap (LogicalOp.gpio pins lut) := by
  simp [windowOps, windowLogicalOps, LogicalOp.gpio, halfBytes]

theorem sendWindow_ops (s : State) (x0 y0 x1 y1 : Half) :
    s.sendWindow x0 y0 x1 y1 =
      s.perform ((windowLogicalOps x0 y0 x1 y1).flatMap (LogicalOp.gpio s.cfg.pins s.lut)) := by
  rw [State.sendWindow, windowOps_ops]

/-- One list of operations after another. -/
theorem perform_ops_append (s : State) (a b : List LogicalOp) :
    (s.perform (a.flatMap (LogicalOp.gpio s.cfg.pins s.lut))).perform
        (b.flatMap (LogicalOp.gpio s.cfg.pins s.lut)) =
      s.perform ((a ++ b).flatMap (LogicalOp.gpio s.cfg.pins s.lut)) := by
  rw [State.perform_perform, List.flatMap_append]

/-! ### Storing requests -/

/-- The logical operations that a request sends when it stores (R172 to R248). -/
def opsOf (s : State) : Instr → List LogicalOp
  | .writeCommand c => [.command c]
  | .writeData d => [.burst [d]]
  | .writeDataBurst data => [.burst data]
  | .writeDataRepeat pat count => [.burst (repeated pat count.toNat)]
  | .setWindow x0 y0 x1 y1 => windowLogicalOps x0 y0 x1 y1
  | .drawPixel x y color => windowLogicalOps x y x y ++ [.burst (pack s.geom.fmt color)]
  | .fillRect x y w h color =>
    match clip s.geom x.toInt y.toInt w.toNat h.toNat with
    | none => []
    | some box =>
      windowLogicalOps (BitVec.ofInt 16 box.x0) (BitVec.ofInt 16 box.y0) (BitVec.ofInt 16 box.x1)
        (BitVec.ofInt 16 box.y1) ++ [.burst (repeated (pack s.geom.fmt color) box.count)]
  | .setRotation r =>
    if h : r.toNat < 4 then [.command 0x36, .burst [s.params.rotMadctl[r.toNat]]] else []
  | .setScrollArea tfa vsa bfa => [.command 0x33, .burst (halfBytes tfa ++ halfBytes vsa ++ halfBytes bfa)]
  | .setScrollStart vsp => [.command 0x37, .burst (halfBytes vsp)]
  | _ => []

/-- The geometry that a request leaves (R242). -/
def geomAfter (s : State) : Instr → Geometry
  | .setRotation r => if h : r.toNat < 4 then rotateTo s.geom ⟨r.toNat, h⟩ else s.geom
  | _ => s.geom

theorem pack_ne_nil (fmt : PixelFormat) (c : Word) : pack fmt c ≠ [] := by cases fmt <;> simp [pack]

theorem pack_length (fmt : PixelFormat) (c : Word) : (pack fmt c).length = bytesPerPixel fmt := by
  cases fmt <;> rfl

theorem repeated_length (pat : List Byte) (n : Nat) : (repeated pat n).length = n * pat.length := by
  simp [repeated, List.sum_replicate]

theorem repeated_ne_nil {pat : List Byte} {n : Nat} (hp : pat ≠ []) (hn : n ≠ 0) : repeated pat n ≠ [] := by
  intro h
  have := repeated_length pat n
  rw [h, List.length_nil, eq_comm, Nat.mul_eq_zero] at this
  exact this.elim hn fun hl => hp (List.length_eq_zero_iff.1 hl)

theorem clip_some {g : Geometry} {x y : Int} {w h : Nat} {box : ClipBox} (hb : clip g x y w h = some box) :
    box = { x0 := max x 0, y0 := max y 0, x1 := min (x + w - 1) (g.width.toNat - 1),
            y1 := min (y + h - 1) (g.height.toNat - 1) } ∧ 0 < w ∧ 0 < h ∧
    box.x0 ≤ box.x1 ∧ box.y0 ≤ box.y1 := by
  unfold clip at hb
  split at hb
  · cases hb
  · rename_i hwh
    simp only at hb
    split at hb
    · cases hb
    · rename_i hxy
      cases hb
      simp only [gt_iff_lt, not_or, not_lt] at hxy
      exact ⟨rfl, by omega, by omega, hxy.1, hxy.2⟩

theorem clip_none {g : Geometry} {x y : Int} {w h : Nat} (hb : clip g x y w h = none) :
    w = 0 ∨ h = 0 ∨ min (x + w - 1) (g.width.toNat - 1) < max x 0 ∨
      min (y + h - 1) (g.height.toNat - 1) < max y 0 := by
  unfold clip at hb
  split at hb
  · rename_i hwh; omega
  · simp only at hb
    split at hb
    · rename_i hxy; omega
    · cases hb

theorem ClipBox.count_ne_zero {box : ClipBox} (hx : box.x0 ≤ box.x1) (hy : box.y0 ≤ box.y1) : box.count ≠ 0 := by
  have : 0 < (box.x1 - box.x0 + 1) * (box.y1 - box.y0 + 1) := Int.mul_pos (by omega) (by omega)
  unfold ClipBox.count
  omega

/-- The operations of a storing request are not empty bursts. -/
theorem opsOf_bursts (s : State) (i : Instr) (hs : storesGpio s i = true) :
    ∀ op ∈ opsOf s i, op ≠ .burst [] := by
  cases i with
  | writeDataBurst data => simpa [opsOf, storesGpio] using hs
  | writeDataRepeat pat count =>
    have hc : pat ≠ [] ∧ count ≠ 0#32 := by simpa [storesGpio] using hs
    have hn : count.toNat ≠ 0 := fun h => hc.2 (BitVec.eq_of_toNat_eq h)
    simpa [opsOf] using repeated_ne_nil hc.1 hn
  | drawPixel x y color => simp [opsOf, windowLogicalOps, pack_ne_nil]
  | fillRect x y w h color =>
    simp only [opsOf]
    cases hb : clip s.geom x.toInt y.toInt w.toNat h.toNat with
    | none => simp
    | some box =>
      obtain ⟨-, -, -, hx, hy⟩ := clip_some hb
      simpa [windowLogicalOps] using repeated_ne_nil (pack_ne_nil _ color) (ClipBox.count_ne_zero hx hy)
  | setRotation r =>
    have hr : r.toNat < 4 := by simpa [storesGpio] using hs
    simp [opsOf, hr]
  | _ => simp [opsOf, windowLogicalOps, halfBytes]

/-- The operations of a storing request are some. -/
theorem opsOf_ne_nil (s : State) (i : Instr) (hs : storesGpio s i = true) (hb : isBusInstr i = false) :
    opsOf s i ≠ [] := by
  cases i with
  | fillRect x y w h color =>
    simp only [storesGpio, Option.isSome_iff_exists] at hs
    obtain ⟨box, hb⟩ := hs
    simp [opsOf, hb]
  | setRotation r =>
    have hr : r.toNat < 4 := by simpa [storesGpio] using hs
    simp [opsOf, hr]
  | _ => simp_all [opsOf, storesGpio, isBusInstr, encode, windowLogicalOps]

/-- A storing request: the guard, then its operations and its record (R171, R344). -/
theorem exec_storing {s : State} {i : Instr} (hf : s.fault = none) (hs : storesGpio s i = true)
    (hb : isBusInstr i = false) :
    exec i s = s.guarded (({ s with geom := geomAfter s i }.perform
      ((opsOf s i).flatMap (LogicalOp.gpio s.cfg.pins s.lut))).respond i .none) := by
  cases i with
  | writeDataBurst data =>
    have hd : data ≠ [] := by simpa [storesGpio] using hs
    simp [exec, execWriteDataBurst, State.whenRunning_of_none hf, hd, opsOf, geomAfter, sendBurst_ops]
  | writeDataRepeat pat count =>
    have hc : pat ≠ [] ∧ count ≠ 0#32 := by simpa [storesGpio] using hs
    simp [exec, execWriteDataRepeat, State.whenRunning_of_none hf, hc, opsOf, geomAfter, sendBurst_ops]
  | drawPixel x y color =>
    have ho : onScreen s.geom x.toInt y.toInt = true := hs
    simp [exec, execDrawPixel, State.whenRunning_of_none hf, ho, opsOf, geomAfter, sendBurst_ops,
      sendWindow_ops, State.perform_perform]
  | fillRect x y w h color =>
    simp only [storesGpio, Option.isSome_iff_exists] at hs
    obtain ⟨box, hb⟩ := hs
    simp [exec, execFillRect, State.whenRunning_of_none hf, hb, opsOf, geomAfter, sendBurst_ops,
      ClipBox.windowOps, windowOps_ops, State.perform_perform]
  | setRotation r =>
    have hr : r.toNat < 4 := by simpa [storesGpio] using hs
    simp [exec, execSetRotation, State.whenRunning_of_none hf, hr, opsOf, geomAfter, sendBurst_ops,
      sendCommand_ops, State.perform_perform]
  | setScrollArea tfa vsa bfa =>
    have hr : tfa.toNat + vsa.toNat + bfa.toNat = s.params.scrollRows.toNat := by simpa [storesGpio] using hs
    simp [exec, execSetScrollArea, State.whenRunning_of_none hf, hr, opsOf, geomAfter, sendBurst_ops,
      sendCommand_ops, State.perform_perform]
  | setScrollStart vsp =>
    simp [exec, execSetScrollStart, State.whenRunning_of_none hf, opsOf, geomAfter, sendBurst_ops,
      sendCommand_ops, State.perform_perform]
  | writeCommand c =>
    simp [exec, execWriteCommand, State.whenRunning_of_none hf, opsOf, geomAfter, sendCommand_ops]
  | writeData d =>
    simp [exec, execWriteData, State.whenRunning_of_none hf, opsOf, geomAfter, sendBurst_ops]
  | setWindow x0 y0 x1 y1 =>
    simp [exec, execSetWindow, State.whenRunning_of_none hf, opsOf, geomAfter, sendWindow_ops]
  | _ => simp_all [storesGpio, isBusInstr, encode]

/-! ### Requests that make no store -/

/-- A request that does not store and does not sample touch: it may renew the table or the calibration, and it
completes (R142, R202, R302 to R304, R333, R344). -/
theorem exec_silent {s : State} {i : Instr} (hf : s.fault = none) (hs : storesGpio s i = false)
    (ht : samplesTouch i = false) :
    ∃ (u : State) (st : Status) (r : Results), exec i s = .next (u.complete i st r) ∧
      ((u = s ∧ (st = .ok ∨ (st = .protocolPrecondition ∧ r = .none ∧ mayFailPrecondition i = true))) ∨
       (u = s.buildTable ∧ st = .ok) ∨
       (∃ cx cy auto, u = { s with touch := { s.touch with calX := cx, calY := cy, autocal := auto } } ∧
         st = .ok ∧ (axisValid s.touch.calX = true → axisValid cx = true) ∧
         (axisValid s.touch.calY = true → axisValid cy = true))) := by
  cases i with
  | buildLut =>
    exact ⟨_, .ok, .none, by simp [exec, execBuildLut, State.whenRunning_of_none hf, State.respond],
      .inr (.inl ⟨rfl, rfl⟩)⟩
  | writeDataBurst data =>
    have hd : data = [] := by simpa [storesGpio] using hs
    exact ⟨s, .ok, .none, by simp [exec, execWriteDataBurst, State.whenRunning_of_none hf, hd, State.respond],
      .inl ⟨rfl, .inl rfl⟩⟩
  | writeDataRepeat pat count =>
    have hc : pat = [] ∨ count = 0#32 := by
      by_cases hp : pat = []
      · exact .inl hp
      · simpa [storesGpio, hp] using hs
    exact ⟨s, .ok, .none, by simp [exec, execWriteDataRepeat, State.whenRunning_of_none hf, hc, State.respond],
      .inl ⟨rfl, .inl rfl⟩⟩
  | drawPixel x y color =>
    have ho : onScreen s.geom x.toInt y.toInt = false := hs
    exact ⟨s, .ok, .none, by simp [exec, execDrawPixel, State.whenRunning_of_none hf, ho, State.respond],
      .inl ⟨rfl, .inl rfl⟩⟩
  | fillRect x y w h color =>
    have hb : clip s.geom x.toInt y.toInt w.toNat h.toNat = none := by simpa [storesGpio] using hs
    exact ⟨s, .ok, .none, by simp [exec, execFillRect, State.whenRunning_of_none hf, hb, State.respond],
      .inl ⟨rfl, .inl rfl⟩⟩
  | colorRgb r g b =>
    exact ⟨s, .ok, _, by simp [exec, execColorRgb, State.whenRunning_of_none hf, State.respond]; rfl,
      .inl ⟨rfl, .inl rfl⟩⟩
  | setRotation r =>
    have hr : ¬r.toNat < 4 := by simpa [storesGpio] using hs
    exact ⟨s, .protocolPrecondition, .none,
      by simp [exec, execSetRotation, State.whenRunning_of_none hf, hr, State.raise],
      .inl ⟨rfl, .inr ⟨rfl, rfl, rfl⟩⟩⟩
  | setScrollArea tfa vsa bfa =>
    have hr : ¬tfa.toNat + vsa.toNat + bfa.toNat = s.params.scrollRows.toNat := by simpa [storesGpio] using hs
    exact ⟨s, .protocolPrecondition, .none,
      by simp [exec, execSetScrollArea, State.whenRunning_of_none hf, hr, State.raise],
      .inl ⟨rfl, .inr ⟨rfl, rfl, rfl⟩⟩⟩
  | touchSetCal xmin xmax xdir ymin ymax ydir =>
    cases hc : calibrationOf xmin xmax xdir ymin ymax ydir with
    | none =>
      exact ⟨s, .protocolPrecondition, .none,
        by simp [exec, execTouchSetCal, State.whenRunning_of_none hf, hc, State.raise],
        .inl ⟨rfl, .inr ⟨rfl, rfl, rfl⟩⟩⟩
    | some c =>
      obtain ⟨cx, cy⟩ := c
      refine ⟨_, .ok, .none, by simp [exec, execTouchSetCal, State.whenRunning_of_none hf, hc, State.respond],
        .inr (.inr ⟨cx, cy, s.touch.autocal, rfl, rfl, fun _ => ?_, fun _ => ?_⟩)⟩
      all_goals
        unfold calibrationOf at hc
        split at hc
        · rename_i hlt
          split at hc
          · cases hc
            simp [axisValid, hlt]
          · cases hc
        · cases hc
  | touchSetAutocal en =>
    exact ⟨_, .ok, .none, by simp [exec, execTouchSetAutocal, State.whenRunning_of_none hf, State.respond],
      .inr (.inr ⟨s.touch.calX, s.touch.calY, en.getLsbD 0, rfl, rfl, id, id⟩)⟩
  | touchGetCal =>
    exact ⟨s, .ok, _, by simp [exec, execTouchGetCal, State.whenRunning_of_none hf, State.respond]; rfl,
      .inl ⟨rfl, .inl rfl⟩⟩
  | _ => simp_all [storesGpio, samplesTouch]

/-! ### Bus words -/

/-- Every bus word is one cycle of its byte. -/
theorem exec_busCommand {s : State} {i : Instr} {c : Byte} (h : busCommandByte i = some c) :
    exec i s = s.busCommandCycle c := by
  cases i <;> cases h <;> rfl

theorem busInstr_cases {i : Instr} (h : isBusInstr i = true) :
    (∃ c, busCommandByte i = some c) ∨ ∃ d, i = .busData d := by
  cases i <;> simp_all [isBusInstr, encode, busCommandByte]

/-- The stores of a bus word's cycle (R165 to R167; logs 3, 4). -/
def cycleOf (s : State) : Instr → List GpioStore
  | .busData d => dataCycle s.cfg.pins s.lut d ++ releaseUnless (dataNext s.busQueue.tail) s.cfg.pins
  | i => commandOp s.cfg.pins s.lut ((busCommandByte i).getD 0)

theorem exec_busWord {s : State} {i : Instr} (hf : s.fault = none) (hb : isBusInstr i = true) :
    exec i s = s.guarded (s.perform (cycleOf s i)).popBusWord := by
  rcases busInstr_cases hb with ⟨c, hc⟩ | ⟨d, rfl⟩
  · rw [exec_busCommand hc, State.busCommandCycle, State.whenRunning_of_none hf]
    cases i <;> cases hc <;> rfl
  · rw [exec, execBusData, State.busDataCycle, State.whenRunning_of_none hf]
    rfl

/-! ### Every instruction -/

theorem exec_fault {s t : State} {i : Instr} (h : exec i s = .next t) : s.fault = none := by
  cases hf : s.fault with
  | none => rfl
  | some c =>
    have : exec i s = .fault (.halted c) := by
      cases i <;> exact State.whenRunning_of_some hf _
    rw [this] at h
    cases h

end Sys2Proof.Machine
end

