-- ==== Sys2Proof/Laws/PerInstr.lean ====
section
/-! SUPPORT. Per-instruction families, one lemma per constructor. `EncodeLength`: an encoded request has its
frame length and is never empty; a bus word is no frame of the stream (30_encoding.md R102, R103, R109). -/

namespace Sys2Proof.Laws.EncodeLength

/-- The length of the encoding. -/
def Statement (i : Instr) : Prop :=
  (encode i).bytes.length = frameLength i ∧ (0 < frameLength i ↔ ∃ bs, encode i = .frame bs)

theorem buildLut : Statement .buildLut :=
  ⟨rfl, by simp [encode, frameLength]⟩

theorem writeCommand (cmd : Byte) : Statement (.writeCommand cmd) :=
  ⟨rfl, by simp [encode, frameLength]⟩

theorem writeData (d : Byte) : Statement (.writeData d) :=
  ⟨rfl, by simp [encode, frameLength]⟩

theorem writeDataBurst (data : List Byte) : Statement (.writeDataBurst data) :=
  by
  refine ⟨?_, by simp [encode, frameLength]⟩
  simp only [encode, Code.bytes, frameLength, List.length_append, List.length_cons, wordBytes_length]

theorem writeDataRepeat (pat : List Byte) (count : Word) : Statement (.writeDataRepeat pat count) :=
  by
  refine ⟨?_, by simp [encode, frameLength]⟩
  simp only [encode, Code.bytes, frameLength, List.length_append, List.length_cons, wordBytes_length]
  omega

theorem setWindow (x0 y0 x1 y1 : Half) : Statement (.setWindow x0 y0 x1 y1) :=
  ⟨rfl, by simp [encode, frameLength]⟩

theorem drawPixel (x y : Half) (color : Word) : Statement (.drawPixel x y color) :=
  ⟨rfl, by simp [encode, frameLength]⟩

theorem fillRect (x y w h : Half) (color : Word) : Statement (.fillRect x y w h color) :=
  ⟨rfl, by simp [encode, frameLength]⟩

theorem colorRgb (r g b : Byte) : Statement (.colorRgb r g b) :=
  ⟨rfl, by simp [encode, frameLength]⟩

theorem setRotation (r : Byte) : Statement (.setRotation r) :=
  ⟨rfl, by simp [encode, frameLength]⟩

theorem setScrollArea (tfa vsa bfa : Half) : Statement (.setScrollArea tfa vsa bfa) :=
  ⟨rfl, by simp [encode, frameLength]⟩

theorem setScrollStart (vsp : Half) : Statement (.setScrollStart vsp) :=
  ⟨rfl, by simp [encode, frameLength]⟩

theorem touchSetCal (xmin xmax : Half) (xdir : Byte) (ymin ymax : Half) (ydir : Byte) : Statement (.touchSetCal xmin xmax xdir ymin ymax ydir) :=
  ⟨rfl, by simp [encode, frameLength]⟩

theorem touchSetAutocal (en : Byte) : Statement (.touchSetAutocal en) :=
  ⟨rfl, by simp [encode, frameLength]⟩

theorem touchGetCal : Statement .touchGetCal :=
  ⟨rfl, by simp [encode, frameLength]⟩

theorem touchSample : Statement .touchSample :=
  ⟨rfl, by simp [encode, frameLength]⟩

theorem touchListen (delay : Word) : Statement (.touchListen delay) :=
  ⟨rfl, by simp [encode, frameLength]⟩

theorem reset : Statement .reset :=
  ⟨rfl, by simp [encode, frameLength]⟩

theorem sleepOut : Statement .sleepOut :=
  ⟨rfl, by simp [encode, frameLength]⟩

theorem displayOff : Statement .displayOff :=
  ⟨rfl, by simp [encode, frameLength]⟩

theorem displayOn : Statement .displayOn :=
  ⟨rfl, by simp [encode, frameLength]⟩

theorem columnAddressSet : Statement .columnAddressSet :=
  ⟨rfl, by simp [encode, frameLength]⟩

theorem pageAddressSet : Statement .pageAddressSet :=
  ⟨rfl, by simp [encode, frameLength]⟩

theorem memoryWrite : Statement .memoryWrite :=
  ⟨rfl, by simp [encode, frameLength]⟩

theorem madctl : Statement .madctl :=
  ⟨rfl, by simp [encode, frameLength]⟩

theorem pixelFormat : Statement .pixelFormat :=
  ⟨rfl, by simp [encode, frameLength]⟩

theorem vscrollDefine : Statement .vscrollDefine :=
  ⟨rfl, by simp [encode, frameLength]⟩

theorem vscrollStart : Statement .vscrollStart :=
  ⟨rfl, by simp [encode, frameLength]⟩

theorem tearingOn : Statement .tearingOn :=
  ⟨rfl, by simp [encode, frameLength]⟩

theorem tearingOff : Statement .tearingOff :=
  ⟨rfl, by simp [encode, frameLength]⟩

theorem invertOn : Statement .invertOn :=
  ⟨rfl, by simp [encode, frameLength]⟩

theorem invertOff : Statement .invertOff :=
  ⟨rfl, by simp [encode, frameLength]⟩

theorem busCommand (c : Byte) : Statement (.busCommand c) :=
  ⟨rfl, by simp [encode, frameLength]⟩

theorem busData (d : Byte) : Statement (.busData d) :=
  ⟨rfl, by simp [encode, frameLength]⟩

end Sys2Proof.Laws.EncodeLength
end

