-- ==== Sys2Proof/Laws/Step.lean ====
section
/-! SUPPORT. What a step can do when it is the machine's own move, and what a platform reset keeps of the run it
ends. -/

namespace Sys2Proof.Machine

/-! ### The machine's own move -/

theorem step_own {s s' : State} (h : OwnTurn s s') : step s = ownMove s' := by
  rcases h with ⟨hs, rfl⟩ | ⟨turns, hs, rfl⟩ <;> simp [step, hs]

/-- The turn taken from the schedule is all that an own turn changes. -/
theorem OwnTurn.eq {s s' : State} (h : OwnTurn s s') : ∃ turns, s' = { s with schedule := turns } := by
  rcases h with ⟨-, rfl⟩ | ⟨turns, -, rfl⟩
  · exact ⟨s'.schedule, rfl⟩
  · exact ⟨turns, rfl⟩

theorem exec_halted {s : State} {code : FaultCode} (h : s.fault = some code) (i : Instr) :
    exec i s = .fault (.halted code) := by
  cases i <;> exact State.whenRunning_of_some h _

theorem ownMove_halted {s : State} {code : FaultCode} (h : s.fault = some code) :
    ownMove s = .fault (.halted code) := by
  unfold ownMove
  split
  · exact exec_halted h _
  · simp [blockStep, h]

theorem ownMove_word {s : State} {w : BusWord} {ws : List BusWord} (h : s.busQueue = w :: ws) :
    ownMove s = exec (decodeBusWord w) s := by
  simp [ownMove, h]

/-- With no fault and an empty port, the own move follows what stands at pc (R338, R344). -/
theorem ownMove_frame {s : State} (hf : s.fault = none) (hq : s.busQueue = []) :
    ownMove s = match decodeFrame (s.stream.drop s.pc) with
      | .request i _ => exec i s
      | .illegal _ => .next (s.takeFault .illegalRequest)
      | .incomplete _ => .fault .incompleteFrame
      | .streamEnd => .fault .streamEnd := by
  simp only [ownMove, hq, blockStep, hf]
  rfl

/-- An own turn with no fault and an empty port follows what stands at pc; only the turn is taken away. -/
theorem step_frame {s s' : State} (h : OwnTurn s s') (hf : s.fault = none) (hq : s.busQueue = []) :
    step s = match decodeFrame (s.stream.drop s.pc) with
      | .request i _ => exec i s'
      | .illegal _ => .next (s'.takeFault .illegalRequest)
      | .incomplete _ => .fault .incompleteFrame
      | .streamEnd => .fault .streamEnd := by
  obtain ⟨turns, rfl⟩ := h.eq
  exact (step_own h).trans (ownMove_frame (s := { s with schedule := turns }) hf hq)

/-- The decoder of frames answers requests only (R2, R102). -/
theorem decodeFrame_request_kind {bs rest : List Byte} {i : Instr} (h : decodeFrame bs = .request i rest) :
    isBusInstr i = false := by
  unfold decodeFrame at h
  split at h
  · cases h
  · split at h <;> try first | (cases h; done) | (cases h; rfl) | (split at h <;> cases h; rfl)
    · unfold decodeBurst at h
      split at h
      · simp only at h
        split at h <;> cases h
        rfl
      · cases h
    · unfold decodeRepeat at h
      split at h
      · split at h
        · split at h <;> cases h
          rfl
        · cases h
      · cases h

/-! ### The record of an ended run (R357) -/

theorem storeOfEntry_entry {cfg : BusConfig} (h : cfg.outAddr ≠ cfg.setAddr) (st : GpioStore) :
    storeOfEntry cfg (st.entry cfg) = st := by
  cases st with
  | mk reg value => cases reg <;> simp [storeOfEntry, GpioStore.entry, regAddr, h.symm]

/-- With distinct addresses an entry determines its store. -/
theorem entry_injective {cfg : BusConfig} (h : cfg.outAddr ≠ cfg.setAddr) {a b : List GpioStore}
    (hab : a.map (GpioStore.entry cfg) = b.map (GpioStore.entry cfg)) : a = b := by
  have := congrArg (List.map (storeOfEntry cfg)) hab
  simpa [Function.comp_def, storeOfEntry_entry h] using this

theorem dueStores_next {s u : State} {l : List (Nat × Word)} (h : ownMove s = .next u)
    (hl : u.stores = s.stores ++ l) : s.dueStores = l := by
  simp [State.dueStores, h, hl]

theorem dueStores_none {s : State} (h : ∀ u, ownMove s ≠ .next u) : s.dueStores = [] := by
  unfold State.dueStores
  split
  · exact absurd ‹_› (h _)
  · rfl

/-- The record of the ended run, from the stores that were due. -/
theorem endedRun_of_due {s : State} {due : List GpioStore} (hd : s.dueStores = due.map (GpioStore.entry s.cfg))
    (ha : due = [] ∨ s.cfg.outAddr ≠ s.cfg.setAddr) (made : Nat) :
    s.endedRun made =
      { responses := s.responses
        stores := s.stores ++ (due.take made).map (GpioStore.entry s.cfg)
        bus := s.bus ++ traceOf s.cfg.pins s.out (due.take made) ++
          (if (outAfter s.out (due.take made)).getLsbD s.cfg.pins.cs = false ∧
              (due.take made ≠ [] ∨ s.busQueue ≠ []) then [.indeterminate] else []) } := by
  have hg : ((due.take made).map (GpioStore.entry s.cfg)).map (storeOfEntry s.cfg) = due.take made := by
    rcases ha with rfl | ha
    · simp
    · simp [Function.comp_def, storeOfEntry_entry ha]
  simp only [State.endedRun, hd, ← List.map_take, hg]
  cases due.take made <;> cases s.busQueue <;>
    cases (outAfter s.out _).getLsbD s.cfg.pins.cs <;> simp

end Sys2Proof.Machine
end

