-- ==== Sys2Proof/Laws/Touch.lean ====
section
/-! SUPPORT. What the touch sampler can do (44_touch.md): the oracle's reads, one pass of `sample()`, the
shared pins around it. -/

namespace Sys2Proof.Machine

/-! ### The oracle -/

theorem readAdc_frame (s : State) (ch : AdcChannel) :
    ∃ a d, (s.readAdc ch).2 = { s with adcIn := a, draws := d } := by
  unfold State.readAdc
  cases s.adcIn
  · exact ⟨_, _, rfl⟩
  · exact ⟨_, s.draws, rfl⟩

/-- Reads change only what the environment still has to give; there are as many values as reads (R284). -/
theorem readAdcs_frame (ch : AdcChannel) (n : Nat) (s : State) :
    (State.readAdcs ch n s).1.length = n ∧
      ∃ a d, (State.readAdcs ch n s).2 = { s with adcIn := a, draws := d } := by
  induction n generalizing s with
  | zero => exact ⟨rfl, s.adcIn, s.draws, rfl⟩
  | succ n ih =>
    obtain ⟨a, d, h⟩ := readAdc_frame s ch
    obtain ⟨hl, a', d', h'⟩ := ih (s.readAdc ch).2
    refine ⟨by simp [State.readAdcs, hl], a', d', ?_⟩
    simp only [State.readAdcs]
    rw [h', h]

/-- Reads that the environment's list covers. -/
theorem readAdcs_given (ch : AdcChannel) (s : State) (vs rest : List Half) (h : s.adcIn = vs ++ rest) :
    State.readAdcs ch vs.length s = (vs, { s with adcIn := rest }) := by
  induction vs generalizing s with
  | nil => cases s; subst h; rfl
  | cons v vs ih =>
    have h1 : s.readAdc ch = (v, { s with adcIn := vs ++ rest }) := by simp [State.readAdc, h]
    simp only [List.length_cons, State.readAdcs, h1, ih { s with adcIn := vs ++ rest } rfl]

/-! ### sample() -/

theorem TouchState.calibrate_autocal (t : TouchState) (rx ry : Half) :
    (t.calibrate rx ry).autocal = t.autocal := by
  unfold TouchState.calibrate; split <;> rfl

theorem TouchState.calibrate_sumPrev (t : TouchState) (rx ry : Half) :
    (t.calibrate rx ry).sumPrev = t.sumPrev := by
  unfold TouchState.calibrate; split <;> rfl

theorem TouchState.calibrate_phase (t : TouchState) (rx ry : Half) :
    (t.calibrate rx ry).phase = t.phase := by
  unfold TouchState.calibrate; split <;> rfl

theorem axisWiden_widens (c : AxisCal) (r : Half) :
    (axisWiden c r).min.toNat ≤ c.min.toNat ∧ c.max.toNat ≤ (axisWiden c r).max.toNat ∧
      (axisWiden c r).dir = c.dir := by
  refine ⟨?_, ?_, rfl⟩
  · simp only [axisWiden]; split
    · rename_i h; exact Nat.le_of_lt (BitVec.lt_def.1 h)
    · exact Nat.le_refl _
  · simp only [axisWiden]; split
    · rename_i h; exact Nat.le_of_lt (BitVec.lt_def.1 h)
    · exact Nat.le_refl _

theorem axisValid_iff (c : AxisCal) : axisValid c = true ↔ c.min.toNat < c.max.toNat := by
  simp [axisValid, BitVec.lt_def]

/-- How a pass may move the calibration: it widens, and not at all without auto-calibration (R293). -/
structure Widens (t t' : TouchState) : Prop where
  xmin : t'.calX.min.toNat ≤ t.calX.min.toNat
  xmax : t.calX.max.toNat ≤ t'.calX.max.toNat
  ymin : t'.calY.min.toNat ≤ t.calY.min.toNat
  ymax : t.calY.max.toNat ≤ t'.calY.max.toNat
  xdir : t'.calX.dir = t.calX.dir
  ydir : t'.calY.dir = t.calY.dir
  autocal : t'.autocal = t.autocal
  off : t.autocal = false → t'.calX = t.calX ∧ t'.calY = t.calY

theorem Widens.of_same {t t' : TouchState} (hx : t'.calX = t.calX) (hy : t'.calY = t.calY)
    (ha : t'.autocal = t.autocal) : Widens t t' :=
  ⟨by simp [hx], by simp [hx], by simp [hy], by simp [hy], by simp [hx], by simp [hy], ha, fun _ => ⟨hx, hy⟩⟩

theorem Widens.calibrate (t : TouchState) (rx ry : Half) : Widens t (t.calibrate rx ry) := by
  unfold TouchState.calibrate
  split
  · rename_i ha
    obtain ⟨h1, h2, h3⟩ := axisWiden_widens t.calX rx
    obtain ⟨h4, h5, h6⟩ := axisWiden_widens t.calY ry
    exact ⟨h1, h2, h4, h5, h3, h6, rfl, fun h => by rw [ha] at h; cases h⟩
  · exact .of_same rfl rfl rfl

theorem Widens.valid {t t' : TouchState} (h : Widens t t') :
    (axisValid t.calX = true → axisValid t'.calX = true) ∧
    (axisValid t.calY = true → axisValid t'.calY = true) := by
  simp only [axisValid_iff]
  have := h.xmin; have := h.xmax; have := h.ymin; have := h.ymax
  omega

/-- The judgement changes the sampler only; a rejection keeps the calibration and an acceptance widens it. -/
theorem judge_frame (s : State) (rx ry : Half) :
    ∃ touch, (s.judge rx ry).2 = { s with touch := touch } ∧ Widens s.touch touch ∧
      (∀ why, (s.judge rx ry).1 = .rejected why → touch.calX = s.touch.calX ∧ touch.calY = s.touch.calY) := by
  unfold State.judge
  split
  · exact ⟨_, rfl, .of_same rfl rfl rfl, fun _ _ => ⟨rfl, rfl⟩⟩
  · simp only
    split
    · exact ⟨_, rfl, Widens.calibrate { s.touch with sumPrev := _, phase := .accept } rx ry |> fun h =>
        ⟨h.xmin, h.xmax, h.ymin, h.ymax, h.xdir, h.ydir, h.autocal, h.off⟩, fun _ h => by cases h⟩
    · exact ⟨_, rfl, .of_same rfl rfl rfl, fun _ _ => ⟨rfl, rfl⟩⟩

/-- One pass changes the sampler and what the environment still has to give, and nothing else (R283, R298). -/
theorem sample_frame (s : State) :
    ∃ touch a d, s.sample.2 = { s with touch := touch, adcIn := a, draws := d } ∧ Widens s.touch touch ∧
      (∀ why, s.sample.1 = .rejected why → touch.calX = s.touch.calX ∧ touch.calY = s.touch.calY) := by
  unfold State.sample
  obtain ⟨-, a, d, hz⟩ := readAdcs_frame .z s.params.pressReads (s.setPhase .pressureCheck)
  simp only
  split
  · exact ⟨_, a, d, hz, .of_same rfl rfl rfl, fun _ _ => ⟨rfl, rfl⟩⟩
  · simp only [hz]
    obtain ⟨-, a1, d1, hx⟩ := readAdcs_frame .x s.params.touchN
      (State.setPhase { s.setPhase .pressureCheck with adcIn := a, draws := d } .sampleX)
    have hx' := hx
    simp only [State.setPhase] at hx' ⊢
    simp only [hx']
    obtain ⟨-, a2, d2, hy⟩ := readAdcs_frame .y s.params.touchN
      { s with adcIn := a1, draws := d1, touch := { s.touch with phase := .sampleY } }
    simp only [hy]
    obtain ⟨touch, hj, hw, hr⟩ := judge_frame
      { s with adcIn := a2, draws := d2, touch := { s.touch with phase := .sampleY } } (median _) (median _)
    exact ⟨touch, a2, d2, hj, ⟨hw.xmin, hw.xmax, hw.ymin, hw.ymax, hw.xdir, hw.ydir, hw.autocal, hw.off⟩, hr⟩

/-- A pass whose readings the environment's list gives: the pressure check, then the judgement of the two
medians (R286 to R289, R298). -/
theorem sample_given (s : State) (zs xs ys more : List Half) (hz : zs.length = s.params.pressReads)
    (hx : xs.length = s.params.touchN) (hy : ys.length = s.params.touchN)
    (h : s.adcIn = zs ++ xs ++ ys ++ more) :
    s.sample = if pressureOf s.params zs < s.params.pressTh then
        (.rejected .noPress, { s with adcIn := xs ++ ys ++ more, touch := { s.touch with phase := .pressureCheck } })
      else State.judge { s with adcIn := more, touch := { s.touch with phase := .sampleY } } (median xs) (median ys) := by
  have h1 := readAdcs_given .z (s.setPhase .pressureCheck) zs (xs ++ ys ++ more) (by simp [h])
  have h2 := readAdcs_given .x
    { s with adcIn := xs ++ ys ++ more, touch := { s.touch with phase := .sampleX } } xs (ys ++ more) (by simp)
  have h3 := readAdcs_given .y
    { s with adcIn := ys ++ more, touch := { s.touch with phase := .sampleY } } ys more rfl
  rw [hz] at h1
  rw [hx] at h2
  rw [hy] at h3
  unfold State.sample
  simp only [State.setPhase] at h1 h2 h3 ⊢
  simp only [h1, h2, h3]

/-! ### The pass with its shared pins (R300) -/

/-- What one pass leaves (R300): the shared pins' modes and OUT bits, the Indeterminate of a shared strobe
line, the sampler, and what the environment still has to give. -/
theorem touchPass_frame (s : State) :
    ∃ (touch : TouchState) (out : Word) (pm : Vector PinMode 32) (a : List Half) (d : Nat),
      s.touchPass.2 = { s with
        touch := touch, out := out, pinMode := pm, adcIn := a, draws := d,
        bus := s.bus ++ (if sharesStrobe s.params then [.indeterminate] else []) } ∧
      Widens s.touch touch ∧
      (∀ why, s.touchPass.1 = .rejected why → touch.calX = s.touch.calX ∧ touch.calY = s.touch.calY) ∧
      (∀ q, (sharedMask s.params).getLsbD q = false → out.getLsbD q = s.out.getLsbD q) ∧
      (s.params.restoresPins = true → out = s.out) ∧
      (∀ q, modeAt pm q = if (sharedMask s.params).getLsbD q = true then
        (if s.params.restoresPins then .output else .released) else modeAt s.pinMode q) := by
  obtain ⟨touch, a, d, hs, hw, hr⟩ := sample_frame s.releaseShared
  unfold State.touchPass
  simp only [hs]
  unfold State.settleShared
  simp only
  split
  · rename_i h0
    have h0' : sharedMask s.params = 0#32 := h0
    refine ⟨touch, s.out, _, a, d, rfl, hw, hr, fun _ _ => rfl, fun _ => rfl, fun q => ?_⟩
    simp [State.releaseShared, modeAt_setModes, h0']
  · split
    · rename_i _ hres
      have hres' : s.params.restoresPins = true := hres
      refine ⟨touch, s.out, _, a, d, rfl, hw, hr, fun _ _ => rfl, fun _ => rfl, fun q => ?_⟩
      simp only [State.releaseShared, modeAt_setModes, hres']
      split <;> simp
    · rename_i _ hres
      have hres' : s.params.restoresPins = false := by simpa [State.releaseShared] using hres
      refine ⟨touch, _, _, a, d + 1, rfl, hw, hr, fun q hq => ?_, fun h => absurd h (by simp [hres']), fun q => ?_⟩
      · have hq' : (sharedMask s.releaseShared.params).getLsbD q = false := hq
        rw [replaceBits_getLsbD, hq']
        rfl
      · simp only [State.releaseShared, modeAt_setModes, hres']
        simp

/-- After a pass that leaves shared pins Released, the guard fails (R301). -/
theorem touchPass_released (s : State) (hc : s.cfg = busConfigOf s.params) (hs : sharedMask s.params ≠ 0#32)
    (hr : s.params.restoresPins = false) : s.touchPass.2.busDriven = false := by
  obtain ⟨touch, out, pm, a, d, ht, -, -, -, -, hm⟩ := touchPass_frame s
  obtain ⟨q, hq⟩ := exists_bit_of_ne_zero hs
  rw [Bool.eq_false_iff, ne_eq, State.busDriven_iff, ht]
  intro h
  have hb : (busMask s.cfg.pins).getLsbD q = true := by rw [hc]; exact sharedMask_le _ _ hq
  have := h q hb
  simp [hm q, hq, hr] at this

/-- A pass that leaves no shared pin Released keeps the guard as it was. -/
theorem touchPass_driven (s : State) (hr : s.params.restoresPins = true ∨ sharedMask s.params = 0#32)
    (hd : s.busDriven = true) : s.touchPass.2.busDriven = true := by
  obtain ⟨touch, out, pm, a, d, ht, -, -, -, -, hm⟩ := touchPass_frame s
  rw [State.busDriven_iff] at hd ⊢
  rw [ht]
  intro q hq
  simp only [hm q]
  split
  · rename_i hq'
    rcases hr with hr | hr
    · simp [hr]
    · simp [hr] at hq'
  · exact hd q hq

/-! ### The touch requests that sample -/

/-- A request that samples makes one pass; it then completes with the sampler idle, or is a TOUCH_LISTEN that
stays for its next iteration (R305, R307). -/
theorem exec_touch {s : State} {i : Instr} (hf : s.fault = none) (ht : samplesTouch i = true) :
    ∃ t, exec i s = .next t ∧
      ((∃ r, t = (s.touchPass.2.setPhase .idle).respond i r) ∨
        (t = s.touchPass.2 ∧ ∃ delay, i = .touchListen delay)) := by
  cases i <;> try exact Bool.noConfusion ht
  case touchSample =>
    exact ⟨_, State.whenRunning_of_none hf _, .inl ⟨_, rfl⟩⟩
  case touchListen delay =>
    refine ⟨_, State.whenRunning_of_none hf _, ?_⟩
    unfold State.listenEnd
    split
    · split
      · exact .inl ⟨_, rfl⟩
      · exact .inr ⟨rfl, _, rfl⟩
    · exact .inr ⟨rfl, _, rfl⟩

/-- On a valid axis the transform is the stated formula (R291). -/
theorem axisPixel_of_lt {c : AxisCal} (h : c.min.toNat < c.max.toNat) (size r : Half) :
    axisPixel c size r =
      Int.fdiv (((r.toNat : Int) - c.min.toNat) * size.toNat) ((c.max.toNat : Int) - c.min.toNat) := by
  unfold axisPixel
  rw [if_neg]
  intro he
  rw [he] at h
  exact absurd h (Nat.lt_irrefl _)

end Sys2Proof.Machine
end

