-- ==== Sys2Proof/Machine/Assembler.lean ====
section
/-! DEFINITION. The host's side of the request interface: pseudo-instructions (30_encoding.md R113), the
assembly text of a request (R112), the initialisation sequence (43_controller_commands.md R249) and the boot
order (70_reset_and_hazards.md R377). -/

namespace Sys2Proof.Machine

/-- The pseudo-instructions (R113, R255 to R269). -/
inductive Pseudo where
  /-- `CMD c` and `CMD c, [b0, ...]`. -/
  | cmd (c : Byte) (params : List Byte)
  | reset
  | sleepOut
  | displayOff
  | displayOn
  | columnAddressSet (x0 x1 : Half)
  | pageAddressSet (y0 y1 : Half)
  | memoryWrite
  | madctl (m : Byte)
  | pixelFormat (v : Byte)
  | vscrollDefine (tfa vsa bfa : Half)
  | vscrollStart (vsp : Half)
  | tearingOn (m : Byte)
  | tearingOff
  | invertOn
  | invertOff
  /-- `DELAY ms`: no request (R352). -/
  | delay (ms : Nat)
deriving DecidableEq, Repr

/-- `CMD c, [b0, ...]`: WRITE_COMMAND, and WRITE_DATA_BURST when there are parameter bytes (R113). -/
def cmdRequests (c : Byte) (params : List Byte) : List Instr :=
  if params = [] then [.writeCommand c] else [.writeCommand c, .writeDataBurst params]

/-- The requests a pseudo-instruction expands to (R113, R255 to R269). -/
def Pseudo.expand : Pseudo → List Instr
  | .cmd c params => cmdRequests c params
  | .reset => cmdRequests 0x01 []
  | .sleepOut => cmdRequests 0x11 []
  | .displayOff => cmdRequests 0x28 []
  | .displayOn => cmdRequests 0x29 []
  | .columnAddressSet x0 x1 => cmdRequests 0x2A (halfBytes x0 ++ halfBytes x1)
  | .pageAddressSet y0 y1 => cmdRequests 0x2B (halfBytes y0 ++ halfBytes y1)
  | .memoryWrite => cmdRequests 0x2C []
  | .madctl m => cmdRequests 0x36 [m]
  | .pixelFormat v => cmdRequests 0x3A [v]
  | .vscrollDefine tfa vsa bfa => [.setScrollArea tfa vsa bfa]
  | .vscrollStart vsp => [.setScrollStart vsp]
  | .tearingOn m => cmdRequests 0x35 [m]
  | .tearingOff => cmdRequests 0x34 []
  | .invertOn => cmdRequests 0x21 []
  | .invertOff => cmdRequests 0x20 []
  | .delay _ => []

/-- The bytes of a list of requests, in stream order (R100, R101). -/
def assemble (is : List Instr) : List Byte := is.flatMap fun i => (encode i).bytes

/-- The turns of one request: the host sends its frame and the block runs it. -/
def requestTurns (i : Instr) : List Turn := [.host (.sendFrames (encode i).bytes), .block]

/-- The turns of one entry of the initialisation sequence: its requests, then the host's sleep (R249). -/
def initTurns (e : InitEntry) : List Turn :=
  (cmdRequests e.opcode e.params).flatMap requestTurns ++ [.host (.delay e.delayMs)]

/-- The parameter byte of PIXEL_FORMAT for a format (R263). -/
def colmodByte (p : Params) : PixelFormat → Byte
  | .bpp16 => p.colmod.b16
  | .bpp18 => p.colmod.b18
  | .bpp24 => p.colmod.b24

/-- Steps 3 and 4 of the boot order after construction: the profile's sequence, then the initial rotation
(R377). -/
def bootTurns (p : Params) (r : Byte) : List Turn :=
  p.initSeq.flatMap initTurns ++ requestTurns (.setRotation r)

/-! ### Assembly text (R112) -/

/-- A `bytes[n]` operand: a bracketed list. -/
def bytesText (bs : List Byte) : String :=
  "[" ++ String.intercalate ", " (bs.map fun b => toString b.toNat) ++ "]"

/-- Operands in order, decimal, separated by commas. -/
def line (mnemonic : String) (operands : List String) : String :=
  if operands = [] then mnemonic else mnemonic ++ " " ++ String.intercalate ", " operands

/-- A request in assembly syntax (R112); length fields are not written. A bus word is no request: none. -/
def assemblyText : Instr → Option String
  | .buildLut => some (line "BUILD_LUT" [])
  | .writeCommand c => some (line "WRITE_COMMAND" [toString c.toNat])
  | .writeData d => some (line "WRITE_DATA" [toString d.toNat])
  | .writeDataBurst data => some (line "WRITE_DATA_BURST" [bytesText data])
  | .writeDataRepeat pat count => some (line "WRITE_DATA_REPEAT" [bytesText pat, toString count.toNat])
  | .setWindow x0 y0 x1 y1 =>
    some (line "SET_WINDOW" [toString x0.toNat, toString y0.toNat, toString x1.toNat, toString y1.toNat])
  | .drawPixel x y color => some (line "DRAW_PIXEL" [toString x.toInt, toString y.toInt, toString color.toNat])
  | .fillRect x y w h color =>
    some (line "FILL_RECT"
      [toString x.toInt, toString y.toInt, toString w.toNat, toString h.toNat, toString color.toNat])
  | .colorRgb r g b => some (line "COLOR_RGB" [toString r.toNat, toString g.toNat, toString b.toNat])
  | .setRotation r => some (line "SET_ROTATION" [toString r.toNat])
  | .setScrollArea tfa vsa bfa =>
    some (line "SET_SCROLL_AREA" [toString tfa.toNat, toString vsa.toNat, toString bfa.toNat])
  | .setScrollStart vsp => some (line "SET_SCROLL_START" [toString vsp.toNat])
  | .touchSetCal xmin xmax xdir ymin ymax ydir =>
    some (line "TOUCH_SET_CAL"
      [toString xmin.toNat, toString xmax.toNat, toString xdir.toNat,
       toString ymin.toNat, toString ymax.toNat, toString ydir.toNat])
  | .touchSetAutocal en => some (line "TOUCH_SET_AUTOCAL" [toString en.toNat])
  | .touchGetCal => some (line "TOUCH_GET_CAL" [])
  | .touchSample => some (line "TOUCH_SAMPLE" [])
  | .touchListen delay => some (line "TOUCH_LISTEN" [toString delay.toNat])
  | .reset | .sleepOut | .displayOff | .displayOn | .columnAddressSet | .pageAddressSet
  | .memoryWrite | .madctl | .pixelFormat | .vscrollDefine | .vscrollStart | .tearingOn
  | .tearingOff | .invertOn | .invertOff | .busCommand _ | .busData _ => none

end Sys2Proof.Machine
end

