-- ==== Sys2Proof/Tests/Slice0.lean ====
section
/-! SUPPORT. Tests on the vectors of spec/95_test_vectors.md (each test names its vector), the smoke tests of
well-formedness, and the witnesses that meet the hypotheses of the statements. -/

set_option autoImplicit false
set_option Elab.async false

namespace Sys2Proof.Tests

open Sys2Proof Sys2Proof.Machine

/-! ### Helpers -/

/-- EX1's reset state with a request stream and ADC readings. -/
def ready (stream : List Byte) (adc : List Half := []) : State :=
  { State.reset with stream := stream, adcIn := adc }

/-- The same in another pixel format. -/
def readyFmt (fmt : PixelFormat) (stream : List Byte) : State :=
  { ready stream with geom := { State.reset.geom with fmt := fmt } }

/-- The same after a sample whose sum was `sum`. -/
def readyAfter (sum : Nat) (stream : List Byte) (adc : List Half) : State :=
  { ready stream adc with touch := { State.reset.touch with sumPrev := some sum } }

/-- EX1's reset state with every pin Released. -/
def released (stream : List Byte) : State :=
  { ready stream with pinMode := tabulate 32 fun _ => .released }

/-- EX1b: touch XP on data pin 12 and XM on DC. -/
def ex1b : Params := { ex1 with touchPins := { ex1.touchPins with xp := 12, xm := 2 } }

/-- EX1b's reset state. -/
def readyB (stream : List Byte) (adc : List Half := []) : State :=
  { construct ex1b ex1Env with stream := stream, adcIn := adc }

/-- EX1c: touch XP on CS, pins restored. -/
def readyC (stream : List Byte) (adc : List Half := []) : State :=
  { construct { ex1 with touchPins := { ex1.touchPins with xp := 15 }, restoresPins := true } ex1Env with
    stream := stream, adcIn := adc }

/-- A field of the state after one step. -/
def got {α : Type} (f : State → α) (s : State) : Option α := (s.after 1).map f

/-- There is a next state. -/
def isNext (r : Result) : Bool :=
  match r with
  | .next _ => true
  | _ => false

/-- Why there is no next state. -/
def stopOf (r : Result) : Option (Fault ⊕ Refusal) :=
  match r with
  | .next _ => none
  | .fault f => some (.inl f)
  | .refused f => some (.inr f)

theorem next_of_isNext {r : Result} (h : isNext r = true) : ∃ t, r = .next t := by
  cases r with
  | next t => exact ⟨t, rfl⟩
  | fault _ => cases h
  | refused _ => cases h

/-! ### Well-formedness refuses what has no encoding -/

theorem test_wf_refuses_burst_too_long (data : List Byte) (h : data.length = 2 ^ 32) :
    (Instr.writeDataBurst data).wf = false := by
  simp [Instr.wf, h]

theorem test_wf_refuses_pattern_too_long : (Instr.writeDataRepeat (List.replicate 256 0) 1).wf = false := by
  decide +kernel

theorem test_wf_refuses_named_command : (Instr.busCommand 0x29).wf = false ∧ (Instr.busCommand 0x00).wf = true := by
  decide

/-! ### Decoding: words written from the encoding tables of 30_encoding.md -/

/-- R102, the bus and window families. -/
theorem test_decode_bus_requests :
    [[0x01], [0x02, 0x29], [0x03, 0xA5], [0x04, 0, 0, 0, 2, 0x00, 0x09],
      [0x05, 0x03, 0x01, 0x02, 0x04, 0, 0, 0, 1], [0x06, 0, 1, 0, 2, 0, 9, 1, 8],
      [0x07, 0xFF, 0xFF, 0, 5, 0x12, 0x34, 0x56, 0x78],
      [0x08, 0xFF, 0xFB, 0x80, 0, 0, 0x0A, 0xFF, 0xFF, 0, 0, 0, 0x1F],
      [0x09, 0x12, 0x34, 0x56]].map (fun bs => decode (.frame bs)) =
    [some .buildLut, some (.writeCommand 0x29), some (.writeData 0xA5), some (.writeDataBurst [0x00, 0x09]),
      some (.writeDataRepeat [1, 2, 4] 1), some (.setWindow 1 2 9 264),
      some (.drawPixel 0xFFFF 5 0x12345678), some (.fillRect 0xFFFB 0x8000 10 0xFFFF 0x1F),
      some (.colorRgb 0x12 0x34 0x56)] := by decide

/-- R102, the controller and touch families. -/
theorem test_decode_controller_requests :
    [[0x0A, 0x01], [0x0B, 0, 0x10, 1, 0x20, 0, 0x11], [0x0C, 0x01, 0x90],
      [0x10, 0x00, 0x64, 0x00, 0xC8, 0x01, 0x00, 0x32, 0x01, 0x00, 0x03], [0x11, 0xFE], [0x12], [0x13],
      [0x14, 0x00, 0x01, 0x02, 0x0A]].map (fun bs => decode (.frame bs)) =
    [some (.setRotation 1), some (.setScrollArea 16 288 17), some (.setScrollStart 400),
      some (.touchSetCal 100 200 1 50 256 3), some (.touchSetAutocal 0xFE), some .touchGetCal,
      some .touchSample, some (.touchListen 0x0001020A)] := by decide

/-- R109, R110, R255 to R270: bit 8 is DC. -/
theorem test_decode_bus_words :
    [0x001, 0x011, 0x028, 0x029, 0x02A, 0x02B, 0x02C, 0x036, 0x03A, 0x033, 0x037, 0x035, 0x034, 0x021, 0x020,
      0x000, 0x129].map decodeBusWord =
    [.reset, .sleepOut, .displayOff, .displayOn, .columnAddressSet, .pageAddressSet, .memoryWrite, .madctl,
      .pixelFormat, .vscrollDefine, .vscrollStart, .tearingOn, .tearingOff, .invertOn, .invertOff,
      .busCommand 0x00, .busData 0x29] := by decide

/-- R105: the first and last bytes of each range of the opcode map. -/
theorem test_decode_opcode_edges :
    [0x00, 0x0D, 0x0F, 0x15, 0xFF].map (fun op : Byte => decodeFrame [op]) =
      [.illegal 0x00, .illegal 0x0D, .illegal 0x0F, .illegal 0x15, .illegal 0xFF] ∧
    [0x0C, 0x10, 0x14].map (fun op : Byte => decodeFrame [op]) =
      [.incomplete 0x0C, .incomplete 0x10, .incomplete 0x14] := by decide

/-! ### Bus requests -/

/-- §1: entries of the EX1 table. -/
theorem test_table_entries :
    [0x00, 0xA5, 0x5A, 0xF8, 0xFF].map (lutAt State.reset.lut) =
      [0x00240024, 0x04255024, 0x0A262024, 0x0A274024, 0x0E277024] := by decide +kernel

/-- V12: the rebuilt baseline after EXT_OUT cleared pin 21. -/
theorem test_build_lut_captures_baseline :
    got State.base { ready [0x01] with out := 0x00048030 } = some 0x00040024 := by decide +kernel

/-- V14. -/
theorem test_write_command_stores :
    got State.stores (ready [0x02, 0x29]) = some [(0x1004, 0x02251020), (0x1008, 0x10), (0x1008, 0x8000)] ∧
    got State.bus (ready [0x02, 0x29]) = some [.csBegin, .cmd 0x29, .csEnd] := by decide +kernel

/-- V17. -/
theorem test_write_data_stores :
    got State.stores (ready [0x03, 0xA5]) = some [(0x1004, 0x04255024), (0x1008, 0x10), (0x1008, 0x8000)] ∧
    got State.out (ready [0x03, 0xA5]) = some 0x0425D034 := by decide +kernel

/-- V20. -/
theorem test_burst_releases_once :
    got State.stores (ready [0x04, 0, 0, 0, 2, 0x00, 0x09]) = some [(0x1004, 0x00240024), (0x1008, 0x10),
      (0x1004, 0x02241024), (0x1008, 0x10), (0x1008, 0x8000)] := by decide +kernel

/-- V22. -/
theorem test_repeat_bus :
    got State.bus (ready [0x05, 0x02, 0xF8, 0x00, 0, 0, 0, 2]) =
      some [.csBegin, .data 0xF8, .data 0x00, .data 0xF8, .data 0x00, .csEnd] := by decide +kernel

/-- V21. -/
theorem test_repeat_empty_makes_no_store :
    got (fun t => (t.stores, t.pc)) (ready [0x05, 0x02, 0xF8, 0x00, 0, 0, 0, 0]) = some ([], 8) := by decide +kernel

/-! ### Windows, pixels, fills, colours -/

/-- V24. -/
theorem test_set_window_bus :
    got State.bus (ready [0x06, 0, 9, 0, 0, 0, 0, 1, 0x3F]) =
      some (opEvents [.command 0x2A, .burst [0x00, 0x09, 0x00, 0x00], .command 0x2B,
        .burst [0x00, 0x00, 0x01, 0x3F], .command 0x2C]) := by decide +kernel

/-- V25. -/
theorem test_draw_pixel_out :
    got State.out (ready [0x07, 0, 3, 0, 5, 0, 0, 7, 0xE0]) = some 0x0825C034 ∧
    got (fun t => t.stores.length) (ready [0x07, 0, 3, 0, 5, 0, 0, 7, 0xE0]) = some 32 := by decide +kernel

/-- V26: x = -1 is dropped. -/
theorem test_draw_pixel_clips :
    got (fun t => (t.stores, t.responses)) (ready [0x07, 0xFF, 0xFF, 0, 0, 0, 0, 0xFF, 0xFF]) =
      some ([], [⟨.ok, .none⟩]) := by decide +kernel

/-- V28. -/
theorem test_pack_18 :
    [0x3FFFF, 0x3F000, 0xFC0, 0x3F, 0x4355].map (pack .bpp18) =
      [[0xFF, 0xFF, 0xF0], [0xFC, 0x00, 0x00], [0x03, 0xF0, 0x00], [0x00, 0x0F, 0xF0], [0x10, 0xD5, 0x50]] := by
  decide +kernel

/-- V29: a partial clip. -/
theorem test_fill_rect_clips :
    got (fun t => (t.stores.length, t.out))
      (ready [0x08, 0xFF, 0xFB, 0xFF, 0xFB, 0, 0x0A, 0, 0x0A, 0, 0, 0, 0x1F]) = some (128, 0x0626B034) := by
  decide +kernel

/-- V29: 24-bit. -/
theorem test_fill_rect_24 :
    got (fun t => t.bus.drop 21) (readyFmt .bpp24 [0x08, 0, 1, 0, 2, 0, 1, 0, 2, 0, 0x12, 0x34, 0x56]) =
      some (opEvents [.burst [0x12, 0x34, 0x56, 0x12, 0x34, 0x56]]) := by decide +kernel

/-- V30, the last rows. -/
theorem test_color_rgb :
    [(0x12, 0x34, 0x56), (7, 3, 7), (8, 4, 8)].map
      (fun c : Byte × Byte × Byte => (rgb .bpp16 c.1 c.2.1 c.2.2, rgb .bpp18 c.1 c.2.1 c.2.2, rgb .bpp24 c.1 c.2.1 c.2.2)) =
    [(0x11AA, 0x04355, 0x123456), (0, 0x01001, 0x070307), (0x0821, 0x02042, 0x080408)] := by decide +kernel

theorem test_color_rgb_responds :
    got State.responses (ready [0x09, 0xFF, 0, 0]) = some [⟨.ok, .color 0xF800⟩] := by decide +kernel

/-! ### Controller requests -/

/-- V34. -/
theorem test_set_rotation :
    got (fun t => (t.out, t.geom)) (ready [0x0A, 0x01]) =
      some (0x02258034, { fmt := .bpp16, rotation := 1, width := 320, height := 240 }) ∧
    got State.bus (ready [0x0A, 0x01]) = some [.csBegin, .cmd 0x36, .csEnd, .csBegin, .data 0x28, .csEnd] := by
  decide +kernel

/-- V37. -/
theorem test_set_rotation_precondition :
    got (fun t => (t.responses, t.pc, t.stores)) (ready [0x0A, 0x04]) =
      some ([⟨.protocolPrecondition, .none⟩], 2, []) := by decide +kernel

/-- V38. -/
theorem test_set_scroll_area :
    got State.bus (ready [0x0B, 0, 0x10, 1, 0x20, 0, 0x10]) =
      some (opEvents [.command 0x33, .burst [0x00, 0x10, 0x01, 0x20, 0x00, 0x10]]) := by decide +kernel

/-- V38: the sum is exact, not modulo 2^16. -/
theorem test_set_scroll_area_precondition :
    got State.responses (ready [0x0B, 0xFF, 0xFF, 0xFF, 0xFF, 0xFF, 0xFF]) =
      some [⟨.protocolPrecondition, .none⟩] := by decide +kernel

/-- V39. -/
theorem test_set_scroll_start :
    got State.stores (ready [0x0C, 0, 0x10]) = some [(0x1004, 0x04273020), (0x1008, 0x10), (0x1008, 0x8000),
      (0x1004, 0x00240024), (0x1008, 0x10), (0x1004, 0x00260024), (0x1008, 0x10), (0x1008, 0x8000)] := by
  decide +kernel

/-! ### Touch -/

/-- V50. -/
theorem test_touch_set_cal :
    got (fun t => (t.touch.calX, t.touch.calY))
      (ready [0x10, 0, 0x64, 0, 0xC8, 0x01, 0, 0x32, 0x01, 0x00, 0x02]) =
      some ({ min := 100, max := 200, dir := 1 }, { min := 50, max := 256, dir := 2 }) := by decide +kernel

/-- V50: xmin = xmax. -/
theorem test_touch_set_cal_precondition :
    got State.responses (ready [0x10, 0, 0x64, 0, 0x64, 0, 0, 0x32, 0x01, 0x00, 0]) =
      some [⟨.protocolPrecondition, .none⟩] := by decide +kernel

/-- V51. -/
theorem test_touch_set_autocal :
    got (fun t => t.touch.autocal) (ready [0x11, 0xFE]) = some false ∧
    got (fun t => t.touch.autocal) (ready [0x11, 0x03]) = some true := by decide +kernel

/-- V51. -/
theorem test_touch_get_cal :
    got State.responses (ready [0x12]) = some [⟨.ok, .calibration 8000 56000 0 8000 58000 0⟩] := by decide +kernel

/-- V40: the first sample is Noise, the second, after sum 60000, is accepted. -/
theorem test_touch_sample :
    got State.responses (ready [0x13] [5000, 30000, 30000]) = some [⟨.ok, .sample 0 3 0 0⟩] ∧
    got State.responses (readyAfter 60000 [0x13] [5000, 30000, 30000]) =
      some [⟨.ok, .sample 1 0 110 140⟩] := by decide +kernel

/-- V42 and V43: NoPress after one read; Range at the bound. -/
theorem test_touch_sample_rejects :
    got (fun t => (t.responses, t.adcIn)) (ready [0x13] [500, 30000, 30000]) =
      some ([⟨.ok, .sample 0 1 0 0⟩], [30000, 30000]) ∧
    got State.responses (ready [0x13] [5000, 8000, 30000]) = some [⟨.ok, .sample 0 2 0 0⟩] := by decide +kernel

/-- V45 and V46. -/
theorem test_median :
    median [100, 30000, 200] = 200 ∧ median [30000, 65535, 0] = 30000 ∧ median [100, 30000] = 30000 := by decide

/-- V47, the accepted sample that widens xmax, and V48, where TOUCH_LISTEN goes on after it. -/
theorem test_touch_autocal_and_listen :
    (let s := readyAfter 90000 [0x13] [5000, 60000, 30000]
     got (fun t => (t.responses, t.touch.calX)) { s with touch := { s.touch with autocal := true } } =
      some ([⟨.ok, .sample 1 0 240 140⟩], { min := 8000, max := 60000, dir := 0 })) ∧
    (let s := readyAfter 90000 [0x14, 0, 0, 0, 0] [5000, 60000, 30000]
     got (fun t => (t.responses, t.pc)) { s with touch := { s.touch with autocal := true } } = some ([], 0)) := by
  decide +kernel

/-- V41, its second iteration. -/
theorem test_touch_listen :
    got (fun t => (t.responses, t.pc)) (readyAfter 60000 [0x14, 0, 0, 0, 0x0A] [5000, 30000, 30000]) =
      some ([⟨.ok, .point 110 140⟩], 5) := by decide +kernel

/-- V52: EX1b's shared pins stay Released, and the next store is a hazard. -/
theorem test_shared_pins_hazard :
    ((readyB [0x13, 0x02, 0x29] [5000, 30000, 30000]).after 2).map
      (fun t => (t.fault, t.responses, t.stores, t.pc)) =
      some (some .pinModeHazard, [⟨.ok, .sample 0 3 0 0⟩], [], 1) := by decide +kernel

/-- V55: EX1c. -/
theorem test_shared_strobe_indeterminate :
    ((readyC [0x13, 0x02, 0x29] [5000, 30000, 30000]).after 2).map State.bus =
      some [.indeterminate, .csBegin, .cmd 0x29, .csEnd] := by decide +kernel

/-! ### Faults, stuck runs, configuration errors, host actions -/

/-- V56 and V57. -/
theorem test_illegal_and_incomplete :
    got State.fault (ready [0x00, 0x02, 0x29]) = some (some .illegalRequest) ∧
    stopOf (step (ready [0x02])) = some (.inl .incompleteFrame) ∧
    stopOf (step (ready [0x04, 0, 0, 0, 3, 1, 2])) = some (.inl .incompleteFrame) := by decide +kernel

/-- V58. -/
theorem test_configuration_errors :
    configError { ex1 with pins := { ex1.pins with rst := 32 } } = some (.pin .rst 32) ∧
    configError { ex1 with pins := { ex1.pins with d := ex1.pins.d.set 3 12 } } = some (.pin (.d 3) 12) ∧
    configError { ex1 with pins := { ex1.pins with d := ex1.pins.d.set 0 32, cs := 12 } } =
      some (.pin (.d 0) 32) ∧
    configError { ex1 with touchPins := { ex1.touchPins with xm := 19 } } = some (.pin .xm 19) ∧
    configError { ex1 with outAddr := 0x1006 } = some .outAddr ∧
    configError { ex1 with setAddr := 0x1004 } = some .setAddr := by decide +kernel

/-- V60: PIN_RESTORE makes no store and no event. -/
theorem test_pin_restore :
    got (fun t => (t.out, t.busDriven, t.stores, t.bus))
      { released [] with schedule := [.host (.pinRestore 0x00248030)] } =
      some (0x00248030, true, [], []) := by decide +kernel

/-- V12 and V61. -/
theorem test_ext_out :
    got State.out { ready [] with schedule := [.host (.extOut 0x00200000 0)] } = some 0x00048030 ∧
    stopOf (step { ready [] with schedule := [.host (.extOut 0x00000010 0)] }) = some (.inr .extOutPremise) := by
  decide +kernel

/-- R357 and R163: a reset after the first store of SET_WINDOW is inside its first operation, one after the third
store is between two operations. -/
theorem test_platform_reset_inside_and_between_operations :
    (let s := ready [0x06, 0, 0, 0, 0, 0, 9, 0, 9]
     got (fun t => t.past.map fun r => (r.stores.length, r.bus))
       { s with schedule := [.host (.platformReset 1 ex1Env)] }) = some [(1, [.csBegin, .indeterminate])] ∧
    (let s := ready [0x06, 0, 0, 0, 0, 0, 9, 0, 9]
     got (fun t => t.past.map fun r => (r.stores.length, r.bus))
       { s with schedule := [.host (.platformReset 3 ex1Env)] }) =
      some [(3, [.csBegin, .cmd 0x2A, .csEnd])] := by decide +kernel

/-! ### Bus words through the port (words of R109; the release of CS is log 4) -/

theorem test_bus_command_words :
    [0x001, 0x011, 0x028, 0x029, 0x02A, 0x02B, 0x02C, 0x036, 0x03A, 0x033, 0x037, 0x035, 0x034, 0x021, 0x020,
      0x000].map (fun w => got State.bus { ready [] with busQueue := [w] }) =
    [0x01, 0x11, 0x28, 0x29, 0x2A, 0x2B, 0x2C, 0x36, 0x3A, 0x33, 0x37, 0x35, 0x34, 0x21, 0x20, 0x00].map
      (fun c => some [.csBegin, .cmd c, .csEnd]) := by decide +kernel

theorem test_bus_data_words :
    got State.bus { ready [] with busQueue := [0x1A5] } = some [.csBegin, .data 0xA5, .csEnd] ∧
    got State.bus { ready [] with busQueue := [0x1A5, 0x15A] } = some [.csBegin, .data 0xA5] := by decide +kernel

/-- The frames and words of the table where the host puts them. -/
theorem test_fetch_word :
    decodeTableWord 8 0x13 = some .touchSample ∧ decodeTableWord 16 0x29 = some .displayOn ∧
    got State.bus (State.reset.withFetchWord 16 0x129) = some [.csBegin, .data 0x29, .csEnd] := by decide +kernel

/-! ### Witnesses: a state and operands that meet the hypotheses of each statement -/

/-- EX1b's reset state with a TOUCH_SAMPLE to run and readings that pass every check but the noise check. -/
def shared : State := readyB [0x13] [5000, 30000, 30000]

/-- It meets the invariant: the witness of every statement that assumes it. -/
theorem shared_inv : shared.Inv := by
  have hce : configError ex1b = none := by decide +kernel
  refine ⟨rfl, rfl, ?_, by decide +kernel, by decide +kernel, by decide +kernel,
    fun _ => ⟨⟨resetOut (busConfigOf ex1b).pins ex1Env.out, by decide +kernel⟩, by decide +kernel⟩,
    fun _ _ => by decide +kernel, fun h => absurd h (by decide +kernel), fun h => absurd rfl h, Nat.zero_le _,
    fun e he => by cases he⟩
  intro item
  show ((configError ex1b).map FaultCode.configurationError = _) ↔ configError ex1b = _
  rw [hce]
  simp

theorem ex1b_pins : PinsValid (busConfigOf ex1b).pins := ⟨by decide +kernel, by decide +kernel⟩

theorem shared_table : shared.TableBuilt :=
  ⟨⟨resetOut (busConfigOf ex1b).pins ex1Env.out, by decide +kernel⟩, by decide +kernel⟩

/-- It is ready. -/
theorem shared_ready : shared.Ready :=
  ⟨by decide +kernel, ex1b_pins, shared_table, by decide +kernel, by decide +kernel, by decide +kernel,
    by decide +kernel, by decide +kernel, by decide +kernel⟩

/-- The state the touch witnesses use: after sum 60000, readings that pass every check. -/
def touching (adc : List Half) : State := readyAfter 60000 [] adc

theorem witness_DecodeOfEncodeIsTheInstruction :
    (Instr.writeDataRepeat (List.replicate 255 0xFF) 0xFFFFFFFF).wf = true ∧ (Instr.busCommand 0xFF).wf = true := by
  decide +kernel

theorem witness_FramesDecodeInStreamAndOnlyWhole :
    ∃ frame : List Byte, (Instr.writeDataBurst [7]).wf = true ∧ encode (.writeDataBurst [7]) = .frame frame ∧
      ∃ n, 0 < n ∧ n < frame.length :=
  ⟨[0x04, 0, 0, 0, 1, 7], by decide +kernel, by decide +kernel, 5, by decide, by decide⟩

theorem witness_DecodedWordsEncodeBack : decodeFrame [0x03, 0xA5, 0x01] = .request (.writeData 0xA5) [0x01] := by
  decide

theorem witness_StepRunsTheDecodedInstruction :
    (let s := ready [0x01]
     OwnTurn s s ∧ s.fault = none ∧ s.busQueue = [] ∧ decodeFrame (s.stream.drop s.pc) = .request .buildLut []) ∧
    (let s := { ready [0x01] with schedule := [.block], busQueue := [0x1FF] }
     OwnTurn s { s with schedule := [] } ∧ s.fault = none ∧ s.busQueue = 0x1FF :: []) ∧
    ∃ t, blockStep (ready [0x01]) = .next t :=
  ⟨⟨.inl ⟨rfl, rfl⟩, by decide +kernel⟩, ⟨.inr ⟨[], rfl, rfl⟩, by decide +kernel⟩,
    next_of_isNext (by decide +kernel)⟩

theorem witness_IllegalOpcodeTakesIllegalRequest :
    ∀ op ∈ ([0x00, 0x0D, 0x0F, 0x15, 0xFF] : List Byte),
      let s := { ready [op] with schedule := [.block] }
      OwnTurn (ready [op]) (ready [op]) ∧ OwnTurn s { s with schedule := [] } ∧ s.fault = none ∧ s.busQueue = [] ∧
      s.stream.drop s.pc = op :: [] ∧
      (op.toNat = 0 ∨ (0x0D ≤ op.toNat ∧ op.toNat ≤ 0x0F) ∨ 0x15 ≤ op.toNat) := by
  intro op hop
  refine ⟨.inl ⟨rfl, rfl⟩, .inr ⟨[], rfl, rfl⟩, rfl, rfl, rfl, ?_⟩
  revert op
  decide

theorem witness_NoStepWhenHaltedIncompleteOrFinal :
    (let s := { ready [] with fault := some .pinModeHazard }
     OwnTurn s s ∧ s.fault = some .pinModeHazard) ∧
    (let s := { ready [0x14, 0, 0, 0] with schedule := [.block] }
     OwnTurn s { s with schedule := [] } ∧ s.fault = none ∧ s.busQueue = [] ∧
     decodeFrame (s.stream.drop s.pc) = .incomplete 0x14) ∧
    (let s := { ready [0x01] with pc := 1 }
     OwnTurn s s ∧ s.fault = none ∧ s.busQueue = [] ∧ s.stream.length ≤ s.pc) :=
  ⟨⟨.inl ⟨rfl, rfl⟩, rfl⟩, ⟨.inr ⟨[], rfl, rfl⟩, by decide +kernel⟩, ⟨.inl ⟨rfl, rfl⟩, by decide +kernel⟩⟩

theorem witness_OnlyPlatformResetClearsAFault :
    ∃ s t : State, s.fault = some .illegalRequest ∧ step s = .next t :=
  ⟨{ ready [] with fault := some .illegalRequest, schedule := [.host (.sendFrames [0x01])] }, _, rfl, rfl⟩

theorem witness_ConstructionLeavesResetValues : configError ex1b = none := by decide +kernel

theorem witness_ConfigurationChecksNameTheFirstOffender :
    (let p : Params := { ex1 with pins := { ex1.pins with rst := 32 } }
     busPinFields p.pins = (busPinFields p.pins).take 12 ++ (.rst, 32) :: [] ∧
     (∀ x ∈ (busPinFields p.pins).take 12, 0 ≤ x.2 ∧ x.2 ≤ 31 ∧ x.2 ∈ p.validPins) ∧
     ¬(0 ≤ (32 : Int) ∧ (32 : Int) ≤ 31 ∧ (32 : Int) ∈ p.validPins)) ∧
    (let p : Params := { ex1 with pins := { ex1.pins with rst := 12 } }
     (∀ x ∈ busPinFields p.pins, 0 ≤ x.2 ∧ x.2 ≤ 31 ∧ x.2 ∈ p.validPins) ∧
     busPinFields p.pins = (busPinFields p.pins).take 12 ++ (.rst, 12) :: [] ∧
     (((busPinFields p.pins).take 12).map Prod.snd).Nodup ∧
     12 ∈ ((busPinFields p.pins).take 12).map Prod.snd) ∧
    (let p : Params := { ex1 with touchPins := { ex1.touchPins with re := -1 } }
     (∀ x ∈ busPinFields p.pins, 0 ≤ x.2 ∧ x.2 ≤ 31 ∧ x.2 ∈ p.validPins) ∧
     ((busPinFields p.pins).map Prod.snd).Nodup ∧
     touchPinFields p.touchPins = (touchPinFields p.touchPins).take 4 ++ (.re, -1) :: [] ∧
     (∀ x ∈ (touchPinFields p.touchPins).take 4, 0 ≤ x.2 ∧ x.2 ≤ 31 ∧ x.2 ∈ p.validPins) ∧
     ¬(0 ≤ (-1 : Int))) ∧
    (let p : Params := { ex1 with touchPins := { ex1.touchPins with ym := 19 } }
     (∀ x ∈ busPinFields p.pins, 0 ≤ x.2 ∧ x.2 ≤ 31 ∧ x.2 ∈ p.validPins) ∧
     ((busPinFields p.pins).map Prod.snd).Nodup ∧
     (∀ x ∈ touchPinFields p.touchPins, 0 ≤ x.2 ∧ x.2 ≤ 31 ∧ x.2 ∈ p.validPins) ∧
     panelPinFields p.touchPins = (panelPinFields p.touchPins).take 3 ++ (.ym, 19) :: [] ∧
     (((panelPinFields p.touchPins).take 3).map Prod.snd).Nodup ∧
     19 ∈ ((panelPinFields p.touchPins).take 3).map Prod.snd) := by decide +kernel

theorem witness_ConfigurationChecksNameTheFirstOffender_addresses :
    let p := ex1
    (∀ x ∈ busPinFields p.pins, 0 ≤ x.2 ∧ x.2 ≤ 31 ∧ x.2 ∈ p.validPins) ∧
    ((busPinFields p.pins).map Prod.snd).Nodup ∧
    (∀ x ∈ touchPinFields p.touchPins, 0 ≤ x.2 ∧ x.2 ≤ 31 ∧ x.2 ∈ p.validPins) ∧
    ((panelPinFields p.touchPins).map Prod.snd).Nodup ∧
    (p.outAddr % 4 = 0 ∧ p.outAddr < 2 ^ p.addrBits) ∧ (p.setAddr % 4 = 0 ∧ p.setAddr < 2 ^ p.addrBits) ∧
    p.outAddr ≠ p.setAddr ∧ ¬(0x1006 % 4 = 0) ∧ ¬(2 ^ 32 < 2 ^ p.addrBits) := by decide +kernel

theorem witness_FailedConstructionNeverSteps :
    configError { ex1 with outAddr := 0x1006 } = some .outAddr := by decide +kernel

theorem witness_ConstructionMeetsTheInvariant :
    axisValid { min := 0, max := 1, dir := 3 } = true ∧ axisValid { min := 65534, max := 65535, dir := 0 } = true ∧
    configError { ex1 with
      cal0X := { min := 0, max := 1, dir := 3 }, cal0Y := { min := 65534, max := 65535, dir := 0 } } = none := by
  decide +kernel

theorem witness_EveryStepKeepsTheInvariant : ∃ s t : State, s.Inv ∧ step s = .next t :=
  have ⟨t, h⟩ := next_of_isNext (r := step shared) (by decide +kernel)
  ⟨_, t, shared_inv, h⟩

theorem witness_BuildLutBuildsTheTable : (ready []).fault = none := by decide

theorem witness_TableEntriesDecodeToTheirByte : PinsValid (busConfigOf ex1b).pins := ex1b_pins

theorem witness_TableWordsHaveControlBits : PinsValid (busConfigOf ex1b).pins := ex1b_pins

theorem witness_TableIsInjective : PinsValid (busConfigOf ex1b).pins := ex1b_pins

theorem witness_UnownedPinsOnlyReplayTheBaseline :
    ∃ s t : State, s.Inv ∧ exec (.writeData 0) s = .next t ∧
      (21 < 32 ∧ (busMask s.cfg.pins).getLsbD 21 = false) ∧ (31 < 32 ∧ (busMask s.cfg.pins).getLsbD 31 = false) :=
  have ⟨t, h⟩ := next_of_isNext (r := exec (.writeData 0) shared) (by decide +kernel)
  ⟨_, t, shared_inv, h, by decide +kernel, by decide +kernel⟩

theorem witness_CyclesLatchTheirByte :
    let s := shared
    PinsValid s.cfg.pins ∧ s.TableBuilt ∧ s.base.getLsbD s.cfg.pins.rd = true ∧
    s.base.getLsbD s.cfg.pins.rst = true ∧ (0x00240024 : Word).getLsbD s.cfg.pins.cs = false :=
  ⟨ex1b_pins, shared_table, by decide +kernel, by decide +kernel, by decide +kernel⟩

theorem witness_EdgesWithoutAndWithIndeterminateEvents :
    let pins := (busConfigOf ex1b).pins
    let bitOf (w : Word) (q : Nat) := w.getLsbD q
    PinsValid pins ∧
    -- CS unchanged and WR falling
    (bitOf 0x00240034 pins.cs = bitOf 0x00240024 pins.cs ∧
      ¬(bitOf 0x00240034 pins.wr = false ∧ bitOf 0x00240024 pins.wr = true)) ∧
    -- CS high throughout and WR rising
    (bitOf 0x00248024 pins.cs = true ∧ bitOf 0x00248034 pins.cs = true) ∧
    -- only pin 21 changes
    (∀ q < 32, (busMask pins).getLsbD q = true → bitOf 0x00240024 q = bitOf 0x00040024 q) ∧
    -- WR rising with CS falling, and WR rising with CS low and a data pin changing
    (bitOf 0x00248024 pins.wr = false ∧ bitOf 0x00240034 pins.wr = true ∧
      bitOf 0x00248024 pins.cs ≠ bitOf 0x00240034 pins.cs) ∧
    (bitOf 0x00240024 pins.wr = false ∧ bitOf 0x00241034 pins.wr = true ∧ bitOf 0x00240024 pins.cs = false ∧
      (dataMask pins ||| bit pins.dc ||| bit pins.rd ||| bit pins.rst).getLsbD 12 = true ∧
      bitOf 0x00240024 12 ≠ bitOf 0x00241034 12) :=
  ⟨ex1b_pins, by decide +kernel, by decide +kernel, by decide +kernel, by decide +kernel, by decide +kernel⟩

theorem witness_TraceIsDeterminedByStores :
    (samplesTouch .touchSample = true ∧ ∃ t, exec .touchSample (touching [5000, 30000, 30000]) = .next t) ∧
    (samplesTouch (.busData 0) = false ∧ ∃ t, exec (.busData 0) (ready []) = .next t) :=
  ⟨⟨rfl, next_of_isNext (by decide +kernel)⟩, ⟨rfl, next_of_isNext (by decide +kernel)⟩⟩

theorem witness_RequestsKeepReadyStates :
    ∃ s t : State, s.Ready ∧ isBusInstr (.setRotation 3) = false ∧ samplesTouch (.setRotation 3) = false ∧
      exec (.setRotation 3) s = .next t :=
  have ⟨t, h⟩ := next_of_isNext (r := exec (.setRotation 3) shared) (by decide +kernel)
  ⟨_, t, shared_ready, rfl, rfl, h⟩

/-- The states of the statements about storing requests: every bus pin an output and ready, or some Released. -/
theorem witness_driven_and_released :
    (shared.fault = none ∧ shared.busDriven = true ∧ shared.Ready) ∧
    ((released []).fault = none ∧ (released []).busDriven = false) :=
  ⟨⟨by decide +kernel, by decide +kernel, shared_ready⟩, by decide +kernel, by decide +kernel⟩

theorem witness_WriteCommandSendsOneCommand :
    (shared.fault = none ∧ shared.busDriven = true) ∧
    ((released []).fault = none ∧ (released []).busDriven = false) := by decide +kernel

theorem witness_WriteDataSendsOneByte :
    (shared.fault = none ∧ shared.busDriven = true) ∧
    ((released []).fault = none ∧ (released []).busDriven = false) := by decide +kernel

theorem witness_WriteDataBurstSendsItsBytes :
    ([0xFF] : List Byte).length < 2 ^ 32 ∧ ([0xFF] : List Byte) ≠ [] ∧
    (shared.fault = none ∧ shared.busDriven = true) ∧
    ((released []).fault = none ∧ (released []).busDriven = false) := by decide +kernel

theorem witness_WriteDataRepeatSendsItsPattern :
    (List.replicate 255 (0xFF : Byte)).length < 2 ^ 8 ∧ List.replicate 255 (0xFF : Byte) ≠ [] ∧
    (0xFFFFFFFF : Word) ≠ 0 ∧
    (shared.fault = none ∧ shared.busDriven = true) ∧
    ((released []).fault = none ∧ (released []).busDriven = false) := by decide +kernel

theorem witness_PrimitivesMakeTheStatedNumberOfStores :
    shared.fault = none ∧ shared.busDriven = true ∧
    (∃ t, exec (.writeCommand 0) shared = .next t) ∧ (∃ t, exec (.writeData 0) shared = .next t) ∧
    (∃ t, exec (.writeDataBurst []) shared = .next t) ∧
    (∃ t, exec (.writeDataRepeat [1, 2] 1) shared = .next t) :=
  ⟨by decide +kernel, by decide +kernel, next_of_isNext (by decide +kernel), next_of_isNext (by decide +kernel),
    next_of_isNext (by decide +kernel), next_of_isNext (by decide +kernel)⟩

theorem witness_StoringInstructionsAreGuarded :
    (storesGpio (released []) (.drawPixel 239 319 0) = true ∧ (released []).busDriven = false ∧
      (released []).fault = none) ∧
    (storesGpio shared (.drawPixel 239 319 0) = true ∧ shared.busDriven = true) ∧
    storesGpio (released []) (.drawPixel 240 319 0) = false := by decide +kernel

theorem witness_ColorRgbRespondsWithThePackedColour :
    ∀ fmt ∈ [PixelFormat.bpp16, .bpp18, .bpp24],
      (readyFmt fmt []).fault = none ∧ (readyFmt fmt []).geom.fmt = fmt := by decide +kernel

theorem witness_SetWindowSendsTheWindow :
    (shared.fault = none ∧ shared.busDriven = true) ∧
    ((released []).fault = none ∧ (released []).busDriven = false) := by decide +kernel

theorem witness_ClipIsTheOnScreenPart :
    clip State.reset.geom (-5) (-5) 10 10 = some { x0 := 0, y0 := 0, x1 := 4, y1 := 4 } ∧
    clip State.reset.geom 239 319 65535 1 = some { x0 := 239, y0 := 319, x1 := 239, y1 := 319 } ∧
    clip State.reset.geom 240 0 5 5 = none := by decide +kernel

theorem witness_DrawPixelDrawsOnScreenPixels :
    let visible (s : State) (x y : Half) :=
      0 ≤ x.toInt ∧ x.toInt < s.geom.width.toNat ∧ 0 ≤ y.toInt ∧ y.toInt < s.geom.height.toNat
    (shared.fault = none ∧ visible shared 239 319 ∧ shared.busDriven = true) ∧
    ((released []).fault = none ∧ visible (released []) 0 0 ∧ (released []).busDriven = false) ∧
    ¬visible (released []) 240 0 ∧ ¬visible (released []) 0xFFFF 0 := by decide +kernel

theorem witness_FillRectFillsTheClippedRectangle :
    (shared.fault = none ∧ shared.busDriven = true ∧
      clip shared.geom (0x8000 : Half).toInt (0 : Half).toInt (0xFFFF : Half).toNat (1 : Half).toNat =
        some { x0 := 0, y0 := 0, x1 := 239, y1 := 0 }) ∧
    ((released []).fault = none ∧ (released []).busDriven = false ∧
      clip (released []).geom 239 319 1 1 = some { x0 := 239, y0 := 319, x1 := 239, y1 := 319 }) ∧
    clip (released []).geom 0 0 0 10 = none := by decide +kernel

theorem witness_FillScenarioEmitsAHundredPixels :
    let s := { shared with geom := { shared.geom with width := 10, height := 10 } }
    s.fault = none ∧ s.busDriven = true ∧ s.geom.fmt = .bpp16 ∧ 10 ≤ s.geom.width.toNat ∧
    10 ≤ s.geom.height.toNat := by decide +kernel

theorem witness_SetRotationRotates :
    (shared.fault = none ∧ shared.busDriven = true ∧ (3 : Fin 4).val = (3 : Byte).toNat) ∧
    ((released []).fault = none ∧ (released []).busDriven = false ∧ (0 : Fin 4).val = (0 : Byte).toNat) ∧
    3 < (4 : Byte).toNat := by decide +kernel

theorem witness_FourRotationsRestoreTheGeometry :
    (shared.Ready ∧ shared.geom.rotation = 0) ∧
    ∃ s t : State, s.Inv ∧ s.busDriven = true ∧ exec (.setRotation 0) s = .next t :=
  have ⟨t, h⟩ := next_of_isNext (r := exec (.setRotation 0) shared) (by decide +kernel)
  ⟨⟨shared_ready, by decide +kernel⟩, _, t, shared_inv, by decide +kernel, h⟩

theorem witness_SetScrollAreaChecksTheRowSum :
    let sum (tfa vsa bfa : Half) := tfa.toNat + vsa.toNat + bfa.toNat
    (shared.fault = none ∧ shared.busDriven = true ∧
      sum 160 0 160 = shared.params.scrollRows.toNat) ∧
    ((released []).fault = none ∧ (released []).busDriven = false ∧
      sum 0 320 0 = (released []).params.scrollRows.toNat ∧
      sum 0 319 0 ≠ (released []).params.scrollRows.toNat ∧
      sum 65535 65535 322 ≠ (released []).params.scrollRows.toNat) := by decide +kernel

theorem witness_SetScrollStartSendsTheStartRow :
    (shared.fault = none ∧ shared.busDriven = true) ∧
    ((released []).fault = none ∧ (released []).busDriven = false) := by decide +kernel

theorem witness_TouchSetCalReplacesTheCalibration :
    (ready []).fault = none ∧
    ((3 : Fin 4).val = (3 : Byte).toNat ∧ (0 : Half).toNat < (1 : Half).toNat ∧
      (65534 : Half).toNat < (65535 : Half).toNat) ∧
    3 < (4 : Byte).toNat ∧ (100 : Half).toNat ≤ (100 : Half).toNat := by decide +kernel

theorem witness_TouchAutocalAndReadBack : (ready []).fault = none := by decide

theorem witness_TouchSampleCompletesAndFrames :
    shared.fault = none ∧ shared.params.restoresPins = false ∧
    (sharedMask shared.params).getLsbD 12 = true ∧
    (readyC [] []).fault = none ∧ (readyC [] []).params.restoresPins = true ∧
    (sharedMask (readyC [] []).params).getLsbD 15 = true ∧
    (sharedMask (readyC [] []).params).getLsbD 12 = false := by decide +kernel

/-- Each check at the boundary value of its range. -/
theorem witness_SampleFollowsItsChecks :
    let s := touching
    ((s [999, 30000, 30000]).fault = none ∧ ([999] : List Half).length = ex1.pressReads ∧
      ([30000] : List Half).length = ex1.touchN ∧ pressureOf ex1 [999] < ex1.pressTh ∧
      ex1.pressTh ≤ pressureOf ex1 [1000]) ∧
    (∃ t, exec .touchSample (s [999, 30000, 30000]) = .next t) ∧
    (∃ t, exec .touchSample (s [1000, 8000, 30000]) = .next t) ∧
    (∃ t, exec .touchSample (s [1000, 30500, 30000]) = .next t) ∧
    (∃ t, exec .touchSample (s [1000, 30499, 30000]) = .next t) ∧
    (s []).touch.autocal = false ∧ ¬((s []).touch.calX.min.toNat < (median [8000]).toNat) ∧
    (s []).touch.sumPrev = some 60000 ∧ ¬|((60500 : Nat) : Int) - 60000| < ex1.noiseTh ∧
    |((60499 : Nat) : Int) - 60000| < ex1.noiseTh :=
  ⟨by decide +kernel, next_of_isNext (by decide +kernel), next_of_isNext (by decide +kernel),
    next_of_isNext (by decide +kernel), next_of_isNext (by decide +kernel), by decide +kernel⟩

theorem witness_SampleFollowsItsChecks_orientation :
    (-32768 : Int) ≤ -32768 ∧ (-32768 : Int) ≤ 32767 ∧ (-32768 : Int) ≤ 32767 ∧ (32767 : Int) ≤ 32767 := by decide

theorem witness_MedianIsTheUpperMiddleElement : ([100, 30000] : List Half) ≠ [] := by decide

theorem witness_CalibrationTransformIsLinear :
    (0 : Half).toNat < (1 : Half).toNat ∧ 0 < (1 : Half).toNat ∧
    ((8000 : Half).toNat < (8001 : Half).toNat ∧ (8001 : Half).toNat < (56000 : Half).toNat) := by decide

theorem witness_AutocalibrationNeverShrinks :
    samplesTouch .touchSample = true ∧ samplesTouch (.touchListen 0) = true ∧
    (∃ t, exec .touchSample { touching [5000, 30000, 30000] with
      touch := { (touching []).touch with autocal := true } } = .next t) ∧
    ∃ t, exec (.touchListen 0) (touching [5000, 30000, 30000]) = .next t :=
  ⟨rfl, rfl, next_of_isNext (by decide +kernel), next_of_isNext (by decide +kernel)⟩

/-- An accepted point on the screen, and a sample that is not accepted. -/
theorem witness_TouchListenAcceptsOnScreenPoints :
    (touching []).fault = none ∧
    (match exec .touchSample (touching [5000, 30000, 30000]) with
      | .next u => u.responses
      | _ => []) = (touching []).responses ++ [{ status := .ok, results := .sample 1 0 110 140 }] ∧
    onScreen (touching []).geom (110 : Half).toInt (140 : Half).toInt = true ∧
    (match exec .touchSample (touching [999]) with
      | .next u => u.responses
      | _ => []) = (touching []).responses ++ [{ status := .ok, results := .sample 0 1 0 0 }] := by decide +kernel

theorem witness_TouchScenarioGivesTheLinearPoint :
    let s := touching [1000, 30000, 30000]
    s.fault = none ∧ ([1000] : List Half).length = s.params.pressReads ∧ 0 < s.params.touchN ∧
    s.adcIn = [1000] ++ List.replicate s.params.touchN 30000 ++ List.replicate s.params.touchN 30000 ++ [] ∧
    s.params.pressTh ≤ pressureOf s.params [1000] ∧ 1 ≤ s.params.noiseTh ∧ s.touch.sumPrev = some 60000 ∧
    s.touch.calX = { min := 8000, max := 56000, dir := 0 } ∧
    s.touch.calY = { min := 8000, max := 58000, dir := 0 } ∧ s.geom.rotation = 0 ∧ s.params.nativeW = 240 ∧
    s.params.nativeH = 320 ∧ s.geom.width = 240 ∧ s.geom.height = 320 := by decide +kernel

theorem witness_SharedTouchPinsBlockTheBus :
    ∃ s t : State, s.Inv ∧ s.params.restoresPins = false ∧ sharedMask s.params ≠ 0#32 ∧
      samplesTouch .touchSample = true ∧ exec .touchSample s = .next t ∧ storesGpio t (.writeCommand 0x29) = true :=
  have ⟨t, h⟩ := next_of_isNext (r := exec .touchSample shared) (by decide +kernel)
  ⟨_, t, shared_inv, by decide +kernel, by decide +kernel, rfl, h, rfl⟩

theorem witness_ErrorStatusChangesOnlyTheLogAndPc :
    (match exec (.setRotation 4) (ready []) with
      | .next t => t.responses
      | _ => []) = (ready []).responses ++ [{ status := .protocolPrecondition, results := .none }] ∧
    Status.protocolPrecondition ≠ .ok := by decide +kernel

theorem witness_RequestsEndInOneOfThreeOutcomes :
    (ready []).fault = none ∧ isBusInstr .touchSample = false ∧ ∀ delay, Instr.touchSample ≠ .touchListen delay :=
  ⟨by decide, rfl, fun _ h => by cases h⟩

theorem witness_CommandWordsSendTheirByte :
    busCommandByte .invertOff = some 0x20 ∧ busCommandByte (.busCommand 0xFF) = some 0xFF ∧
    (shared.fault = none ∧ shared.busDriven = true) ∧
    ((released []).fault = none ∧ (released []).busDriven = false) ∧
    (∃ t, exec .invertOff shared = .next t) ∧ ∃ u, exec (.writeCommand 0x20) shared = .next u :=
  ⟨by decide, by decide, by decide +kernel, by decide +kernel, next_of_isNext (by decide +kernel),
    next_of_isNext (by decide +kernel)⟩

/-- The port ends after the word, goes on with a command word, and goes on with a data word. -/
theorem witness_DataWordsSendTheirByte :
    shared.fault = none ∧ shared.busDriven = true ∧
    (¬∃ w ws, { shared with busQueue := [0x100] }.busQueue.tail = w :: ws ∧ w.getLsbD 8 = true) ∧
    (¬∃ w ws, { shared with busQueue := [0x100, 0x0FF] }.busQueue.tail = w :: ws ∧ w.getLsbD 8 = true) ∧
    (∃ w ws, { shared with busQueue := [0x100, 0x100] }.busQueue.tail = w :: ws ∧ w.getLsbD 8 = true) ∧
    (released []).fault = none ∧ (released []).busDriven = false := by
  refine ⟨by decide +kernel, by decide +kernel, ?_, ?_, ⟨0x100, [], rfl, by decide⟩, by decide +kernel,
    by decide +kernel⟩
  · rintro ⟨w, ws, h, -⟩
    cases h
  · rintro ⟨w, ws, h, hw⟩
    cases h
    exact absurd hw (by decide)

theorem witness_PortBurstRefinesWriteDataBurst :
    let s := { shared with busQueue := ([0x00, 0xFF] : List Byte).map dataWord }
    s.Ready ∧ s.schedule = [] ∧ ([0x00, 0xFF] : List Byte) ≠ [] ∧
    s.busQueue = ([0x00, 0xFF] : List Byte).map dataWord :=
  have h := shared_ready
  ⟨⟨h.running, h.pins, ⟨h.table.base, h.table.lut⟩, h.baseRd, h.baseRst, h.idle, h.outRd, h.outRst, h.driven⟩,
    rfl, by decide, rfl⟩

theorem witness_HostActionsBetweenRequests :
    let s := fun a : HostAction => { ready [] with schedule := [.host a] }
    let pins := State.reset.cfg.pins
    ((s (.sendFrames [0x01])).inProgress = false ∧ (s (.sendFrames [0x01])).schedule = .host (.sendFrames [0x01]) :: []) ∧
    ((s (.pinRestore 0x00248030)).inProgress = false ∧ (0x00248030 : Word).getLsbD pins.cs = true ∧
      (0x00248030 : Word).getLsbD pins.wr = true ∧ (0x00248030 : Word).getLsbD pins.rd = true ∧
      (0x00248030 : Word).getLsbD pins.rst = true) ∧
    ((s (.extOut 0x00200000 0)).inProgress = false ∧ 0x00200000 &&& busMask pins = 0#32 ∧
      0x00000010 &&& busMask pins ≠ 0#32) ∧
    (∀ q ∈ pinList pins, q < 32) ∧ (pinList pins).Nodup ∧ (0x00240030 : Word).getLsbD pins.cs = false := by
  decide +kernel

/-- During a request: a TOUCH_LISTEN between two iterations, and words at the port. -/
theorem witness_HostActionsBetweenRequests_during :
    { touching [] with
      touch := { (touching []).touch with phase := .noiseCheck },
      schedule := [.host (.sendFrames [0x01])] }.inProgress = true ∧
    { ready [] with busQueue := [0x100], schedule := [.host (.extOut 0x00200000 0)] }.inProgress = true ∧
    { ready [] with schedule := [.host (.delay 5)] }.schedule = .host (.delay 5) :: [] := by decide +kernel

/-- A reset with one, three and more stores made of a SET_WINDOW that is due, and one with nothing due. -/
theorem witness_PlatformResetConstructsAgain :
    (let s := { shared with schedule := [.host (.platformReset 3 ex1Env)], stream := [0x06, 0, 0, 0, 0, 0, 9, 0, 9] }
     let due := windowOps s.cfg.pins s.lut 0 0 9 9
     s.schedule = .host (.platformReset 3 ex1Env) :: [] ∧ s.cfg.outAddr ≠ s.cfg.setAddr ∧ s.Ready ∧
     (∃ u, ownMove { s with schedule := [] } = .next u ∧ u.stores = s.stores ++ due.map (GpioStore.entry s.cfg)) ∧
     due.length = 27 ∧
     -- at the boundary of two operations
     (due.take 3).map (GpioStore.entry s.cfg) = [LogicalOp.command 0x2A].flatMap (LogicalOp.entries s) ∧
     -- inside the first and inside the second
     (let part := (due.take 1).map (GpioStore.entry s.cfg)
      part ≠ [] ∧ part <+: (LogicalOp.command 0x2A).entries s ∧ part ≠ (LogicalOp.command 0x2A).entries s) ∧
     (due.take 4).map (GpioStore.entry s.cfg) = [LogicalOp.command 0x2A].flatMap (LogicalOp.entries s) ++
       ((LogicalOp.burst [0, 0, 0, 9]).entries s).take 1) ∧
    ∀ u, ownMove (ready []) ≠ .next u := by
  have h := shared_ready
  refine ⟨⟨rfl, by decide +kernel, ⟨h.running, h.pins, ⟨h.table.base, h.table.lut⟩, h.baseRd, h.baseRst, h.idle,
    h.outRd, h.outRst, h.driven⟩, ?_, by decide +kernel, by decide +kernel, by decide +kernel,
    by decide +kernel⟩, ?_⟩
  · obtain ⟨u, hu⟩ := next_of_isNext
      (r := ownMove { shared with schedule := [], stream := [0x06, 0, 0, 0, 0, 0, 9, 0, 9] }) (by decide +kernel)
    refine ⟨u, hu, ?_⟩
    have hs : u.stores = (match ownMove { shared with schedule := [], stream := [0x06, 0, 0, 0, 0, 0, 9, 0, 9] } with
        | .next u => u.stores
        | _ => []) := by rw [hu]
    rw [hs]
    decide +kernel
  · intro u hu
    have : isNext (ownMove (ready [])) = false := by decide +kernel
    rw [hu] at this
    cases this

theorem witness_OnlyTheGpioRegistersAreReachable :
    let s := ready []
    s.cfg.outAddr ≠ s.cfg.setAddr ∧ ¬(s.cfg.outAddr = s.cfg.outAddr ∧ 2 = 4) ∧
    ¬(s.cfg.setAddr = s.cfg.outAddr ∧ 4 = 4) ∧
    ¬((0x100C = s.cfg.outAddr ∨ 0x100C = s.cfg.setAddr) ∧ 4 = 4) := by decide +kernel

end Sys2Proof.Tests
end

section
/-! Scope (00_scope.md R2): the machine's own move is `exec` of the decoded word, and the block runs request
operations only. -/

namespace Sys2Proof.Machine

/-- With a bus word at the port, an own turn runs the decoded word; only the turn is taken away (log 3). -/
theorem step_word {s s' : State} {w : BusWord} {ws : List BusWord} (h : OwnTurn s s') (hq : s.busQueue = w :: ws) :
    step s = exec (decodeBusWord w) s' := by
  obtain ⟨turns, rfl⟩ := h.eq
  exact (step_own h).trans (ownMove_word (s := { s with schedule := turns }) hq)

/-- With a whole frame at pc and an empty port, an own turn runs its request (R344). -/
theorem step_request {s s' : State} {i : Instr} {rest : List Byte} (h : OwnTurn s s') (hf : s.fault = none)
    (hq : s.busQueue = []) (hd : decodeFrame (s.stream.drop s.pc) = .request i rest) : step s = exec i s' := by
  simp only [step_frame h hf hq, hd]

/-- What a step of the block can do: run the request of the frame at pc, or take IllegalRequest (R338, R344). -/
theorem blockStep_next {s t : State} (h : blockStep s = .next t) :
    (∃ i rest, decodeFrame (s.stream.drop s.pc) = .request i rest ∧ exec i s = .next t) ∨
      t = s.takeFault .illegalRequest := by
  simp only [blockStep, State.pending] at h
  split at h
  case h_1 => cases h
  case h_2 =>
    split at h
    case h_1 i rest hd => exact .inl ⟨i, rest, hd, h⟩
    case h_2 => cases h; exact .inr rfl
    case h_3 => cases h
    case h_4 => cases h

/-- Settles O6: an own turn is `exec` of the word at the port or of the request at pc, and the frames the block
runs hold no bus word. -/
theorem stepRunsTheDecodedInstruction : Obligations.StepRunsTheDecodedInstruction := by
  refine ⟨fun s s' hown hf => ⟨fun w ws hq => step_word hown hq, fun hq i rest hd => step_request hown hf hq hd⟩,
    fun s t h => ?_⟩
  obtain ⟨i, rest, hd, hx⟩ | ht := blockStep_next h
  · exact .inl ⟨i, rest, hd, decodeFrame_request_kind hd, hx⟩
  · exact .inr ht

end Sys2Proof.Machine
end

section
/-! Construction (70_reset_and_hazards.md): what the checks of R371 leave of the bus pins, and the values of
R52 bit by bit. -/

namespace Sys2Proof.Machine

/-! ### The checks -/

theorem firstUnusable_eq_none (valid : List Int) (l : List (PinField × Int)) :
    firstUnusable valid l = none ↔ ∀ x ∈ l, pinUsable valid x.2 = true := by
  induction l with
  | nil => simp [firstUnusable]
  | cons x l ih => by_cases hv : pinUsable valid x.2 = true <;> simp [firstUnusable, hv, ih]

theorem firstRepeated_eq_none (seen : List Int) (l : List (PinField × Int)) :
    firstRepeated seen l = none ↔ (l.map Prod.snd).Nodup ∧ ∀ v ∈ l.map Prod.snd, v ∉ seen := by
  induction l generalizing seen with
  | nil => simp [firstRepeated]
  | cons x l ih =>
    by_cases hv : x.2 ∈ seen
    · simp [firstRepeated, hv]
    · simp only [firstRepeated, List.contains_eq_mem, hv, decide_false, Bool.false_eq_true, if_false, ih,
        List.map_cons, List.nodup_cons, List.mem_cons, forall_eq_or_imp, not_or]
      grind

/-- A configuration that passes the checks has usable and distinct bus pins (R371, steps 1 and 2). -/
theorem busPins_of_configError {p : Params} (h : configError p = none) :
    (∀ x ∈ busPinFields p.pins, pinUsable p.validPins x.2 = true) ∧
      ((busPinFields p.pins).map Prod.snd).Nodup := by
  simp only [configError, Option.or_eq_none_iff, firstUnusable_eq_none, firstRepeated_eq_none] at h
  exact ⟨h.1, h.2.1.1⟩

theorem pinUsable_bounds {valid : List Int} {v : Int} (h : pinUsable valid v = true) : 0 ≤ v ∧ v ≤ 31 := by
  simp only [pinUsable, Bool.and_eq_true, decide_eq_true_eq] at h
  exact h.1

theorem busPin_bounds {p : Params} (h : configError p = none) {v : Int}
    (hv : v ∈ (busPinFields p.pins).map Prod.snd) : 0 ≤ v ∧ v ≤ 31 := by
  obtain ⟨x, hx, rfl⟩ := List.mem_map.1 hv
  exact pinUsable_bounds ((busPins_of_configError h).1 x hx)

theorem pinList_busConfigOf (p : Params) :
    pinList (busConfigOf p).pins = ((busPinFields p.pins).map Prod.snd).map Int.toNat := rfl

/-- The pins of a configuration that passes the checks are valid (R32, R371). -/
theorem pinsValid_of_configError {p : Params} (h : configError p = none) : PinsValid (busConfigOf p).pins := by
  constructor <;> rw [pinList_busConfigOf]
  · intro q hq
    obtain ⟨v, hv, rfl⟩ := List.mem_map.1 hq
    have := busPin_bounds h hv
    omega
  · refine (busPins_of_configError h).2.map_on fun v hv w hw hvw => ?_
    have := busPin_bounds h hv
    have := busPin_bounds h hw
    omega

/-- A checked pin field of `cfg` is its parameter (R31). -/
theorem busPin_cast {p : Params} (h : configError p = none) {v : Int}
    (hv : v ∈ (busPinFields p.pins).map Prod.snd) : (v.toNat : Int) = v :=
  Int.toNat_of_nonneg (busPin_bounds h hv).1

/-! ### The values -/

theorem strobeMask_getLsbD (pins : BusPins Nat) (q : Nat) :
    (strobeMask pins).getLsbD q =
      (decide (q < 32) && (q == pins.cs || q == pins.wr || q == pins.rd || q == pins.rst)) := by
  simp only [strobeMask, BitVec.getLsbD_or, bit_getLsbD]
  by_cases h : q < 32 <;> simp [h, Bool.beq_eq_decide_eq]

/-- OUT after construction: CS, WR, RD and RST at 1, every other bit the environment's (R373). -/
theorem resetOut_getLsbD (pins : BusPins Nat) (env : Word) {q : Nat} (hq : q < 32) :
    (resetOut pins env).getLsbD q =
      if q = pins.cs ∨ q = pins.wr ∨ q = pins.rd ∨ q = pins.rst then true else env.getLsbD q := by
  rw [resetOut, BitVec.getLsbD_or, strobeMask_getLsbD]
  split
  · rename_i h
    simp [hq, or_assoc, h]
  · rename_i h
    simp_all

/-- Construction makes every bus pin an output, whether or not the checks pass (R373). -/
theorem construct_driven (p : Params) (env : ResetEnv) : (construct p env).busDriven = true := by
  rw [State.busDriven_iff]
  intro q hq
  exact (modeAt_setModes env.pinMode _ .output q).trans (if_pos hq)

theorem construct_base {p : Params} (env : ResetEnv) (h : configError p = none) :
    (construct p env).base = baseline (construct p env).cfg.pins (construct p env).out := by
  simp [construct, resetBase, h]

theorem construct_lut {p : Params} (env : ResetEnv) (h : configError p = none) :
    (construct p env).lut = tableOf (construct p env).cfg.pins (construct p env).base := by
  simp [construct, resetLut, h]

theorem construct_tableBuilt {p : Params} (env : ResetEnv) (h : configError p = none) :
    (construct p env).TableBuilt :=
  ⟨⟨_, construct_base env h⟩, construct_lut env h⟩

/-- The four strobe lines are high after a successful construction (R373). -/
theorem construct_strobes {p : Params} (env : ResetEnv) (h : configError p = none) :
    (construct p env).out.getLsbD (construct p env).cfg.pins.cs = true ∧
    (construct p env).out.getLsbD (construct p env).cfg.pins.wr = true ∧
    (construct p env).out.getLsbD (construct p env).cfg.pins.rd = true ∧
    (construct p env).out.getLsbD (construct p env).cfg.pins.rst = true := by
  obtain ⟨⟨hcs, -, hwr, hrd, hrst⟩, -⟩ := (pinsValid_of_configError h).facts
  refine ⟨(resetOut_getLsbD _ env.out hcs).trans ?_, (resetOut_getLsbD _ env.out hwr).trans ?_,
    (resetOut_getLsbD _ env.out hrd).trans ?_, (resetOut_getLsbD _ env.out hrst).trans ?_⟩ <;> simp

/-- The baseline keeps every bit of OUT off the data lines, CS, WR and DC (R141). -/
theorem baseline_other {pins : BusPins Nat} (o : Word) {p : Nat} (hp : p < 32) (hd : isDataPin pins p = false)
    (hcs : pins.cs ≠ p) (hwr : pins.wr ≠ p) (hdc : pins.dc ≠ p) :
    (baseline pins o).getLsbD p = o.getLsbD p := by
  rw [baseline_getLsbD]
  simp [hp, hd, Bool.beq_eq_decide_eq, hcs.symm, hwr.symm, hdc.symm]

/-- A successful construction is ready (R169, R373, R374). -/
theorem construct_ready {p : Params} (env : ResetEnv) (h : configError p = none) : (construct p env).Ready := by
  have hv := pinsValid_of_configError h
  obtain ⟨⟨-, -, -, lrd, lrst⟩, ⟨-, -, ncr, nct, -, ndr, ndt, nwr, nwt, -⟩, -, -, -, drd, drst⟩ := hv.facts
  obtain ⟨hcs, hwr, hrd, hrst⟩ := construct_strobes env h
  exact {
    running := by simp [construct, h]
    pins := hv
    table := construct_tableBuilt env h
    baseRd := by rw [construct_base env h]; exact (baseline_other _ lrd drd ncr nwr ndr).trans hrd
    baseRst := by rw [construct_base env h]; exact (baseline_other _ lrst drst nct nwt ndt).trans hrst
    idle := by simp [State.idle, hcs, hwr]
    outRd := hrd
    outRst := hrst
    driven := construct_driven p env }

/-- Every construction with a valid calibration parameter meets the invariant; what it says of the bus is
there once the checks pass (R52, R372). -/
theorem construct_inv (p : Params) (env : ResetEnv) (hx : axisValid p.cal0X = true)
    (hy : axisValid p.cal0Y = true) : (construct p env).Inv where
  cfg := rfl
  format := rfl
  configured item := by cases h : configError p <;> simp [construct, h]
  size := rfl
  calibrated0 := ⟨hx, hy⟩
  calibrated := ⟨hx, hy⟩
  table h := construct_tableBuilt env h
  levels h _ := ⟨(construct_strobes env h).2.1, .inl (construct_strobes env h).1⟩
  restored _ := construct_driven p env
  listening h := absurd rfl h
  pcInStream := Nat.le_refl _
  storeAddrs e he := nomatch he

/-- Settles O10: each value of R52 from the definition of construction, OUT and the modes bit by bit, the pins
and the table by the checks that passed. -/
theorem constructionLeavesResetValues : Obligations.ConstructionLeavesResetValues := by
  intro p env h
  have hpin := @busPin_cast p h
  refine ⟨⟨fun i => ?_, hpin (by simp [busPinFields]), hpin (by simp [busPinFields]),
      hpin (by simp [busPinFields]), hpin (by simp [busPinFields]), hpin (by simp [busPinFields]), rfl, rfl⟩,
    fun q hq => resetOut_getLsbD _ env.out hq, fun q _ => modeAt_setModes env.pinMode _ .output q,
    construct_base env h, fun b => ?_, rfl, rfl, rfl, (construct_ready env h).running, rfl, rfl, rfl⟩
  · fin_cases i <;> exact hpin (by simp [busPinFields])
  · rw [construct_lut env h, lutAt_tableOf]

/-- Settles O13: EX1 passes the checks and its calibration is valid. -/
theorem resetMeetsTheInvariant : Obligations.ResetMeetsTheInvariant :=
  ⟨construct_inv ex1 ex1Env (by decide) (by decide), construct_ready ex1Env (by decide +kernel)⟩

end Sys2Proof.Machine
end

section
/-! Stops and faults (10_state.md R45, 60_exceptions.md R346, R353), and what a step of the host can do (R356). -/

namespace Sys2Proof.Machine

/-- Settles O8: a set fault stops every meaning and the own move; otherwise what stands at pc decides. -/
theorem noStepWhenHaltedIncompleteOrFinal : Obligations.NoStepWhenHaltedIncompleteOrFinal := by
  refine ⟨fun s code hf => ⟨exec_halted hf, fun s' hown => ?_⟩,
    fun s s' hown hf hq => ⟨fun op hd => ?_, fun hend => ?_⟩⟩
  · obtain ⟨turns, rfl⟩ := hown.eq
    exact (step_own hown).trans (ownMove_halted (s := { s with schedule := turns }) hf)
  · simp only [step_frame hown hf hq, hd]
  · simp only [step_frame hown hf hq, List.drop_eq_nil_of_le hend, decodeFrame]

/-- What each action of the host or the environment can do (R352, R356, R357): a platform reset and DELAY always
happen; the other four happen between requests only, PIN_RESTORE and EXT_OUT under their premises. -/
inductive HostEffect (s : State) : HostAction → State → Prop where
  | platformReset (made : Nat) (env : ResetEnv) :
      HostEffect s (.platformReset made env) (s.platformReset made env)
  | delay (ms : Nat) : HostEffect s (.delay ms) s
  | sendFrames (bytes : List Byte) (between : s.inProgress = false) :
      HostEffect s (.sendFrames bytes) { s with stream := s.stream ++ bytes }
  | pinRestore (v : Word) (between : s.inProgress = false)
      (premise : v &&& strobeMask s.cfg.pins = strobeMask s.cfg.pins) :
      HostEffect s (.pinRestore v) (s.pinRestore v)
  | extOut (m v : Word) (between : s.inProgress = false) (premise : m &&& busMask s.cfg.pins = 0#32) :
      HostEffect s (.extOut m v) (s.hostOut (replaceBits s.out m v))
  | sendBusWords (ws : List BusWord) (between : s.inProgress = false) :
      HostEffect s (.sendBusWords ws) { s with busQueue := s.busQueue ++ ws }

theorem State.betweenRequests_next {s t : State} {k : Result} :
    s.betweenRequests k = .next t ↔ s.inProgress = false ∧ k = .next t := by
  cases h : s.inProgress <;> simp [State.betweenRequests, h]

theorem hostStep_next {a : HostAction} {s t : State} (h : hostStep a s = .next t) : HostEffect s a t := by
  cases a with
  | sendFrames bytes =>
    obtain ⟨hp, ht⟩ := State.betweenRequests_next.1 h
    cases ht
    exact .sendFrames bytes hp
  | pinRestore v =>
    obtain ⟨hp, ht⟩ := State.betweenRequests_next.1 h
    split at ht <;> cases ht
    exact .pinRestore v hp ‹_›
  | extOut m v =>
    obtain ⟨hp, ht⟩ := State.betweenRequests_next.1 h
    split at ht <;> cases ht
    exact .extOut m v hp ‹_›
  | platformReset made env => cases h; exact .platformReset made env
  | delay ms => cases h; exact .delay ms
  | sendBusWords ws =>
    obtain ⟨hp, ht⟩ := State.betweenRequests_next.1 h
    cases ht
    exact .sendBusWords ws hp

/-- What a step can do: the own move, or a step of the host, from the state without the turn taken (log 6). -/
theorem step_next {s t : State} (h : step s = .next t) :
    (∃ turns, ownMove { s with schedule := turns } = .next t) ∨
      ∃ a turns, s.schedule = .host a :: turns ∧ hostStep a { s with schedule := turns } = .next t := by
  unfold step at h
  split at h
  case h_1 hs => exact .inl ⟨s.schedule, h⟩
  case h_2 turns hs => exact .inl ⟨turns, h⟩
  case h_3 a turns hs => exact .inr ⟨a, turns, hs, h⟩

/-- Settles O9: the own move stops on a fault, and of the host's effects only a platform reset writes it. -/
theorem onlyPlatformResetClearsAFault : Obligations.OnlyPlatformResetClearsAFault := by
  intro s t code hf h
  obtain ⟨turns, hown⟩ | ⟨a, turns, hs, hhost⟩ := step_next h
  · rw [ownMove_halted (s := { s with schedule := turns }) hf] at hown
    cases hown
  · cases hostStep_next hhost with
    | platformReset made env => exact .inr ⟨made, env, turns, hs⟩
    | _ => exact .inl hf

end Sys2Proof.Machine
end

section
/-! What the decoder gives the machine's own move: a whole frame has its frame length (30_encoding.md R102, R103),
and a word at the port is a bus word (R109, R110). -/

namespace Sys2Proof.Machine

/-! ### Frames and words -/

theorem decodeBurst_length {bs rest : List Byte} {i : Instr} (h : decodeBurst bs = .request i rest) :
    bs.length + 1 = frameLength i + rest.length := by
  unfold decodeBurst at h
  split at h
  case h_1 n3 n2 n1 n0 r =>
    simp only at h
    split at h <;> cases h
    simp only [frameLength, List.length_cons, List.length_take, List.length_drop]
    omega
  case h_2 => cases h

theorem decodeRepeat_length {bs rest : List Byte} {i : Instr} (h : decodeRepeat bs = .request i rest) :
    bs.length + 1 = frameLength i + rest.length := by
  unfold decodeRepeat at h
  split at h
  case h_1 k r =>
    split at h
    case isFalse => cases h
    case isTrue hk =>
      split at h <;> cases h
      rename_i hr
      have hl := congrArg List.length hr
      simp only [List.length_drop, List.length_cons] at hl
      simp only [frameLength, List.length_cons, List.length_take]
      omega
  case h_2 => cases h

/-- A frame and the bytes after it are the bytes read (R102, R103). -/
theorem decodeFrame_length {bs rest : List Byte} {i : Instr} (h : decodeFrame bs = .request i rest) :
    bs.length = frameLength i + rest.length := by
  unfold decodeFrame at h
  split at h
  case h_1 => cases h
  case h_2 op r =>
    split at h
    case h_4 => exact decodeBurst_length h
    case h_5 => exact decodeRepeat_length h
    case h_1 | h_15 | h_16 => cases h; simp [frameLength, Nat.add_comm]
    case h_18 => cases h
    all_goals
      split at h <;> cases h
      simp only [frameLength, List.length_cons]
      omega

theorem decodeBusWord_isBusInstr (w : BusWord) : isBusInstr (decodeBusWord w) = true := by
  unfold decodeBusWord
  split
  · rfl
  · unfold decodeCommandByte
    split <;> rfl

/-! ### The own move -/

/-- What the own move can do, with no fault set: run the word at the port; with an empty port run the request at
pc, or take IllegalRequest (R338, R344; log 3). -/
theorem ownMove_next {s t : State} (h : ownMove s = .next t) :
    s.fault = none ∧
      ((∃ i, s.busQueue ≠ [] ∧ isBusInstr i = true ∧ exec i s = .next t) ∨
       (s.busQueue = [] ∧ ∃ i rest, decodeFrame s.pending = .request i rest ∧ exec i s = .next t) ∨
       (s.busQueue = [] ∧ (∃ op, decodeFrame s.pending = .illegal op) ∧ t = s.takeFault .illegalRequest)) := by
  cases hq : s.busQueue with
  | cons w ws =>
    rw [ownMove_word hq] at h
    exact ⟨exec_fault h, .inl ⟨_, by simp, decodeBusWord_isBusInstr w, h⟩⟩
  | nil =>
    cases hf : s.fault with
    | some code => rw [ownMove_halted hf] at h; cases h
    | none =>
      rw [ownMove_frame hf hq] at h
      split at h
      case h_1 i rest hd => exact ⟨rfl, .inr (.inl ⟨rfl, i, rest, hd, h⟩)⟩
      case h_2 op hd => cases h; exact ⟨rfl, .inr (.inr ⟨rfl, ⟨op, hd⟩, rfl⟩)⟩
      case h_3 => cases h
      case h_4 => cases h

end Sys2Proof.Machine
end

section
/-! The invariant of the machine (10_state.md R31 to R44, 41_bus_cycles.md R169): what each shared operation keeps of
it, then each kind of instruction, then a step. -/

namespace Sys2Proof.Machine

/-! ### What the invariant says of a running machine, and of an idle sampler -/

theorem State.Inv.configError_of_running {s : State} (h : s.Inv) (hf : s.fault = none) :
    configError s.params = none := by
  cases hc : configError s.params with
  | none => rfl
  | some item => rw [(h.configured item).2 hc] at hf; cases hf

theorem State.Inv.pinsValid {s : State} (h : s.Inv) (hc : configError s.params = none) : PinsValid s.cfg.pins :=
  h.cfg ▸ pinsValid_of_configError hc

/-- Unless a TOUCH_LISTEN stands at pc with no fault and an empty port, the sampler is idle (R43, R307). -/
theorem State.Inv.idle {s : State} (h : s.Inv)
    (hn : ¬(s.fault = none ∧ s.busQueue = [] ∧ ∃ delay rest,
      decodeFrame s.pending = .request (.touchListen delay) rest)) : s.touch.phase = .idle := by
  by_contra hp
  exact hn (h.listening hp)

/-- Between requests the sampler is idle (R356). -/
theorem State.Inv.idle_of_between {s : State} (h : s.Inv) (hb : s.inProgress = false) : s.touch.phase = .idle := by
  by_contra hp
  obtain ⟨hf, -⟩ := h.listening hp
  simp [State.inProgress, hf, hp] at hb

/-- A request at pc ends inside the stream. -/
theorem State.Inv.frame_in_stream {s : State} (h : s.Inv) {i : Instr} {rest : List Byte}
    (hd : decodeFrame s.pending = .request i rest) : s.pc + frameLength i ≤ s.stream.length := by
  have hl := decodeFrame_length hd
  have hpc := h.pcInStream
  simp only [State.pending, List.length_drop] at hl
  omega

/-! ### Levels (R169) -/

/-- The levels that `State.Inv.levels` asks of OUT: WR high, and CS high unless the port goes on with a burst. -/
def RestLevels (pins : BusPins Nat) (out : Word) (queue : List BusWord) : Prop :=
  out.getLsbD pins.wr = true ∧ (out.getLsbD pins.cs = true ∨ dataNext queue = true)

/-- A word with WR and CS set by stores to SET. -/
theorem restLevels_released {pins : BusPins Nat} (h : PinsValid pins) (w : Word) (queue : List BusWord) :
    RestLevels pins (w ||| bit pins.wr ||| bit pins.cs) queue := by
  obtain ⟨⟨hcs, -, hwr, -⟩, ⟨-, hcw, -⟩, -⟩ := h.facts
  exact ⟨by rw [or_bit_other hcw.symm, or_bit_self hwr], .inl (or_bit_self hcs)⟩

/-- A logical operation leaves them (R170). -/
theorem restLevels_op {s : State} (h : PinsValid s.cfg.pins) (old : Word) {op : LogicalOp} (hop : op ≠ .burst [])
    (queue : List BusWord) : RestLevels s.cfg.pins (op.outAfter s old) queue := by
  cases op with
  | command c => exact restLevels_released h _ queue
  | burst bs =>
    cases hl : bs.getLast? with
    | none => exact absurd (congrArg LogicalOp.burst (List.getLast?_eq_none_iff.1 hl)) hop
    | some b =>
      simp only [LogicalOp.outAfter, hl]
      exact restLevels_released h _ queue

/-- The operations of a storing request leave them: the last one decides. -/
theorem restLevels_ops {s : State} (h : PinsValid s.cfg.pins) (old : Word) {ops : List LogicalOp} (hne : ops ≠ [])
    (hops : ∀ op ∈ ops, op ≠ .burst []) (queue : List BusWord) :
    RestLevels s.cfg.pins (outAfter old (ops.flatMap (LogicalOp.gpio s.cfg.pins s.lut))) queue := by
  obtain ⟨init, op, rfl⟩ := (List.eq_nil_or_concat' ops).resolve_left hne
  rw [List.flatMap_append, outAfter_append, List.flatMap_singleton, ops_gpio_out]
  exact restLevels_op h _ (hops op (by simp)) queue

/-- The cycle of a bus word leaves them for the words after it (log 4). -/
theorem restLevels_cycle {s : State} (h : PinsValid s.cfg.pins) {i : Instr} (hb : isBusInstr i = true) :
    RestLevels s.cfg.pins (outAfter s.out (cycleOf s i)) s.busQueue.tail := by
  rcases busInstr_cases hb with ⟨c, hc⟩ | ⟨d, rfl⟩
  · have hcycle : cycleOf s i = commandOp s.cfg.pins s.lut c := by cases i <;> cases hc <;> rfl
    rw [hcycle]
    exact restLevels_released h _ _
  · obtain ⟨⟨-, -, hwr, -⟩, -⟩ := h.facts
    rw [cycleOf, outAfter_append]
    cases hn : dataNext s.busQueue.tail with
    | false => exact restLevels_released h _ _
    | true => exact ⟨or_bit_self hwr, .inr hn⟩

/-! ### The shared operations -/

/-- The table stays built where `cfg`, BASE and LUT stay (R86). -/
theorem State.Inv.table_of {s t : State} (h : s.Inv) (hp : t.params = s.params) (hc : t.cfg = s.cfg)
    (hb : t.base = s.base) (hl : t.lut = s.lut) : configError t.params = none → t.TableBuilt := by
  intro hok
  obtain ⟨hbase, hlut⟩ := h.table (hp ▸ hok)
  constructor <;> simpa only [hc, hb, hl]

/-- The invariant does not speak of the turns to come. -/
theorem State.Inv.withSchedule {s : State} (h : s.Inv) (turns : List Turn) : { s with schedule := turns }.Inv :=
  { h with table := h.table_of rfl rfl rfl rfl }

theorem State.Inv.takeFault {s : State} (h : s.Inv) {code : FaultCode} (hf : s.fault = none)
    (hi : s.touch.phase = .idle) (hcode : ∀ item, code ≠ .configurationError item) : (s.takeFault code).Inv :=
  { h with
    table := h.table_of rfl rfl rfl rfl
    configured := fun item => by simp [h.configError_of_running hf, hcode]
    listening := fun hp => absurd hi hp }

theorem State.Inv.complete {s : State} (h : s.Inv) {i : Instr} (hi : s.touch.phase = .idle)
    (hpc : s.pc + frameLength i ≤ s.stream.length) (st : Status) (r : Results) : (s.complete i st r).Inv :=
  { h with
    table := h.table_of rfl rfl rfl rfl
    listening := fun hp => absurd hi hp
    pcInStream := hpc }

theorem State.Inv.buildTable {s : State} (h : s.Inv) : s.buildTable.Inv :=
  { h with table := fun _ => s.buildTable_tableBuilt }

theorem State.Inv.withCalibration {s : State} (h : s.Inv) {cx cy : AxisCal} (hx : axisValid cx = true)
    (hy : axisValid cy = true) (auto : Bool) :
    { s with touch := { s.touch with calX := cx, calY := cy, autocal := auto } }.Inv :=
  { h with
    table := h.table_of rfl rfl rfl rfl
    calibrated := ⟨hx, hy⟩ }

theorem rotateTo_fmt (g : Geometry) (r : Fin 4) : (rotateTo g r).fmt = g.fmt := by
  unfold rotateTo
  split <;> rfl

/-- Width and height follow the parity of the rotation (R41, R242). -/
theorem State.Inv.rotateTo {s : State} (h : s.Inv) (r : Fin 4) : { s with geom := rotateTo s.geom r }.Inv :=
  { h with
    table := h.table_of rfl rfl rfl rfl
    format := (rotateTo_fmt s.geom r).trans h.format
    size := by
      have hsize := h.size
      rcases Nat.mod_two_eq_zero_or_one s.geom.rotation.val with hg | hg <;>
        rcases Nat.mod_two_eq_zero_or_one r.val with hr | hr <;>
          simp_all [Machine.rotateTo] }

theorem State.Inv.geomAfter {s : State} (h : s.Inv) (i : Instr) : { s with geom := geomAfter s i }.Inv := by
  unfold Machine.geomAfter
  split
  · split
    · exact h.rotateTo _
    · exact h
  · exact h

theorem GpioStore.entry_addr (cfg : BusConfig) (st : GpioStore) :
    (st.entry cfg).1 = cfg.outAddr ∨ (st.entry cfg).1 = cfg.setAddr := by
  cases hr : st.reg <;> simp [GpioStore.entry, regAddr, hr]

/-- Stores that leave the levels, for the words that then wait at the port (R75, R169). -/
theorem State.Inv.perform {s : State} (h : s.Inv) (hi : s.touch.phase = .idle) (l : List GpioStore)
    (queue : List BusWord) (hl : RestLevels s.cfg.pins (outAfter s.out l) queue) :
    { s.perform l with busQueue := queue }.Inv :=
  { h with
    table := h.table_of rfl rfl rfl rfl
    levels := fun _ _ => hl
    listening := fun hp => absurd hi hp
    storeAddrs := fun e he => by
      rcases List.mem_append.1 he with he | he
      · exact h.storeAddrs e he
      · obtain ⟨st, -, rfl⟩ := List.mem_map.1 he
        exact st.entry_addr s.cfg }

/-- The guard: PinModeHazard, or the state behind it (R171). -/
theorem State.Inv.guarded {s t k : State} (h : s.Inv) (hf : s.fault = none) (hi : s.touch.phase = .idle)
    (hk : k.Inv) (ht : s.guarded k = .next t) : t.Inv := by
  obtain ⟨-, rfl⟩ | ⟨-, rfl⟩ := State.guarded_next.1 ht
  · exact hk
  · exact h.takeFault hf hi (by simp)

/-! ### The touch pass (R300) -/

/-- If the bus pins are outputs after a pass, they were before it, and OUT is as it was. -/
theorem touchPass_driven_back {s : State} (h : s.Inv) (hd : s.touchPass.2.busDriven = true) :
    s.busDriven = true ∧ s.touchPass.2.out = s.out := by
  obtain ⟨touch, out, pm, a, d, ht, -, -, hout, hres, hm⟩ := touchPass_frame s
  by_cases h0 : sharedMask s.params = 0#32
  · rw [ht, State.busDriven_iff] at hd
    rw [ht, State.busDriven_iff]
    refine ⟨fun q hq => ?_, BitVec.eq_of_getLsbD_eq fun q _ => hout q (by simp [h0])⟩
    simpa [hm, h0] using hd q hq
  · cases hr : s.params.restoresPins with
    | true => exact ⟨h.restored hr, by rw [ht]; exact hres hr⟩
    | false => rw [touchPass_released s h.cfg h0 hr] at hd; cases hd

/-- A pass keeps the invariant, with the phase it ends in allowed there. -/
theorem State.Inv.touchPass {s : State} (h : s.Inv) (ph : TouchPhase)
    (hph : ph ≠ .idle → s.fault = none ∧ s.busQueue = [] ∧ ∃ delay rest,
      decodeFrame s.pending = .request (.touchListen delay) rest) : (s.touchPass.2.setPhase ph).Inv := by
  have hback := touchPass_driven_back h
  have hrestored := fun hr => touchPass_driven s (.inl hr) (h.restored hr)
  obtain ⟨touch, out, pm, a, d, ht, hw, -⟩ := touchPass_frame s
  rw [ht] at hback hrestored ⊢
  obtain ⟨hx, hy⟩ := h.calibrated
  exact { h with
    table := h.table_of rfl rfl rfl rfl
    calibrated := ⟨hw.valid.1 hx, hw.valid.2 hy⟩
    levels := fun hc hd => by
      obtain ⟨hd', ho⟩ := hback hd
      exact ho ▸ h.levels hc hd'
    restored := hrestored
    listening := hph }

/-! ### Instructions -/

theorem State.Inv.execBusWord {s t : State} (h : s.Inv) {i : Instr} (hf : s.fault = none) (hq : s.busQueue ≠ [])
    (hb : isBusInstr i = true) (hx : exec i s = .next t) : t.Inv := by
  have hi : s.touch.phase = .idle := h.idle fun hl => hq hl.2.1
  have hv := h.pinsValid (h.configError_of_running hf)
  rw [exec_busWord hf hb] at hx
  exact h.guarded hf hi (h.perform hi (cycleOf s i) s.busQueue.tail (restLevels_cycle hv hb)) hx

theorem State.Inv.execTouch {s t : State} (h : s.Inv) {i : Instr} {rest : List Byte} (hf : s.fault = none)
    (hq : s.busQueue = []) (hd : decodeFrame s.pending = .request i rest) (ht : samplesTouch i = true)
    (hx : exec i s = .next t) : t.Inv := by
  obtain ⟨t', hx', hcase⟩ := exec_touch hf ht
  cases hx'.symm.trans hx
  obtain ⟨r, rfl⟩ | ⟨rfl, delay, rfl⟩ := hcase
  · have hpc := h.frame_in_stream hd
    obtain ⟨touch, out, pm, a, d, hp, -⟩ := touchPass_frame s
    exact (h.touchPass .idle (absurd rfl)).complete rfl (by simpa [hp] using hpc) .ok r
  · exact h.touchPass s.touchPass.2.touch.phase fun _ => ⟨hf, hq, delay, rest, hd⟩

theorem State.Inv.execStoring {s t : State} (h : s.Inv) {i : Instr} (hf : s.fault = none)
    (hi : s.touch.phase = .idle) (hpc : s.pc + frameLength i ≤ s.stream.length) (hs : storesGpio s i = true)
    (hb : isBusInstr i = false) (hx : exec i s = .next t) : t.Inv := by
  have hv := h.pinsValid (h.configError_of_running hf)
  have hlevels := restLevels_ops hv s.out (opsOf_ne_nil s i hs hb) (opsOf_bursts s i hs) s.busQueue
  rw [exec_storing hf hs hb] at hx
  exact h.guarded hf hi (((h.geomAfter i).perform hi _ s.busQueue hlevels).complete hi hpc .ok .none) hx

theorem State.Inv.execSilent {s t : State} (h : s.Inv) {i : Instr} (hf : s.fault = none)
    (hi : s.touch.phase = .idle) (hpc : s.pc + frameLength i ≤ s.stream.length) (hs : storesGpio s i = false)
    (ht : samplesTouch i = false) (hx : exec i s = .next t) : t.Inv := by
  obtain ⟨u, st, r, hx', hcase⟩ := exec_silent hf hs ht
  cases hx'.symm.trans hx
  obtain ⟨rfl, -⟩ | ⟨rfl, -⟩ | ⟨cx, cy, auto, rfl, -, hcx, hcy⟩ := hcase
  · exact h.complete hi hpc st r
  · exact h.buildTable.complete hi hpc st r
  · exact (h.withCalibration (hcx h.calibrated.1) (hcy h.calibrated.2) auto).complete hi hpc st r

/-- The request at pc keeps the invariant, whatever its kind. -/
theorem State.Inv.execRequest {s t : State} (h : s.Inv) {i : Instr} {rest : List Byte} (hf : s.fault = none)
    (hq : s.busQueue = []) (hd : decodeFrame s.pending = .request i rest) (hx : exec i s = .next t) : t.Inv := by
  cases ht : samplesTouch i with
  | true => exact h.execTouch hf hq hd ht hx
  | false =>
    have hi : s.touch.phase = .idle := h.idle fun ⟨_, _, delay, rest', hl⟩ => by
      rw [hd] at hl
      cases hl
      cases ht
    have hpc := h.frame_in_stream hd
    cases hs : storesGpio s i with
    | true => exact h.execStoring hf hi hpc hs (decodeFrame_request_kind hd) hx
    | false => exact h.execSilent hf hi hpc hs ht hx

theorem State.Inv.ownMove {s t : State} (h : s.Inv) (hm : ownMove s = .next t) : t.Inv := by
  obtain ⟨hf, ⟨i, hq, hb, hx⟩ | ⟨hq, i, rest, hd, hx⟩ | ⟨-, ⟨op, hd⟩, rfl⟩⟩ := ownMove_next hm
  · exact h.execBusWord hf hq hb hx
  · exact h.execRequest hf hq hd hx
  · exact h.takeFault hf (h.idle fun ⟨_, _, delay, rest, hl⟩ => by rw [hd] at hl; cases hl) (by simp)

/-! ### The host and the environment -/

theorem State.Inv.platformReset {s : State} (h : s.Inv) (made : Nat) (env : ResetEnv) :
    (s.platformReset made env).Inv :=
  have hc := construct_inv s.params env h.calibrated0.1 h.calibrated0.2
  { hc with table := hc.table_of rfl rfl rfl rfl }

/-- The stream grows behind pc, while no TOUCH_LISTEN is in progress (R356). -/
theorem State.Inv.sendFrames {s : State} (h : s.Inv) (hb : s.inProgress = false) (bytes : List Byte) :
    { s with stream := s.stream ++ bytes }.Inv :=
  { h with
    table := h.table_of rfl rfl rfl rfl
    listening := fun hp => absurd (h.idle_of_between hb) hp
    pcInStream := by simpa using Nat.le_add_right_of_le h.pcInStream }

theorem dataNext_append {queue : List BusWord} (h : dataNext queue = true) (ws : List BusWord) :
    dataNext (queue ++ ws) = true := by
  cases queue with
  | nil => cases h
  | cons w queue => exact h

/-- Words behind those at the port: a burst that goes on still goes on. -/
theorem State.Inv.sendBusWords {s : State} (h : s.Inv) (hb : s.inProgress = false) (ws : List BusWord) :
    { s with busQueue := s.busQueue ++ ws }.Inv :=
  { h with
    table := h.table_of rfl rfl rfl rfl
    levels := fun hc hd => by
      obtain ⟨hwr, hcs⟩ := h.levels hc hd
      exact ⟨hwr, hcs.imp_right (dataNext_append · ws)⟩
    listening := fun hp => absurd (h.idle_of_between hb) hp }

/-- CS and WR lie in BUSMASK. -/
theorem busMask_cs_wr {pins : BusPins Nat} (h : PinsValid pins) :
    (busMask pins).getLsbD pins.cs = true ∧ (busMask pins).getLsbD pins.wr = true := by
  obtain ⟨⟨hcs, -, hwr, -⟩, -⟩ := h.facts
  constructor
  · rw [busMask_getLsbD]; simp [hcs]
  · rw [busMask_getLsbD]; simp [hwr]

/-- A word that holds a mask's bits is 1 wherever the mask is. -/
theorem getLsbD_of_and_eq {v m : Word} (h : v &&& m = m) {q : Nat} (hq : m.getLsbD q = true) :
    v.getLsbD q = true := by
  rw [← h, BitVec.getLsbD_and, Bool.and_eq_true] at hq
  exact hq.1

/-- A mask disjoint from another is 0 wherever that one is 1. -/
theorem getLsbD_of_and_eq_zero {m n : Word} (h : m &&& n = 0#32) {q : Nat} (hq : n.getLsbD q = true) :
    m.getLsbD q = false := by
  have := congrArg (BitVec.getLsbD · q) h
  simpa [hq] using this

/-- PIN_RESTORE drives every bus pin, CS and WR high (R356). -/
theorem State.Inv.pinRestore {s : State} (h : s.Inv) (hb : s.inProgress = false) {v : Word}
    (hv : v &&& strobeMask s.cfg.pins = strobeMask s.cfg.pins) : (s.pinRestore v).Inv :=
  { h with
    table := h.table_of rfl rfl rfl rfl
    levels := fun hc _ => by
      have hp := h.pinsValid hc
      obtain ⟨⟨hcs, -, hwr, -⟩, -⟩ := hp.facts
      obtain ⟨hmcs, hmwr⟩ := busMask_cs_wr hp
      simp only [State.pinRestore_out, State.pinRestore_cfg, replaceBits_getLsbD, hmcs, hmwr, if_true]
      exact ⟨getLsbD_of_and_eq hv (by rw [strobeMask_getLsbD]; simp [hwr]),
        .inl (getLsbD_of_and_eq hv (by rw [strobeMask_getLsbD]; simp [hcs]))⟩
    restored := fun _ => by
      rw [State.busDriven_iff]
      intro q hq
      exact (modeAt_setModes s.pinMode _ .output q).trans (if_pos hq)
    listening := fun hp => absurd (h.idle_of_between hb) hp }

/-- EXT_OUT leaves the bus pins' bits (R356). -/
theorem State.Inv.extOut {s : State} (h : s.Inv) {m v : Word} (hm : m &&& busMask s.cfg.pins = 0#32) :
    (s.hostOut (replaceBits s.out m v)).Inv :=
  { h with
    table := h.table_of rfl rfl rfl rfl
    levels := fun hc hd => by
      obtain ⟨hmcs, hmwr⟩ := busMask_cs_wr (h.pinsValid hc)
      simp only [State.hostOut_out, State.hostOut_cfg, replaceBits_getLsbD, getLsbD_of_and_eq_zero hm hmcs,
        getLsbD_of_and_eq_zero hm hmwr]
      exact h.levels hc hd }

theorem State.Inv.hostStep {s t : State} (h : s.Inv) {a : HostAction} (hs : hostStep a s = .next t) : t.Inv := by
  cases hostStep_next hs with
  | platformReset made env => exact h.platformReset made env
  | delay ms => exact h
  | sendFrames bytes hb => exact h.sendFrames hb bytes
  | pinRestore v hb hv => exact h.pinRestore hb hv
  | extOut m v _ hm => exact h.extOut hm
  | sendBusWords ws hb => exact h.sendBusWords hb ws

/-- Settles O15: without the turn taken the state still meets the invariant, and the own move and every action
of the host keep it. -/
theorem everyStepKeepsTheInvariant : Obligations.EveryStepKeepsTheInvariant := by
  intro s t h hs
  obtain ⟨turns, hown⟩ | ⟨a, turns, -, hhost⟩ := step_next hs
  · exact (h.withSchedule turns).ownMove hown
  · exact (h.withSchedule turns).hostStep hhost

end Sys2Proof.Machine
end

section
/-! GPIO accesses (20_memory.md R70 to R75): which addresses are a register's, and what an admitted or a refused
access answers. -/

namespace Sys2Proof.Machine

theorem regAt_eq_out_iff {cfg : BusConfig} {addr : Nat} : regAt cfg addr = some .out ↔ addr = cfg.outAddr := by
  unfold regAt
  split_ifs with ho <;> simp [ho]

theorem regAt_eq_none_iff {cfg : BusConfig} {addr : Nat} :
    regAt cfg addr = none ↔ ¬(addr = cfg.outAddr ∨ addr = cfg.setAddr) := by
  unfold regAt
  split_ifs with ho hs
  · simp [ho]
  · simp [hs]
  · simp [ho, hs]

/-- One store moves OUT once and adds one entry and its own events (R47, R161). -/
theorem State.perform_singleton (s : State) (st : GpioStore) :
    s.perform [st] = { s with
      out := st.newOut s.out
      stores := s.stores ++ [(regAddr s.cfg st.reg, st.value)]
      bus := s.bus ++ busEvents s.cfg.pins s.out (st.newOut s.out) } := by
  simp [State.perform, outAfter, traceOf, GpioStore.entry]

theorem memRead_out (s : State) : memRead s s.cfg.outAddr 4 = .ok s.out :=
  if_pos ⟨rfl, regAt_out s.cfg⟩

theorem memRead_refused {s : State} {addr width : Nat} (h : ¬(addr = s.cfg.outAddr ∧ width = 4)) :
    memRead s addr width = .error .gpioAccess :=
  if_neg fun ⟨hwidth, hreg⟩ => h ⟨regAt_eq_out_iff.1 hreg, hwidth⟩

theorem memWrite_of_regAt {s : State} {addr : Nat} {reg : GpioReg} (h : regAt s.cfg addr = some reg) (v : Word) :
    memWrite s addr 4 v = .ok (s.perform [⟨reg, v⟩]) := by
  simp [memWrite, h]

theorem memWrite_refused {s : State} {addr width : Nat}
    (h : ¬((addr = s.cfg.outAddr ∨ addr = s.cfg.setAddr) ∧ width = 4)) (v : Word) :
    memWrite s addr width v = .error .gpioAccess := by
  unfold memWrite
  split
  next reg hreg =>
    have hwidth : width ≠ 4 := fun hw =>
      h ⟨not_not.1 fun haddr => by simp [regAt_eq_none_iff.2 haddr] at hreg, hw⟩
    exact if_neg hwidth
  next => rfl

/-- Settles O60: the reads by the register at the address, the two writes as one store each; distinct addresses
are needed for the write of SET only. -/
theorem onlyTheGpioRegistersAreReachable : Obligations.OnlyTheGpioRegistersAreReachable := by
  intro s addr width v hne
  refine ⟨memRead_out s, memRead_refused, ?_, ?_, fun h => memWrite_refused h v⟩
  · rw [memWrite_of_regAt (regAt_out s.cfg), State.perform_singleton]
    rfl
  · rw [memWrite_of_regAt (regAt_set s.cfg hne), State.perform_singleton]
    rfl

end Sys2Proof.Machine
end

section
/-! The encoder and the decoder of request frames (30_encoding.md R101 to R105): what either says about the other,
the opcode map, and cut frames. -/

namespace Sys2Proof.Machine

theorem encode_eq_frame {i : Instr} (h : isBusInstr i = false) : encode i = .frame (encode i).bytes := by
  unfold isBusInstr at h
  split at h
  case h_1 => cases h
  case h_2 bs hi => rw [hi]; rfl

theorem eq_ofNat_of_toNat {op : Byte} {n : Nat} (h : op.toNat = n) : op = BitVec.ofNat 8 n := by
  rw [← h, BitVec.ofNat_toNat, BitVec.setWidth_eq]

/-! ### An encoded request decodes -/

theorem decodeBurst_encode {data : List Byte} (h : data.length < 2 ^ 32) (rest : List Byte) :
    decodeBurst (wordBytes (BitVec.ofNat 32 data.length) ++ data ++ rest) = .request (.writeDataBurst data) rest := by
  have hn : data.length % 2 ^ 32 = data.length := Nat.mod_eq_of_lt h
  simp only [wordBytes, List.cons_append, List.nil_append, decodeBurst, wordOf_bytes, BitVec.toNat_ofNat, hn]
  simp

theorem decodeRepeat_encode {pat : List Byte} (h : pat.length < 2 ^ 8) (count : Word) (rest : List Byte) :
    decodeRepeat (BitVec.ofNat 8 pat.length :: pat ++ wordBytes count ++ rest) =
      .request (.writeDataRepeat pat count) rest := by
  have hk : pat.length % 2 ^ 8 = pat.length := Nat.mod_eq_of_lt h
  simp only [decodeRepeat, List.cons_append, List.append_assoc, BitVec.toNat_ofNat, hk]
  simp [wordBytes]

/-- The fixed-width fields are put together again (R101); the two length fields fit by well-formedness (R103). -/
theorem decodeFrame_encode_append {i : Instr} (hw : i.wf = true) (hb : isBusInstr i = false) (rest : List Byte) :
    decodeFrame ((encode i).bytes ++ rest) = .request i rest := by
  cases i with
  | writeDataBurst data => exact decodeBurst_encode (by simpa [Instr.wf] using hw) rest
  | writeDataRepeat pat count => exact decodeRepeat_encode (by simpa [Instr.wf] using hw) count rest
  | setWindow | drawPixel | fillRect | setScrollArea | setScrollStart | touchSetCal | touchListen =>
    simp [encode, Code.bytes, decodeFrame, halfBytes, wordBytes]
  | buildLut | writeCommand | writeData | colorRgb | setRotation | touchSetAutocal | touchGetCal | touchSample => rfl
  | _ => cases hb

theorem decodeFrame_frame_append {i : Instr} {frame : List Byte} (hw : i.wf = true) (he : encode i = .frame frame)
    (rest : List Byte) : decodeFrame (frame ++ rest) = .request i rest := by
  have h := decodeFrame_encode_append hw (by simp [isBusInstr, he]) rest
  rwa [he] at h

theorem decodeFrame_frame {i : Instr} {frame : List Byte} (hw : i.wf = true) (he : encode i = .frame frame) :
    decodeFrame frame = .request i [] := by
  simpa using decodeFrame_frame_append hw he []

/-! ### A decoded request encodes back -/

theorem decodeBurst_request {bs rest : List Byte} {i : Instr} (h : decodeBurst bs = .request i rest) :
    i.wf = true ∧ 0x04 :: bs = (encode i).bytes ++ rest := by
  unfold decodeBurst at h
  split at h
  case h_1 n3 n2 n1 n0 r =>
    simp only at h
    split at h <;> cases h
    next hn =>
    have hlen : (r.take (wordOf n3 n2 n1 n0).toNat).length = (wordOf n3 n2 n1 n0).toNat := by simpa using hn
    constructor
    · simpa only [Instr.wf, hlen, decide_eq_true_eq] using (wordOf n3 n2 n1 n0).isLt
    · simp [encode, Code.bytes, hlen, -List.length_take]
  case h_2 => cases h

theorem decodeRepeat_request {bs rest : List Byte} {i : Instr} (h : decodeRepeat bs = .request i rest) :
    i.wf = true ∧ 0x05 :: bs = (encode i).bytes ++ rest := by
  unfold decodeRepeat at h
  split at h
  case h_1 k r =>
    split at h
    case isFalse => cases h
    case isTrue hk =>
      split at h <;> cases h
      next c3 c2 c1 c0 hr =>
      have hlen : (r.take k.toNat).length = k.toNat := by simpa using hk
      constructor
      · simpa only [Instr.wf, hlen, decide_eq_true_eq] using k.isLt
      · simp [encode, Code.bytes, hlen, -List.length_take, ← hr]
  case h_2 => cases h

/-- The decoder drops no byte of a request (R114). -/
theorem decodeFrame_request {bs rest : List Byte} {i : Instr} (h : decodeFrame bs = .request i rest) :
    i.wf = true ∧ bs = (encode i).bytes ++ rest := by
  unfold decodeFrame at h
  split at h
  case h_1 => cases h
  case h_2 op r =>
    split at h <;> rename_i hop
    case h_18 => cases h
    all_goals obtain rfl := eq_ofNat_of_toNat hop
    case h_4 => exact decodeBurst_request h
    case h_5 => exact decodeRepeat_request h
    case h_1 | h_15 | h_16 => cases h; exact ⟨rfl, rfl⟩
    all_goals
      split at h <;> cases h
      exact ⟨rfl, by simp [encode, Code.bytes]⟩

/-! ### The opcode map (R105) -/

/-- The opcode bytes that select no operation. -/
def UnmappedOpcode (op : Byte) : Prop :=
  op.toNat = 0 ∨ (0x0D ≤ op.toNat ∧ op.toNat ≤ 0x0F) ∨ 0x15 ≤ op.toNat

theorem decodeFrame_of_unmapped {op : Byte} (h : UnmappedOpcode op) (r : List Byte) :
    decodeFrame (op :: r) = .illegal op := by
  unfold UnmappedOpcode at h
  simp only [decodeFrame]
  split
  case h_18 => rfl
  all_goals omega

theorem decodeBurst_cases (r : List Byte) :
    decodeBurst r = .incomplete 0x04 ∨ ∃ i rest, decodeBurst r = .request i rest := by
  unfold decodeBurst
  split
  · simp only
    split <;> simp
  · exact .inl rfl

theorem decodeRepeat_cases (r : List Byte) :
    decodeRepeat r = .incomplete 0x05 ∨ ∃ i rest, decodeRepeat r = .request i rest := by
  unfold decodeRepeat
  split
  · split
    · split <;> simp
    · exact .inl rfl
  · exact .inl rfl

theorem decodeFrame_of_mapped {op : Byte} (h : ¬UnmappedOpcode op) (r : List Byte) :
    decodeFrame (op :: r) = .incomplete op ∨ ∃ i rest, decodeFrame (op :: r) = .request i rest := by
  unfold UnmappedOpcode at h
  simp only [decodeFrame]
  split <;> rename_i hop
  case h_18 =>
    simp only [imp_false] at *
    omega
  all_goals obtain rfl := eq_ofNat_of_toNat hop
  case h_4 => exact decodeBurst_cases r
  case h_5 => exact decodeRepeat_cases r
  case h_1 | h_15 | h_16 => exact .inr ⟨_, _, rfl⟩
  all_goals split <;> simp

theorem decodeFrame_eq_illegal_iff (op : Byte) (r : List Byte) :
    decodeFrame (op :: r) = .illegal op ↔ UnmappedOpcode op := by
  refine ⟨fun h => ?_, fun h => decodeFrame_of_unmapped h r⟩
  by_contra hm
  obtain hi | ⟨i, rest, hr⟩ := decodeFrame_of_mapped hm r
  · simp [hi] at h
  · simp [hr] at h

/-! ### Cut frames (R103) -/

/-- A request read at the head of a frame is the whole frame: its own encoding stands there, so the frame decodes
to it as well, and leaves what was cut off. -/
theorem cutOff_eq_nil {i j : Instr} {kept cutOff rest : List Byte} (hw : i.wf = true)
    (he : encode i = .frame (kept ++ cutOff)) (hj : decodeFrame kept = .request j rest) : cutOff = [] := by
  obtain ⟨hjw, hkept⟩ := decodeFrame_request hj
  have hread : decodeFrame (kept ++ cutOff) = .request j (rest ++ cutOff) := by
    rw [hkept, List.append_assoc]
    exact decodeFrame_encode_append hjw (decodeFrame_request_kind hj) _
  obtain ⟨-, hrest⟩ := Frame.request.inj (hread.symm.trans (decodeFrame_frame hw he))
  exact (List.append_eq_nil_iff.1 hrest).2

theorem decodeFrame_take {i : Instr} {frame : List Byte} (hw : i.wf = true) (he : encode i = .frame frame) {n : Nat}
    (h0 : 0 < n) (hn : n < frame.length) :
    ∃ op, frame.head? = some op ∧ decodeFrame (frame.take n) = .incomplete op := by
  obtain ⟨op, r, rfl⟩ := List.exists_cons_of_length_pos (h0.trans hn)
  obtain ⟨m, rfl⟩ := Nat.exists_eq_succ_of_ne_zero h0.ne'
  refine ⟨op, rfl, ?_⟩
  have hmapped : ¬UnmappedOpcode op := fun h => by
    cases (decodeFrame_of_unmapped h r).symm.trans (decodeFrame_frame hw he)
  obtain hinc | ⟨j, rest, hj⟩ := decodeFrame_of_mapped hmapped (r.take m)
  · exact hinc
  · have hnil : r.drop m = [] := cutOff_eq_nil hw (by simpa using he) hj
    rw [List.drop_eq_nil_iff] at hnil
    rw [List.length_cons] at hn
    omega

end Sys2Proof.Machine
end

section
/-! The encoder and the decoder of bus words (30_encoding.md R109, R110): bit 8 is DC, and each command byte has
one row. -/

namespace Sys2Proof.Machine

theorem decodeBusWord_commandWord (c : Byte) : decodeBusWord (commandWord c) = decodeCommandByte c := by
  obtain ⟨hdc, hbyte⟩ := commandWord_parts c
  simp [decodeBusWord, hdc, hbyte]

theorem decodeBusWord_dataWord (d : Byte) : decodeBusWord (dataWord d) = .busData d := by
  obtain ⟨hdc, hbyte⟩ := dataWord_parts d
  simp [decodeBusWord, hdc, hbyte]

theorem encode_of_busCommandByte {i : Instr} {c : Byte} (h : busCommandByte i = some c) :
    encode i = .busWord (commandWord c) := by
  cases i <;> cases h <;> rfl

theorem decodeCommandByte_of_unnamed {c : Byte} (h : c ∉ namedCommands) : decodeCommandByte c = .busCommand c := by
  unfold decodeCommandByte
  split <;> rename_i hc
  case h_16 => rfl
  all_goals
    obtain rfl := eq_ofNat_of_toNat hc
    exact absurd (by decide) h

theorem decodeCommandByte_of_busCommandByte {i : Instr} {c : Byte} (hw : i.wf = true)
    (h : busCommandByte i = some c) : decodeCommandByte c = i := by
  cases i with
  | busCommand b =>
    cases h
    exact decodeCommandByte_of_unnamed (by simpa [Instr.wf] using hw)
  | _ => cases h <;> rfl

theorem decodeBusWord_of_encode {i : Instr} {w : BusWord} (hw : i.wf = true) (he : encode i = .busWord w) :
    decodeBusWord w = i := by
  obtain ⟨c, hc⟩ | ⟨d, rfl⟩ := busInstr_cases (i := i) (by simp [isBusInstr, he])
  · cases (encode_of_busCommandByte hc).symm.trans he
    rw [decodeBusWord_commandWord, decodeCommandByte_of_busCommandByte hw hc]
  · cases he
    exact decodeBusWord_dataWord d

theorem decodeCommandByte_of_named :
    ∀ c ∈ namedCommands, (decodeCommandByte c).wf = true ∧ busCommandByte (decodeCommandByte c) = some c := by
  decide

theorem decodeCommandByte_spec (c : Byte) :
    (decodeCommandByte c).wf = true ∧ busCommandByte (decodeCommandByte c) = some c := by
  by_cases hc : c ∈ namedCommands
  · exact decodeCommandByte_of_named c hc
  · rw [decodeCommandByte_of_unnamed hc]
    exact ⟨by simpa [Instr.wf] using hc, rfl⟩

theorem decodeBusWord_spec (w : BusWord) : (decodeBusWord w).wf = true ∧ encode (decodeBusWord w) = .busWord w := by
  rw [busWord_eq w]
  split
  · rw [decodeBusWord_dataWord]
    exact ⟨rfl, rfl⟩
  · obtain ⟨hw, hc⟩ := decodeCommandByte_spec (w.setWidth 8)
    rw [decodeBusWord_commandWord]
    exact ⟨hw, encode_of_busCommandByte hc⟩

end Sys2Proof.Machine
end

section
/-! The statements about the encoding (30_encoding.md). -/

namespace Sys2Proof.Machine

/-- Settles O1: by the kind of the encoding; a frame decodes in a stream that ends with it, and a bus word by its
command byte or its data byte. -/
theorem decodeOfEncodeIsTheInstruction : Obligations.DecodeOfEncodeIsTheInstruction := by
  intro i hw
  cases he : encode i with
  | frame frame => simp only [decode, decodeFrame_frame hw he]
  | busWord w => exact congrArg some (decodeBusWord_of_encode hw he)

/-- Settles O2: the length is what the decoder takes from the stream, and a cut frame can neither be illegal (its
opcode is mapped) nor a request (it would be the whole frame). -/
theorem framesDecodeInStreamAndOnlyWhole : Obligations.FramesDecodeInStreamAndOnlyWhole := by
  intro i frame hw he
  refine ⟨?_, decodeFrame_frame_append hw he, fun n => decodeFrame_take hw he⟩
  exact decodeFrame_length (decodeFrame_frame hw he)

/-- Settles O3: frames by the branches of the decoder, bus words by their DC bit. -/
theorem decodedWordsEncodeBack : Obligations.DecodedWordsEncodeBack := by
  refine ⟨fun bs rest i h => ?_, decodeBusWord_spec⟩
  obtain ⟨hw, hbs⟩ := decodeFrame_request h
  exact ⟨hw, _, encode_eq_frame (decodeFrame_request_kind h), hbs⟩

/-- Settles O4: an unmapped opcode is illegal, and a mapped one answers a request or an incomplete frame. -/
theorem illegalOpcodesAreExactlyThoseOutsideTheMap : Obligations.IllegalOpcodesAreExactlyThoseOutsideTheMap :=
  decodeFrame_eq_illegal_iff

/-- Settles O5: six closed evaluations of the decoder. -/
theorem writtenWordsDecode : Obligations.WrittenWordsDecode := by
  unfold Obligations.WrittenWordsDecode
  decide

end Sys2Proof.Machine
end

section
/-! The lookup table (40_lut.md R141 to R147): the bits of an entry on the data pins and off them, and what the
stores made of table words leave of the pins outside BUSMASK. -/

namespace Sys2Proof.Machine

/-! ### Bits of a table entry -/

/-- The baseline is 0 on the data pins (R141). -/
theorem baseline_dataPin {pins : BusPins Nat} (h : PinsValid pins) (o : Word) {p : Nat}
    (hp : isDataPin pins p = true) : (baseline pins o).getLsbD p = false := by
  obtain ⟨-, -, -, ddc, -⟩ := h.facts
  have hne : p ≠ pins.dc := by
    rintro rfl
    exact Bool.noConfusion (hp.symm.trans ddc)
  simp [baseline_getLsbD, hp, hne]

/-- On the data pins an entry is its byte (R145). -/
theorem tableOf_baseline_dataPin {pins : BusPins Nat} (h : PinsValid pins) (o : Word) (b : Byte) (i : Fin 8) :
    (lutAt (tableOf pins (baseline pins o)) b).getLsbD pins.d[i] = b.getLsbD i := by
  rw [lutAt_tableOf, BitVec.getLsbD_or, baseline_dataPin h o ((isDataPin_iff _ _).2 ⟨i, rfl⟩), spread_dataPin h,
    Bool.false_or]

/-- Off the data pins an entry is the baseline (R145). -/
theorem tableOf_other {pins : BusPins Nat} (base : Word) (b : Byte) {p : Nat} (hp : isDataPin pins p = false) :
    (lutAt (tableOf pins base) b).getLsbD p = base.getLsbD p := by
  rw [lutAt_tableOf, BitVec.getLsbD_or, spread_other b hp, Bool.or_false]

/-- An entry decodes to its byte (R145). -/
theorem dataByte_tableOf {pins : BusPins Nat} (h : PinsValid pins) (o : Word) (b : Byte) :
    dataByte pins (lutAt (tableOf pins (baseline pins o)) b) = b :=
  dataByte_eq (tableOf_baseline_dataPin h o b)

/-- An entry without its data pins is the baseline (R145). -/
theorem tableOf_without_data {pins : BusPins Nat} (h : PinsValid pins) (o : Word) (b : Byte) :
    lutAt (tableOf pins (baseline pins o)) b &&& ~~~(dataMask pins) = baseline pins o := by
  refine BitVec.eq_of_getLsbD_eq fun p hp => ?_
  rw [BitVec.getLsbD_and, BitVec.getLsbD_not, dataMask_getLsbD]
  cases hd : isDataPin pins p with
  | true =>
    rw [baseline_dataPin h o hd]
    simp
  | false =>
    rw [tableOf_other _ b hd]
    simp [hp]

theorem spread_zero (pins : BusPins Nat) : spread pins 0x00 = 0#32 := by simp [spread, spread.lane]

theorem spread_allOnes (pins : BusPins Nat) : spread pins 0xFF = dataMask pins := rfl

/-! ### Stores that replay the baseline at a pin (R144, R168) -/

/-- A store that can leave a pin of OUT only as it was or as in `base`: to OUT with the pin as in `base`, or to
SET without the pin. -/
def GpioStore.ReplaysAt (base : Word) (q : Nat) (st : GpioStore) : Prop :=
  match st.reg with
  | .out => st.value.getLsbD q = base.getLsbD q
  | .set => st.value.getLsbD q = false

theorem GpioStore.ReplaysAt.newOut {base : Word} {q : Nat} {st : GpioStore} (h : st.ReplaysAt base q) (old : Word) :
    (st.newOut old).getLsbD q = old.getLsbD q ∨ (st.newOut old).getLsbD q = base.getLsbD q := by
  obtain ⟨reg, value⟩ := st
  cases reg with
  | out => exact .inr h
  | set =>
    have hv : value.getLsbD q = false := h
    exact .inl (by simp [GpioStore.newOut, hv])

/-- OUT after such stores has the pin as it was, or as in `base`. -/
theorem outAfter_replays {base : Word} {q : Nat} {l : List GpioStore} (h : ∀ st ∈ l, st.ReplaysAt base q)
    (old : Word) :
    (outAfter old l).getLsbD q = old.getLsbD q ∨ (outAfter old l).getLsbD q = base.getLsbD q := by
  induction l generalizing old with
  | nil => exact .inl rfl
  | cons st l ih =>
    obtain ⟨hst, hl⟩ := List.forall_mem_cons.1 h
    obtain hkeep | hbase := ih hl (st.newOut old)
    · exact (hst.newOut old).imp hkeep.trans hkeep.trans
    · exact .inr hbase

/-- A pin outside BUSMASK is no data pin and none of CS, DC and WR (R33). -/
theorem unowned_facts {pins : BusPins Nat} {q : Nat} (hq : q < 32) (hb : (busMask pins).getLsbD q = false) :
    isDataPin pins q = false ∧ q ≠ pins.cs ∧ q ≠ pins.dc ∧ q ≠ pins.wr := by
  simp only [busMask_getLsbD, hq, decide_true, Bool.true_and, Bool.or_eq_false_iff, beq_eq_false_iff_ne] at hb
  obtain ⟨⟨⟨⟨⟨hd, hcs⟩, hdc⟩, hwr⟩, -⟩, -⟩ := hb
  exact ⟨hd, hcs, hdc, hwr⟩

/-- In a built table every entry is BASE off the data pins (R86, R145). -/
theorem State.TableBuilt.lutAt_other {s : State} (h : s.TableBuilt) (b : Byte) {q : Nat}
    (hd : isDataPin s.cfg.pins q = false) : (lutAt s.lut b).getLsbD q = s.base.getLsbD q := by
  rw [h.lut, tableOf_other _ b hd]

/-- The cycle of a bus word that is a command (R165, R172). -/
theorem cycleOf_command (s : State) {i : Instr} {c : Byte} (hc : busCommandByte i = some c) :
    cycleOf s i = commandOp s.cfg.pins s.lut c := by
  cases i <;> cases hc <;> rfl

section Unowned

variable {s : State} {q : Nat} (h : s.TableBuilt) (hq : q < 32) (hb : (busMask s.cfg.pins).getLsbD q = false)
include hq hb

/-- The release of CS does not touch an unowned pin (R167). -/
theorem csRelease_replays : ∀ st ∈ csRelease s.cfg.pins, st.ReplaysAt s.base q := by
  obtain ⟨-, hcs, -, -⟩ := unowned_facts hq hb
  simp [csRelease, GpioStore.ReplaysAt, hcs]

include h

/-- A data cycle replays BASE at an unowned pin (R166). -/
theorem dataCycle_replays (b : Byte) : ∀ st ∈ dataCycle s.cfg.pins s.lut b, st.ReplaysAt s.base q := by
  obtain ⟨hd, -, -, hwr⟩ := unowned_facts hq hb
  simp [dataCycle, GpioStore.ReplaysAt, h.lutAt_other b hd, hwr]

/-- So does a command cycle, whose word only clears DC (R165). -/
theorem cmdCycle_replays (c : Byte) : ∀ st ∈ cmdCycle s.cfg.pins s.lut c, st.ReplaysAt s.base q := by
  obtain ⟨hd, -, hdc, hwr⟩ := unowned_facts hq hb
  have hword : (commandGpioWord s.cfg.pins s.lut c).getLsbD q = s.base.getLsbD q := by
    rw [commandGpioWord, BitVec.getLsbD_and, BitVec.getLsbD_not, bit_getLsbD, h.lutAt_other c hd]
    simp [hq, hdc]
  simp [cmdCycle, GpioStore.ReplaysAt, hword, hwr]

theorem commandOp_replays (c : Byte) : ∀ st ∈ commandOp s.cfg.pins s.lut c, st.ReplaysAt s.base q :=
  List.forall_mem_append.2 ⟨cmdCycle_replays h hq hb c, csRelease_replays hq hb⟩

theorem LogicalOp.gpio_replays (op : LogicalOp) :
    ∀ st ∈ op.gpio s.cfg.pins s.lut, st.ReplaysAt s.base q := by
  cases op with
  | command c => exact commandOp_replays h hq hb c
  | burst bs =>
    refine List.forall_mem_append.2 ⟨fun st hst => ?_, csRelease_replays hq hb⟩
    obtain ⟨b, -, hst⟩ := List.mem_flatMap.1 hst
    exact dataCycle_replays h hq hb b st hst

/-- The stores of a list of logical operations replay BASE at an unowned pin (R168, R170). -/
theorem ops_replay (ops : List LogicalOp) :
    ∀ st ∈ ops.flatMap (LogicalOp.gpio s.cfg.pins s.lut), st.ReplaysAt s.base q := by
  intro st hst
  obtain ⟨op, -, hst⟩ := List.mem_flatMap.1 hst
  exact op.gpio_replays h hq hb st hst

/-- So do the stores of a bus word's cycle (logs 3, 4). -/
theorem cycleOf_replays {i : Instr} (hi : isBusInstr i = true) :
    ∀ st ∈ cycleOf s i, st.ReplaysAt s.base q := by
  obtain ⟨c, hc⟩ | ⟨d, rfl⟩ := busInstr_cases hi
  · exact cycleOf_command s hc ▸ commandOp_replays h hq hb c
  · refine List.forall_mem_append.2 ⟨dataCycle_replays h hq hb d, ?_⟩
    cases dataNext s.busQueue.tail with
    | false => exact csRelease_replays hq hb
    | true => exact fun st hst => nomatch hst

end Unowned

/-! ### What an instruction does to OUT -/

/-- A touch pass leaves OUT outside BUSMASK (R300). -/
theorem touchPass_out_unowned {s : State} (hc : s.cfg = busConfigOf s.params) {q : Nat}
    (hb : (busMask s.cfg.pins).getLsbD q = false) : s.touchPass.2.out.getLsbD q = s.out.getLsbD q := by
  obtain ⟨touch, out, pm, a, d, ht, -, -, hout, -⟩ := touchPass_frame s
  have hs : (sharedMask s.params).getLsbD q = false := by
    rw [hc] at hb
    exact Bool.eq_false_iff.2 fun hq => Bool.noConfusion (hb.symm.trans (sharedMask_le _ _ hq))
  rw [ht]
  exact hout q hs

/-- The OUT an instruction leaves: that of a touch pass, of a list of logical operations, of a bus word's cycle,
or the one before it (R171, R300, R344). -/
theorem exec_out {s t : State} {i : Instr} (hx : exec i s = .next t) :
    t.out = s.out ∨ t.out = s.touchPass.2.out ∨
      (∃ ops : List LogicalOp, t.out = outAfter s.out (ops.flatMap (LogicalOp.gpio s.cfg.pins s.lut))) ∨
      (isBusInstr i = true ∧ t.out = outAfter s.out (cycleOf s i)) := by
  have hf := exec_fault hx
  cases ht : samplesTouch i with
  | true =>
    obtain ⟨t', hx', hcase⟩ := exec_touch hf ht
    cases hx'.symm.trans hx
    obtain ⟨r, rfl⟩ | ⟨rfl, -⟩ := hcase <;> exact .inr (.inl rfl)
  | false =>
    cases hs : storesGpio s i with
    | false =>
      obtain ⟨u, st, r, hx', hcase⟩ := exec_silent hf hs ht
      cases hx'.symm.trans hx
      obtain ⟨rfl, -⟩ | ⟨rfl, -⟩ | ⟨cx, cy, auto, rfl, -⟩ := hcase <;> exact .inl rfl
    | true =>
      cases hbus : isBusInstr i with
      | true =>
        rw [exec_busWord hf hbus] at hx
        obtain ⟨-, rfl⟩ | ⟨-, rfl⟩ := State.guarded_next.1 hx
        · exact .inr (.inr (.inr ⟨rfl, rfl⟩))
        · exact .inl rfl
      | false =>
        rw [exec_storing hf hs hbus] at hx
        obtain ⟨-, rfl⟩ | ⟨-, rfl⟩ := State.guarded_next.1 hx
        · exact .inr (.inr (.inl ⟨opsOf s i, rfl⟩))
        · exact .inl rfl

/-! ### The statements -/

/-- Settles O17: on the data pins the baseline is 0 and the entry is its byte; off them it is the baseline. -/
theorem tableEntriesDecodeToTheirByte : Obligations.TableEntriesDecodeToTheirByte :=
  fun _ o b h => ⟨dataByte_tableOf h o b, tableOf_baseline_dataPin h o b, tableOf_without_data h o b⟩

/-- Settles O18: the control pins are no data pins, so each entry has the baseline's control bits. -/
theorem tableWordsHaveControlBits : Obligations.TableWordsHaveControlBits := by
  intro pins o b h
  obtain ⟨⟨-, ldc, -, lrd, lrst⟩, ⟨ncd, -, ncr, nct, ndw, ndr, ndt, nwr, nwt, -⟩, dcs, ddc, dwr, drd, drst⟩ :=
    h.facts
  refine ⟨?_, ?_, ?_, ?_, ?_⟩
  · simp [tableOf_other _ b dcs, baseline_getLsbD, ncd]
  · simp [tableOf_other _ b ddc, baseline_getLsbD, ldc]
  · simp [tableOf_other _ b dwr, baseline_getLsbD, ndw.symm]
  · rw [tableOf_other _ b drd, baseline_other o lrd drd ncr nwr ndr]
  · rw [tableOf_other _ b drst, baseline_other o lrst drst nct nwt ndt]

/-- Settles O19: decoding is a left inverse of the table, and equal spreads make equal entries. -/
theorem tableIsInjective : Obligations.TableIsInjective := by
  intro pins o h
  have hinj : (lutAt (tableOf pins (baseline pins o))).Injective :=
    Function.LeftInverse.injective (g := dataByte pins) (dataByte_tableOf h o)
  refine ⟨fun _ _ => @hinj _ _, fun a b hab => hinj ?_, ?_, ?_⟩
  · rw [lutAt_tableOf, lutAt_tableOf, hab]
  · rw [lutAt_tableOf, spread_zero, BitVec.or_zero]
  · rw [lutAt_tableOf, spread_allOnes]

/-- Settles O20: whatever the kind of instruction, the stores it makes replay BASE outside BUSMASK, and a touch
pass changes OUT on shared bus pins only. -/
theorem unownedPinsOnlyReplayTheBaseline : Obligations.UnownedPinsOnlyReplayTheBaseline := by
  intro s t i q h hx hq hb
  have htable := h.table (h.configError_of_running (exec_fault hx))
  obtain ho | ho | ⟨ops, ho⟩ | ⟨hbus, ho⟩ := exec_out hx <;> rw [ho]
  · exact .inl rfl
  · exact .inl (touchPass_out_unowned h.cfg hb)
  · exact outAfter_replays (ops_replay htable hq hb ops) s.out
  · exact outAfter_replays (cycleOf_replays htable hq hb hbus) s.out

/-- Settles O16: with no fault BUILD_LUT is `buildTable` and its record, and `tableOf` is the formula of R143. -/
theorem buildLutBuildsTheTable : Obligations.BuildLutBuildsTheTable :=
  ⟨rfl, fun s hf => ⟨tableOf s.cfg.pins (baseline s.cfg.pins s.out), State.whenRunning_of_none hf _,
    lutAt_tableOf s.cfg.pins _⟩⟩

end Sys2Proof.Machine
end

section
/-! The events of one change of OUT (41_bus_cycles.md R161 to R163), and of the three procedures (R165 to R167). -/

namespace Sys2Proof.Machine

/-! ### Changes without an event, and Indeterminate edges -/

theorem strobeEvents_of_not_rising {pins : BusPins Nat} {old new : Word}
    (h : ¬(old.getLsbD pins.wr = false ∧ new.getLsbD pins.wr = true)) : strobeEvents pins old new = [] :=
  if_neg h

/-- With CS high before and after, a WR edge is no event (R162). -/
theorem strobeEvents_of_cs_high {pins : BusPins Nat} {old new : Word} (hold : old.getLsbD pins.cs = true)
    (hnew : new.getLsbD pins.cs = true) : strobeEvents pins old new = [] := by
  simp [strobeEvents, hold, hnew]

/-- Without a CS edge the events are those of WR. -/
theorem busEvents_of_same_cs {pins : BusPins Nat} {old new : Word}
    (h : old.getLsbD pins.cs = new.getLsbD pins.cs) : busEvents pins old new = strobeEvents pins old new := by
  simp [busEvents, h]

/-- A cycle is not settled when RD or RST is low at the edge, or a line that must be stable changes (R161, R163). -/
theorem latchedCycle_indeterminate {pins : BusPins Nat} {old new : Word}
    (h : new.getLsbD pins.rd = false ∨ new.getLsbD pins.rst = false ∨
      ∃ q, (dataMask pins ||| bit pins.dc ||| bit pins.rd ||| bit pins.rst).getLsbD q = true ∧
        old.getLsbD q ≠ new.getLsbD q) : latchedCycle pins old new = .indeterminate := by
  refine if_neg fun ⟨hstable, hrd, hrst⟩ => ?_
  obtain h | h | ⟨q, hq, hne⟩ := h
  · exact Bool.noConfusion (h.symm.trans hrd)
  · exact Bool.noConfusion (h.symm.trans hrst)
  · have hbit := congrArg (BitVec.getLsbD · q) hstable
    simp only [BitVec.getLsbD_and, BitVec.getLsbD_xor, hq, Bool.and_true, BitVec.getLsbD_zero, bne_eq_false_iff_eq]
      at hbit
    exact hne hbit

/-- The WR edges of R163: with a CS edge, or with CS low and a cycle that is not settled. -/
theorem strobeEvents_indeterminate {pins : BusPins Nat} {old new : Word} (hlow : old.getLsbD pins.wr = false)
    (hhigh : new.getLsbD pins.wr = true)
    (h : old.getLsbD pins.cs ≠ new.getLsbD pins.cs ∨
      old.getLsbD pins.cs = false ∧ latchedCycle pins old new = .indeterminate) :
    strobeEvents pins old new = [.indeterminate] := by
  rw [strobeEvents, if_pos ⟨hlow, hhigh⟩]
  by_cases hcs : old.getLsbD pins.cs = new.getLsbD pins.cs
  · obtain ⟨hold, hlatch⟩ := h.resolve_left (absurd hcs)
    rw [if_pos ⟨hold, hcs ▸ hold⟩, hlatch]
  · rw [if_neg (fun ⟨hold, hnew⟩ => hcs (hold.trans hnew.symm)), if_pos hcs]

/-- Around an Indeterminate edge there are at most a Begin and an End. -/
theorem busEvents_indeterminate {pins : BusPins Nat} {old new : Word}
    (h : strobeEvents pins old new = [.indeterminate]) :
    .indeterminate ∈ busEvents pins old new ∧
      ∀ d, .cmd d ∉ busEvents pins old new ∧ .data d ∉ busEvents pins old new := by
  simp only [busEvents, h]
  refine ⟨by simp, fun d => ?_⟩
  split_ifs <;> simp

/-- Settles O22: without an edge of WR only CS can make an event, with CS high WR makes none, and the edges of R163
are the branches in which no cycle is latched. -/
theorem edgesWithoutAndWithIndeterminateEvents : Obligations.EdgesWithoutAndWithIndeterminateEvents := by
  intro pins old new hv
  have hquiet (hcs : old.getLsbD pins.cs = new.getLsbD pins.cs)
      (hwr : ¬(old.getLsbD pins.wr = false ∧ new.getLsbD pins.wr = true)) : busEvents pins old new = [] :=
    (busEvents_of_same_cs hcs).trans (strobeEvents_of_not_rising hwr)
  obtain ⟨hmcs, hmwr⟩ := busMask_cs_wr hv
  refine ⟨hquiet, fun hold hnew => ?_, fun hsame => ?_, fun hlow hhigh h => ?_⟩
  · exact (busEvents_of_same_cs (hold.trans hnew.symm)).trans (strobeEvents_of_cs_high hold hnew)
  · exact hquiet (hsame _ hmcs) fun ⟨hlow, hhigh⟩ =>
      Bool.noConfusion (hlow.symm.trans ((hsame _ hmwr).trans hhigh))
  · exact busEvents_indeterminate (strobeEvents_indeterminate hlow hhigh
      (h.imp_right (And.imp_right latchedCycle_indeterminate)))

/-! ### The three procedures -/

theorem State.TableBuilt.tableWord {s : State} (h : s.TableBuilt) (hv : PinsValid s.cfg.pins)
    (hrd : s.base.getLsbD s.cfg.pins.rd = true) (hrst : s.base.getLsbD s.cfg.pins.rst = true) (b : Byte) :
    TableWord s.cfg.pins (lutAt s.lut b) true b := by
  obtain ⟨o, ho⟩ := h.base
  rw [ho] at hrd hrst
  rw [h.lut, ho]
  exact tableWord_data hv hrd hrst b

/-- The release of a low CS is End and nothing else, whatever the level of WR (R167). -/
theorem traceOf_csRelease {pins : BusPins Nat} (h : PinsValid pins) {old : Word}
    (hcs : old.getLsbD pins.cs = false) : traceOf pins old (csRelease pins) = [.csEnd] := by
  obtain ⟨⟨hcs32, -⟩, ⟨-, hcw, -⟩, -⟩ := h.facts
  have hwr : (old ||| bit pins.cs).getLsbD pins.wr = old.getLsbD pins.wr := or_bit_other hcw.symm
  have hstrobe : strobeEvents pins old (old ||| bit pins.cs) = [] :=
    strobeEvents_of_not_rising fun ⟨hlow, hhigh⟩ => Bool.noConfusion (hlow.symm.trans (hwr.symm.trans hhigh))
  simp [csRelease, traceOf, GpioStore.newOut, busEvents, hstrobe, hcs, or_bit_self hcs32]

/-- Settles O21: the words are table words of their byte, the pulse latches them, and the release sets one bit. -/
theorem cyclesLatchTheirByte : Obligations.CyclesLatchTheirByte := by
  intro s old b hv htable hrd hrst
  have hdata := htable.tableWord hv hrd hrst b
  have hcommand := tableWord_command hv hdata
  exact ⟨rfl, traceOf_cycle hv hcommand old, rfl, traceOf_cycle hv hdata old, rfl, traceOf_csRelease hv,
    or_bit_self hv.facts.1.1, fun q hq => or_bit_other hq⟩

end Sys2Proof.Machine
end

section
/-! What an instruction can do, as one case for each kind (41_bus_cycles.md R171, 44_touch.md R300, 60_exceptions.md
R330 to R344), and what follows for the guard and for the store and bus traces (R164). -/

namespace Sys2Proof.Machine

/-! ### One case for each kind of instruction -/

/-- What an instruction can do: take PinModeHazard; run the cycle of a bus word; send logical operations; complete
without a store, with a renewed table or calibration or without; or make a pass of the touch sampler. -/
inductive ExecEffect (s : State) (i : Instr) : State → Prop where
  | hazard (stores : storesGpio s i = true) (released : s.busDriven = false) :
      ExecEffect s i (s.takeFault .pinModeHazard)
  | busWord (word : isBusInstr i = true) (driven : s.busDriven = true) :
      ExecEffect s i (s.perform (cycleOf s i)).popBusWord
  | operations (stores : storesGpio s i = true) (request : isBusInstr i = false) (driven : s.busDriven = true) :
      ExecEffect s i (({ s with geom := geomAfter s i }.perform
        ((opsOf s i).flatMap (LogicalOp.gpio s.cfg.pins s.lut))).respond i .none)
  | record (silent : storesGpio s i = false) (st : Status) (r : Results) : ExecEffect s i (s.complete i st r)
  | table (silent : storesGpio s i = false) (r : Results) : ExecEffect s i (s.buildTable.complete i .ok r)
  | calibration (silent : storesGpio s i = false) (cx cy : AxisCal) (auto : Bool) (r : Results) :
      ExecEffect s i
        ({ s with touch := { s.touch with calX := cx, calY := cy, autocal := auto } }.complete i .ok r)
  | touched (samples : samplesTouch i = true) (r : Results) :
      ExecEffect s i ((s.touchPass.2.setPhase .idle).respond i r)
  | listening (samples : samplesTouch i = true) : ExecEffect s i s.touchPass.2

theorem storesGpio_of_busInstr (s : State) {i : Instr} (h : isBusInstr i = true) : storesGpio s i = true := by
  obtain ⟨c, hc⟩ | ⟨d, rfl⟩ := busInstr_cases h
  · cases i <;> cases hc <;> rfl
  · rfl

theorem storesGpio_of_samplesTouch (s : State) {i : Instr} (h : samplesTouch i = true) : storesGpio s i = false := by
  cases i with
  | touchSample | touchListen => rfl
  | _ => cases h

/-- The guard before a storing instruction is all that its two outcomes differ in (R171). -/
theorem State.guarded_answers (s k : State) :
    ∃ t, s.guarded k = .next t ∧
      ((s.busDriven = true ∧ t = k) ∨ (s.busDriven = false ∧ t = s.takeFault .pinModeHazard)) := by
  cases hd : s.busDriven with
  | true => exact ⟨k, s.guarded_of_driven hd k, .inl ⟨rfl, rfl⟩⟩
  | false => exact ⟨_, s.guarded_of_released hd k, .inr ⟨rfl, rfl⟩⟩

/-- With no fault every instruction answers a next state, by one of these cases. -/
theorem exec_answers {s : State} (hf : s.fault = none) (i : Instr) : ∃ t, exec i s = .next t ∧ ExecEffect s i t := by
  cases ht : samplesTouch i with
  | true =>
    obtain ⟨t, hx, ⟨r, rfl⟩ | ⟨rfl, -⟩⟩ := exec_touch hf ht
    · exact ⟨_, hx, .touched ht r⟩
    · exact ⟨_, hx, .listening ht⟩
  | false =>
    cases hs : storesGpio s i with
    | false =>
      obtain ⟨u, st, r, hx, ⟨rfl, -⟩ | ⟨rfl, rfl⟩ | ⟨cx, cy, auto, rfl, rfl, -⟩⟩ := exec_silent hf hs ht
      · exact ⟨_, hx, .record hs st r⟩
      · exact ⟨_, hx, .table hs r⟩
      · exact ⟨_, hx, .calibration hs cx cy auto r⟩
    | true =>
      cases hb : isBusInstr i with
      | true =>
        rw [exec_busWord hf hb]
        obtain ⟨t, hx, ⟨hd, rfl⟩ | ⟨hd, rfl⟩⟩ := s.guarded_answers (s.perform (cycleOf s i)).popBusWord
        · exact ⟨_, hx, .busWord hb hd⟩
        · exact ⟨_, hx, .hazard hs hd⟩
      | false =>
        rw [exec_storing hf hs hb]
        obtain ⟨t, hx, ⟨hd, rfl⟩ | ⟨hd, rfl⟩⟩ := s.guarded_answers _
        · exact ⟨_, hx, .operations hs hb hd⟩
        · exact ⟨_, hx, .hazard hs hd⟩

theorem exec_effect {s t : State} {i : Instr} (hx : exec i s = .next t) : ExecEffect s i t := by
  obtain ⟨t', hx', he⟩ := exec_answers (exec_fault hx) i
  cases hx'.symm.trans hx
  exact he

/-- A storing instruction takes PinModeHazard while a bus pin is Released (R171, R340). -/
theorem takesHazard_of_released {s : State} {i : Instr} (hf : s.fault = none) (hs : storesGpio s i = true)
    (hd : s.busDriven = false) : TakesHazard i s := by
  cases hb : isBusInstr i with
  | true => exact (exec_busWord hf hb).trans (s.guarded_of_released hd _)
  | false => exact (exec_storing hf hs hb).trans (s.guarded_of_released hd _)

/-! ### The store trace and the bus trace (R164) -/

/-- The stores of `l` are all that the traces and OUT went through from `s` to `t` (R47, R164). -/
structure Performs (s t : State) (l : List GpioStore) : Prop where
  stores : t.stores = s.stores ++ l.map (GpioStore.entry s.cfg)
  out : t.out = outAfter s.out l
  bus : t.bus = s.bus ++ traceOf s.cfg.pins s.out l

theorem Performs.nothing {s t : State} (hs : t.stores = s.stores) (ho : t.out = s.out) (hb : t.bus = s.bus) :
    Performs s t [] :=
  ⟨by simp [hs], ho, by simp [hb, traceOf]⟩

theorem touchPass_stores (s : State) : s.touchPass.2.stores = s.stores := by
  obtain ⟨touch, out, pm, a, d, ht, -⟩ := touchPass_frame s
  rw [ht]

theorem touchPass_fault (s : State) : s.touchPass.2.fault = s.fault := by
  obtain ⟨touch, out, pm, a, d, ht, -⟩ := touchPass_frame s
  rw [ht]

/-- Every instruction but a touch request performs a list of stores, which is empty unless it is a bus word or sends
logical operations. -/
theorem exec_performs {s t : State} {i : Instr} (hx : exec i s = .next t) (ht : samplesTouch i = false) :
    ∃ l, Performs s t l := by
  cases exec_effect hx with
  | hazard | record | table | calibration => exact ⟨[], .nothing rfl rfl rfl⟩
  | busWord => exact ⟨cycleOf s i, rfl, rfl, rfl⟩
  | operations => exact ⟨_, rfl, rfl, rfl⟩
  | touched hs | listening hs => rw [ht] at hs; cases hs

/-- A touch pass makes no store (R300). -/
theorem exec_touch_stores {s t : State} {i : Instr} (hx : exec i s = .next t) (ht : samplesTouch i = true) :
    t.stores = s.stores := by
  obtain ⟨t', hx', hcase⟩ := exec_touch (exec_fault hx) ht
  cases hx'.symm.trans hx
  obtain ⟨r, rfl⟩ | ⟨rfl, -⟩ := hcase <;> exact touchPass_stores s

/-- Settles O23: a touch pass makes no store; the list of stores of every other instruction moves OUT and both
traces. -/
theorem traceIsDeterminedByStores : Obligations.TraceIsDeterminedByStores := fun _ _ _ hx =>
  ⟨exec_touch_stores hx, fun ht =>
    have ⟨l, hl⟩ := exec_performs hx ht
    ⟨l, hl.stores, hl.out, hl.bus⟩⟩

/-! ### The guard (R171) -/

theorem LogicalOp.gpio_ne_nil (pins : BusPins Nat) (lut : Vector Word 256) (op : LogicalOp) :
    op.gpio pins lut ≠ [] := by
  cases op <;> simp [LogicalOp.gpio, commandOp, burstOp, csRelease]

theorem cycleOf_ne_nil (s : State) (i : Instr) : cycleOf s i ≠ [] := by
  cases i <;> simp [cycleOf, commandOp, cmdCycle, dataCycle]

theorem Performs.stores_lt {s t : State} {l : List GpioStore} (h : Performs s t l) (hl : l ≠ []) :
    s.stores.length < t.stores.length := by
  rw [h.stores, List.length_append, List.length_map]
  have := List.length_pos_iff.2 hl
  omega

/-- A storing instruction makes a store while every bus pin is an output, and takes no fault. -/
theorem ExecEffect.stores_of_driven {s t : State} {i : Instr} (h : ExecEffect s i t) (hf : s.fault = none)
    (hs : storesGpio s i = true) (hd : s.busDriven = true) :
    t.fault = none ∧ s.stores.length < t.stores.length := by
  cases h with
  | hazard _ hr => rw [hd] at hr; cases hr
  | busWord => exact ⟨hf, Performs.stores_lt (l := cycleOf s i) ⟨rfl, rfl, rfl⟩ (cycleOf_ne_nil s i)⟩
  | operations _ hb =>
    refine ⟨hf, Performs.stores_lt (l := (opsOf s i).flatMap (LogicalOp.gpio s.cfg.pins s.lut)) ⟨rfl, rfl, rfl⟩ ?_⟩
    obtain ⟨op, hop⟩ := List.exists_mem_of_ne_nil _ (opsOf_ne_nil s i hs hb)
    exact fun hnil => op.gpio_ne_nil _ _ (List.flatMap_eq_nil_iff.1 hnil op hop)
  | record hn | table hn | calibration hn => rw [hs] at hn; cases hn
  | touched ht | listening ht => rw [storesGpio_of_samplesTouch s ht] at hs; cases hs

/-- An instruction that would not store makes no store and takes no fault, whatever the pins. -/
theorem ExecEffect.silent {s t : State} {i : Instr} (h : ExecEffect s i t) (hf : s.fault = none)
    (hs : storesGpio s i = false) : t.fault = none ∧ t.stores = s.stores := by
  cases h with
  | hazard hn | operations hn => rw [hs] at hn; cases hn
  | busWord hb => rw [storesGpio_of_busInstr s hb] at hs; cases hs
  | record | table | calibration => exact ⟨hf, rfl⟩
  | touched | listening => exact ⟨(touchPass_fault s).trans hf, touchPass_stores s⟩

/-- Settles O30: the guard decides for an instruction that stores, and no other instruction passes it. -/
theorem storingInstructionsAreGuarded : Obligations.StoringInstructionsAreGuarded := by
  intro s i hf
  obtain ⟨t, hx, he⟩ := exec_answers hf i
  exact ⟨takesHazard_of_released hf, fun hs hd => ⟨t, hx, he.stores_of_driven hf hs hd⟩,
    fun hs => ⟨t, hx, he.silent hf hs⟩⟩

end Sys2Proof.Machine
end

section
/-! The idle invariant (41_bus_cycles.md R169): construction is ready, and every request without sampling leaves a
ready state and adds nothing Indeterminate. -/

namespace Sys2Proof.Machine

/-- Settles O14: both parts hold of `construct` as it stands; only readiness needs the checks to pass. -/
theorem constructionMeetsTheInvariant : Obligations.ConstructionMeetsTheInvariant := fun p env hx hy =>
  ⟨construct_inv p env hx hy, construct_ready env⟩

/-- The lines whose level the controller watches are high (R169, R373). -/
structure StrobesHigh (pins : BusPins Nat) (out : Word) : Prop where
  cs : out.getLsbD pins.cs = true
  wr : out.getLsbD pins.wr = true
  rd : out.getLsbD pins.rd = true
  rst : out.getLsbD pins.rst = true

theorem State.Ready.strobesHigh {s : State} (h : s.Ready) : StrobesHigh s.cfg.pins s.out := by
  have hidle := h.idle
  rw [State.idle, Bool.and_eq_true] at hidle
  exact ⟨hidle.1, hidle.2, h.outRd, h.outRst⟩

theorem TableWord.strobesHigh {pins : BusPins Nat} {w : Word} {dc : Bool} {b : Byte} (hw : TableWord pins w dc b)
    (h : PinsValid pins) : StrobesHigh pins (w ||| bit pins.wr ||| bit pins.cs) := by
  obtain ⟨hcs, hwr, hrd, hrst⟩ := hw.restLevel h
  exact ⟨hcs, hwr, hrd, hrst⟩

/-- A logical operation ends with the strobes high, from any OUT (R170). -/
theorem State.Ready.strobesHigh_op {s : State} (h : s.Ready) (old : Word) {op : LogicalOp} (hop : op ≠ .burst []) :
    StrobesHigh s.cfg.pins (op.outAfter s old) := by
  cases op with
  | command c => exact (h.commandWord c).strobesHigh h.pins
  | burst bs =>
    cases hl : bs.getLast? with
    | none => exact absurd (congrArg LogicalOp.burst (List.getLast?_eq_none_iff.1 hl)) hop
    | some b =>
      simp only [LogicalOp.outAfter, hl]
      exact (h.dataWord b).strobesHigh h.pins

/-- So do any number of them in a row. -/
theorem State.Ready.strobesHigh_ops {s : State} (h : s.Ready) {ops : List LogicalOp}
    (hops : ∀ op ∈ ops, op ≠ .burst []) :
    StrobesHigh s.cfg.pins (outAfter s.out (ops.flatMap (LogicalOp.gpio s.cfg.pins s.lut))) := by
  obtain rfl | ⟨init, op, rfl⟩ := List.eq_nil_or_concat' ops
  · exact h.strobesHigh
  · rw [List.flatMap_append, outAfter_append, List.flatMap_singleton, ops_gpio_out]
    exact h.strobesHigh_op _ (hops op (by simp))

/-! ### The shared operations -/

theorem State.Ready.complete {s : State} (h : s.Ready) (i : Instr) (st : Status) (r : Results) :
    (s.complete i st r).Ready :=
  { h with table := ⟨h.table.base, h.table.lut⟩ }

theorem State.Ready.withGeom {s : State} (h : s.Ready) (g : Geometry) : { s with geom := g }.Ready :=
  { h with table := ⟨h.table.base, h.table.lut⟩ }

theorem State.Ready.withTouch {s : State} (h : s.Ready) (touch : TouchState) : { s with touch := touch }.Ready :=
  { h with table := ⟨h.table.base, h.table.lut⟩ }

theorem State.Ready.perform {s : State} (h : s.Ready) {l : List GpioStore}
    (hl : StrobesHigh s.cfg.pins (outAfter s.out l)) : (s.perform l).Ready :=
  { h with
    table := ⟨h.table.base, h.table.lut⟩
    idle := by simp [State.idle, hl.cs, hl.wr]
    outRd := hl.rd
    outRst := hl.rst }

/-- A build with RD and RST high in OUT captures them in BASE (R142). -/
theorem State.Ready.buildTable {s : State} (h : s.Ready) : s.buildTable.Ready := by
  obtain ⟨⟨-, -, -, lrd, lrst⟩, ⟨-, -, ncr, nct, -, ndr, ndt, nwr, nwt, -⟩, -, -, -, drd, drst⟩ := h.pins.facts
  exact { h with
    table := s.buildTable_tableBuilt
    baseRd := (baseline_other _ lrd drd ncr nwr ndr).trans h.outRd
    baseRst := (baseline_other _ lrst drst nct nwt ndt).trans h.outRst }

/-! ### Requests -/

theorem opEvents_settled (ops : List LogicalOp) : .indeterminate ∉ opEvents ops := by
  rw [opEvents, List.mem_flatMap]
  rintro ⟨op, -, h⟩
  cases op <;> simp [LogicalOp.events] at h

/-- Settles O24: the operations of a storing request end with the strobes high and their trace is Begin, bytes, End;
every other request leaves OUT and the bus trace. -/
theorem requestsKeepReadyStates : Obligations.RequestsKeepReadyStates := by
  intro s t i h hb ht hx
  cases exec_effect hx with
  | hazard _ hr => exact Bool.noConfusion (hr.symm.trans h.driven)
  | busWord hw => rw [hb] at hw; cases hw
  | operations hs =>
    have hops := opsOf_bursts s i hs
    exact ⟨((h.withGeom (geomAfter s i)).perform (h.strobesHigh_ops hops)).complete i .ok .none, opEvents (opsOf s i),
      congrArg (s.bus ++ ·) (traceOf_ops h _ hops), opEvents_settled _⟩
  | record _ st r => exact ⟨h.complete i st r, [], by simp, by simp⟩
  | table _ r => exact ⟨h.buildTable.complete i .ok r, [], by simp, by simp⟩
  | calibration _ cx cy auto r => exact ⟨(h.withTouch _).complete i .ok r, [], by simp, by simp⟩
  | touched hs | listening hs => rw [ht] at hs; cases hs

end Sys2Proof.Machine
end

section
/-! The write primitives (41_bus_cycles.md R172 to R179), as requests that send logical operations. -/

namespace Sys2Proof.Machine

/-- A storing request that keeps the geometry sends its operations while every bus pin is an output (R171). -/
theorem sends_of_driven {s : State} {i : Instr} (hf : s.fault = none) (hs : storesGpio s i = true)
    (hb : isBusInstr i = false) (hg : geomAfter s i = s.geom) (hd : s.busDriven = true) :
    Sends i s (frameLength i) (opsOf s i) := by
  obtain ⟨events, hperform, hevents⟩ := perform_sends s (opsOf s i) (opsOf_bursts s i hs)
  refine ⟨events, ?_, hevents⟩
  rw [exec_storing hf hs hb, State.guarded_of_driven hd, hg, hperform]
  rfl

/-- Settles O25: WRITE_COMMAND stores in every state, and its operation is one command. -/
theorem writeCommandSendsOneCommand : Obligations.WriteCommandSendsOneCommand := fun _ _ =>
  ⟨rfl, fun hf => sends_of_driven hf rfl rfl rfl, fun hf => takesHazard_of_released hf rfl⟩

/-- Settles O26: WRITE_DATA stores in every state, and its operation is a burst of one byte. -/
theorem writeDataSendsOneByte : Obligations.WriteDataSendsOneByte := fun _ _ =>
  ⟨rfl, fun hf => sends_of_driven hf rfl rfl rfl, fun hf => takesHazard_of_released hf rfl⟩

/-- The four bytes of a word in frame order give its value (R101). -/
theorem toNat_wordBytes (v : Word) :
    v.toNat = (v.extractLsb' 24 8).toNat * 2 ^ 24 + (v.extractLsb' 16 8).toNat * 2 ^ 16 +
      (v.extractLsb' 8 8).toNat * 2 ^ 8 + (v.extractLsb' 0 8).toNat := by
  rw [← wordOf_toNat, wordOf_bytes]

/-- Settles O27: the length field is the four bytes of the length, and the burst stores unless it is empty. -/
theorem writeDataBurstSendsItsBytes : Obligations.WriteDataBurstSendsItsBytes := by
  intro s data
  have hstores (hne : data ≠ []) : storesGpio s (.writeDataBurst data) = true := bne_iff_ne.2 hne
  refine ⟨fun hlen => ⟨_, _, _, _, rfl, ?_⟩, fun hf hnil => ?_, fun hf hne => sends_of_driven hf (hstores hne) rfl rfl,
    fun hf hne => takesHazard_of_released hf (hstores hne)⟩
  · rw [← toNat_wordBytes, BitVec.toNat_ofNat, Nat.mod_eq_of_lt hlen]
  · subst hnil
    exact State.whenRunning_of_none hf _

/-- Settles O28: the fields are the pattern's length and the four bytes of the count, and the pattern is sent unless
it or the count is zero. -/
theorem writeDataRepeatSendsItsPattern : Obligations.WriteDataRepeatSendsItsPattern := by
  intro s pat count
  have hstores (hp : pat ≠ []) (hc : count ≠ 0) : storesGpio s (.writeDataRepeat pat count) = true := by
    simpa [storesGpio, hp] using hc
  refine ⟨fun hlen => ⟨_, _, _, _, _, rfl, ?_, toNat_wordBytes count⟩, fun hf hnil => ?_,
    fun hf hp hc => sends_of_driven hf (hstores hp hc) rfl rfl,
    fun hf hp hc => takesHazard_of_released hf (hstores hp hc)⟩
  · rw [BitVec.toNat_ofNat, Nat.mod_eq_of_lt hlen]
  · exact (State.whenRunning_of_none hf _).trans (if_pos hnil)

/-! ### The number of stores (R179) -/

theorem burst_entries_length (s : State) (bs : List Byte) :
    (LogicalOp.entries s (.burst bs)).length = 2 * bs.length + 1 := by
  simp [LogicalOp.entries, dataEntries, List.length_flatMap, Nat.mul_comm]

/-- A request that sends operations adds their entries to the store trace. -/
theorem Sends.stores_length {s t : State} {i : Instr} {len : Nat} {ops : List LogicalOp} (h : Sends i s len ops)
    (hx : exec i s = .next t) :
    t.stores.length = s.stores.length + (ops.flatMap (LogicalOp.entries s)).length := by
  obtain ⟨events, hx', -⟩ := h
  cases hx'.symm.trans hx
  simp

theorem SucceedsWithoutStore.stores_length {s t : State} {i : Instr} {len : Nat} (h : SucceedsWithoutStore i s len)
    (hx : exec i s = .next t) : t.stores.length = s.stores.length := by
  cases h.symm.trans hx
  rfl

/-- Settles O29: by what each primitive sends, a command having three entries and a burst of n bytes 2n + 1. -/
theorem primitivesMakeTheStatedNumberOfStores : Obligations.PrimitivesMakeTheStatedNumberOfStores := by
  intro s t hf hd
  refine ⟨fun c hx => ?_, fun d hx => ?_, fun data hx => ?_, fun pat count hx => ?_⟩
  · exact ((writeCommandSendsOneCommand s c).2.1 hf hd).stores_length hx
  · exact ((writeDataSendsOneByte s d).2.1 hf hd).stores_length hx
  · obtain ⟨-, hempty, hsends, -⟩ := writeDataBurstSendsItsBytes s data
    by_cases hne : data = []
    · rw [(hempty hf hne).stores_length hx]
      simp [hne]
    · rw [(hsends hf hne hd).stores_length hx, List.flatMap_singleton, burst_entries_length]
      simp [hne]
  · obtain ⟨-, hempty, hsends, -⟩ := writeDataRepeatSendsItsPattern s pat count
    by_cases hne : pat = [] ∨ count = 0
    · rw [(hempty hf hne).stores_length hx]
      obtain rfl | rfl := hne <;> simp
    · obtain ⟨hp, hc⟩ := not_or.1 hne
      have hlen : (List.replicate count.toNat pat).flatten.length = count.toNat * pat.length :=
        repeated_length pat count.toNat
      have hpos : pat.length * count.toNat ≠ 0 :=
        Nat.mul_ne_zero (mt List.length_eq_zero_iff.1 hp) (mt (BitVec.eq_of_toNat_eq (y := 0)) hc)
      rw [(hsends hf hp hc hd).stores_length hx, List.flatMap_singleton, burst_entries_length, hlen, if_neg hpos,
        Nat.mul_comm count.toNat, Nat.mul_assoc]

end Sys2Proof.Machine
end

section
/-! The bus words at the model's port (30_encoding.md R109, R110; logs 3 to 5), as logical operations: a command word
is WRITE_COMMAND of its byte without the record, and data words in a row are one burst. -/

namespace Sys2Proof.Machine

/-- A bus word runs its cycle while every bus pin is an output, and leaves the port (R171; logs 3, 5). -/
theorem exec_busWord_of_driven {s : State} {i : Instr} (hf : s.fault = none) (hb : isBusInstr i = true)
    (hd : s.busDriven = true) : exec i s = .next (s.perform (cycleOf s i)).popBusWord :=
  (exec_busWord hf hb).trans (s.guarded_of_driven hd _)

/-- A bus word whose cycle is one whole logical operation leaves the state after it, and from a ready state its
events (R170). -/
theorem exec_busWord_op {s : State} {i : Instr} (hf : s.fault = none) (hb : isBusInstr i = true)
    (hd : s.busDriven = true) {op : LogicalOp} (hop : op ≠ .burst [])
    (hc : cycleOf s i = op.gpio s.cfg.pins s.lut) :
    ∃ events, exec i s = .next { s.afterOps [op] events with busQueue := s.busQueue.tail } ∧
      (s.Ready → events = opEvents [op]) := by
  obtain ⟨events, hperform, hevents⟩ := perform_sends s [op] (by simpa using hop)
  refine ⟨events, ?_, hevents⟩
  rw [List.flatMap_singleton] at hperform
  rw [exec_busWord_of_driven hf hb hd, hc, hperform]
  rfl

/-! ### Command words -/

theorem isBusInstr_of_busCommandByte {i : Instr} {c : Byte} (h : busCommandByte i = some c) :
    isBusInstr i = true := by
  simp [isBusInstr, encode_of_busCommandByte h]

/-- A command word and WRITE_COMMAND of its byte have one guard and one list of stores (R172; logs 3 to 5). -/
theorem commandWord_like_writeCommand {s t u : State} {i : Instr} {c : Byte} (hc : busCommandByte i = some c)
    (ht : exec i s = .next t) (hu : exec (.writeCommand c) s = .next u) :
    t.out = u.out ∧ t.stores = u.stores ∧ t.bus = u.bus ∧ t.fault = u.fault := by
  have hf := exec_fault ht
  rw [exec_busWord hf (isBusInstr_of_busCommandByte hc), cycleOf_command s hc] at ht
  rw [exec, execWriteCommand, State.whenRunning_of_none hf] at hu
  obtain ⟨hd, rfl⟩ | ⟨hd, rfl⟩ := State.guarded_next.1 ht
  · cases (s.guarded_of_driven hd _).symm.trans hu
    exact ⟨rfl, rfl, rfl, rfl⟩
  · cases (s.guarded_of_released hd _).symm.trans hu
    exact ⟨rfl, rfl, rfl, rfl⟩

/-- Settles O55: the cycle of a command word is the whole operation of WRITE_COMMAND of its byte. -/
theorem commandWordsSendTheirByte : Obligations.CommandWordsSendTheirByte := by
  intro s i c hc hf
  have hb := isBusInstr_of_busCommandByte hc
  exact ⟨encode_of_busCommandByte hc, fun hd => exec_busWord_op hf hb hd (by simp) (cycleOf_command s hc),
    takesHazard_of_released hf (storesGpio_of_busInstr s hb), fun t u => commandWord_like_writeCommand hc⟩

/-! ### Data words -/

theorem dataNext_iff (queue : List BusWord) :
    dataNext queue = true ↔ ∃ w ws, queue = w :: ws ∧ w.getLsbD 8 = true := by
  cases queue with
  | nil => simp [dataNext]
  | cons w ws => simp [dataNext, isDataWord]

/-- The cycle of a data word that ends a burst is the burst of its byte (log 4). -/
theorem cycleOf_lastData {s : State} (h : dataNext s.busQueue.tail = false) (d : Byte) :
    cycleOf s (.busData d) = (LogicalOp.burst [d]).gpio s.cfg.pins s.lut := by
  simp [cycleOf, h, releaseUnless, LogicalOp.gpio, burstOp]

/-- The cycle of a data word with another behind it leaves CS low (log 4). -/
theorem cycleOf_innerData {s : State} (h : dataNext s.busQueue.tail = true) (d : Byte) :
    cycleOf s (.busData d) = dataCycle s.cfg.pins s.lut d := by
  simp [cycleOf, h, releaseUnless]

/-- From a ready state a data cycle is Begin and its byte (R166). -/
theorem State.Ready.traceOf_dataCycle {s : State} (h : s.Ready) (d : Byte) :
    traceOf s.cfg.pins s.out (dataCycle s.cfg.pins s.lut d) = [.csBegin, .data d] := by
  rw [dataCycle, traceOf_cycle h.pins (h.dataWord d), if_pos h.strobesHigh.cs]
  rfl

/-- Settles O56: whether a data word follows at the port decides between a whole burst of one byte and its data
cycle alone. -/
theorem dataWordsSendTheirByte : Obligations.DataWordsSendTheirByte := by
  intro s d hf goesOn
  have hgoes : dataNext s.busQueue.tail = true ↔ goesOn := dataNext_iff _
  refine ⟨fun hd hlast => ?_, fun hd hon => ?_, takesHazard_of_released hf rfl⟩
  · exact exec_busWord_op hf rfl hd (by simp) (cycleOf_lastData (Bool.eq_false_iff.2 (mt hgoes.1 hlast)) d)
  · refine ⟨_, ?_, fun h => h.traceOf_dataCycle d⟩
    rw [exec_busWord_of_driven hf rfl hd, cycleOf_innerData (hgoes.2 hon)]
    rfl

/-! ### A burst word by word (R176) -/

/-- A step with a data word at the head of the port runs its cycle. -/
theorem step_dataWord {s : State} {d : Byte} {ws : List BusWord} (hf : s.fault = none) (hd : s.busDriven = true)
    (hs : s.schedule = []) (hq : s.busQueue = dataWord d :: ws) :
    step s = .next (s.perform (cycleOf s (.busData d))).popBusWord := by
  rw [step_word (.inl ⟨hs, rfl⟩) hq, decodeBusWord_dataWord, exec_busWord_of_driven hf rfl hd]

/-- Data words alone at the port make the stores of one burst, one step each, whatever OUT is before them. -/
theorem after_dataWords {s : State} {bs : List Byte} (hf : s.fault = none) (hd : s.busDriven = true)
    (hs : s.schedule = []) (hbs : bs ≠ []) (hq : s.busQueue = bs.map dataWord) :
    s.after bs.length = some { s.perform (burstOp s.cfg.pins s.lut bs) with busQueue := [] } := by
  induction bs generalizing s with
  | nil => exact absurd rfl hbs
  | cons b bs ih =>
    have hstep := step_dataWord hf hd hs hq
    have htail : s.busQueue.tail = bs.map dataWord := by rw [hq]; rfl
    simp only [List.length_cons, State.after, hstep]
    cases bs with
    | nil =>
      rw [cycleOf_lastData (by rw [htail]; rfl), State.popBusWord, State.perform_busQueue, htail]
      rfl
    | cons b' bs =>
      have hon : dataNext s.busQueue.tail = true := by rw [htail]; exact (dataWord_parts b').1
      rw [cycleOf_innerData hon, ih (s := (s.perform (dataCycle s.cfg.pins s.lut b)).popBusWord) hf hd hs (by simp) htail]
      have hburst : burstOp s.cfg.pins s.lut (b :: b' :: bs) =
          dataCycle s.cfg.pins s.lut b ++ burstOp s.cfg.pins s.lut (b' :: bs) := by simp [burstOp]
      rw [hburst, ← State.perform_perform]
      rfl

/-- Settles O57: the stores are those of one burst, whose events from a ready state are Begin, its bytes, End. -/
theorem portBurstRefinesWriteDataBurst : Obligations.PortBurstRefinesWriteDataBurst := by
  intro s bs h hs hbs hq
  have hop : LogicalOp.burst bs ≠ .burst [] := by simpa using hbs
  have hburst : s.perform (burstOp s.cfg.pins s.lut bs) = s.afterOps [.burst bs] (opEvents [.burst bs]) := by
    have hevents : opEvents [.burst bs] = (LogicalOp.burst bs).events := List.flatMap_singleton ..
    rw [hevents, ← traceOf_op h s.out h.strobesHigh.cs (.burst bs) hop]
    exact perform_op s (.burst bs)
  rw [after_dataWords h.running h.driven hs hbs hq, hburst]

end Sys2Proof.Machine
end

section
/-! PLATFORM_RESET (60_exceptions.md R357): what it leaves, and what the record of the ended run says of a run from a
ready state whose stores end with whole logical operations or inside one (41_bus_cycles.md R163, R170). -/

namespace Sys2Proof.Machine

/-! ### Entries and stores of logical operations -/

theorem op_entries (s : State) (op : LogicalOp) :
    (op.gpio s.cfg.pins s.lut).map (GpioStore.entry s.cfg) = op.entries s := by
  have h := congrArg State.stores (perform_op s op)
  simpa [State.afterOps] using h

theorem ops_entries (s : State) (ops : List LogicalOp) :
    (ops.flatMap (LogicalOp.gpio s.cfg.pins s.lut)).map (GpioStore.entry s.cfg) =
      ops.flatMap (LogicalOp.entries s) := by
  rw [List.map_flatMap]
  exact List.flatMap_congr fun op _ => op_entries s op

/-! ### CS inside a logical operation -/

/-- Once a word with CS low is in OUT, CS stays low until a store of OUT or SET raises it. -/
theorem outAfter_cs_low {pins : BusPins Nat} {w : Word} {l : List GpioStore} (hw : w.getLsbD pins.cs = false)
    (hl : ∀ st ∈ l, st.ReplaysAt 0#32 pins.cs) (old : Word) :
    (outAfter old (⟨.out, w⟩ :: l)).getLsbD pins.cs = false := by
  obtain h | h := outAfter_replays hl w
  · exact h.trans hw
  · exact h.trans BitVec.getLsbD_zero

/-- The cycles of a logical operation, before its release of CS. -/
def LogicalOp.cycles (pins : BusPins Nat) (lut : Vector Word 256) : LogicalOp → List GpioStore
  | .command c => cmdCycle pins lut c
  | .burst bs => bs.flatMap (dataCycle pins lut)

theorem LogicalOp.gpio_eq (pins : BusPins Nat) (lut : Vector Word 256) (op : LogicalOp) :
    op.gpio pins lut = op.cycles pins lut ++ csRelease pins := by
  cases op <;> rfl

/-- No store of a data cycle raises CS (R146, R166). -/
theorem State.Ready.dataCycle_low {s : State} (h : s.Ready) (b : Byte) :
    ∀ st ∈ dataCycle s.cfg.pins s.lut b, st.ReplaysAt 0#32 s.cfg.pins.cs := by
  obtain ⟨-, ⟨-, hcw, -⟩, -⟩ := h.pins.facts
  simp [dataCycle, GpioStore.ReplaysAt, (h.dataWord b).cs, hcw]

/-- No store of a command cycle raises CS (R146, R165). -/
theorem State.Ready.cmdCycle_low {s : State} (h : s.Ready) (c : Byte) :
    ∀ st ∈ cmdCycle s.cfg.pins s.lut c, st.ReplaysAt 0#32 s.cfg.pins.cs := by
  obtain ⟨-, ⟨-, hcw, -⟩, -⟩ := h.pins.facts
  simp [cmdCycle, commandGpioWord, GpioStore.ReplaysAt, (h.dataWord c).cs, hcw]

theorem State.Ready.cycles_low {s : State} (h : s.Ready) (op : LogicalOp) :
    ∀ st ∈ op.cycles s.cfg.pins s.lut, st.ReplaysAt 0#32 s.cfg.pins.cs := by
  cases op with
  | command c => exact h.cmdCycle_low c
  | burst bs =>
    intro st hst
    obtain ⟨b, -, hst⟩ := List.mem_flatMap.1 hst
    exact h.dataCycle_low b st hst

/-- They begin with a word in OUT, unless there are none. -/
theorem LogicalOp.cycles_begin (pins : BusPins Nat) (lut : Vector Word 256) {op : LogicalOp} (hop : op ≠ .burst []) :
    ∃ w rest, op.cycles pins lut = ⟨.out, w⟩ :: rest := by
  match op with
  | .command c => exact ⟨_, _, rfl⟩
  | .burst [] => exact absurd rfl hop
  | .burst (b :: bs) => exact ⟨_, _, rfl⟩

/-- CS is low after a first part of a logical operation, from any OUT (R165 to R167). -/
theorem State.Ready.cs_low_inside {s : State} (h : s.Ready) {op : LogicalOp} (hop : op ≠ .burst [])
    {l : List GpioStore} (hl : l ≠ []) (hpre : l <+: op.gpio s.cfg.pins s.lut)
    (hne : l ≠ op.gpio s.cfg.pins s.lut) (old : Word) : (outAfter old l).getLsbD s.cfg.pins.cs = false := by
  have hcycles : l <+: op.cycles s.cfg.pins s.lut := by
    rw [op.gpio_eq] at hpre hne
    exact (List.prefix_concat_iff.1 hpre).resolve_left hne
  have hlow (st) (hst : st ∈ l) := h.cycles_low op st (hcycles.subset hst)
  obtain ⟨w, rest, hbegin⟩ := op.cycles_begin s.cfg.pins s.lut hop
  rw [hbegin] at hcycles
  obtain rfl | ⟨l', rfl, -⟩ := List.prefix_cons_iff.1 hcycles
  · exact absurd rfl hl
  · obtain ⟨hw, hl'⟩ := List.forall_mem_cons.1 hlow
    exact outAfter_cs_low (by simpa [GpioStore.ReplaysAt] using hw) hl' old

/-! ### The record of the ended run -/

/-- The bus trace of a run that ends with these stores of the move that was due (R163, log 13). -/
def State.endedBus (s : State) (done : List GpioStore) : List BusEvent :=
  s.bus ++ traceOf s.cfg.pins s.out done ++
    (if (outAfter s.out done).getLsbD s.cfg.pins.cs = false ∧ (done ≠ [] ∨ s.busQueue ≠ []) then [.indeterminate]
      else [])

/-- The stores that are due are those by which the own move extends the trace, and none without such a move. -/
theorem dueStores_eq {s : State} {due : List GpioStore}
    (h : (∃ u, ownMove s = .next u ∧ u.stores = s.stores ++ due.map (GpioStore.entry s.cfg)) ∨
      ((∀ u, ownMove s ≠ .next u) ∧ due = [])) : s.dueStores = due.map (GpioStore.entry s.cfg) := by
  obtain ⟨u, hu, hstores⟩ | ⟨hnone, rfl⟩ := h
  · exact dueStores_next hu hstores
  · exact dueStores_none hnone

theorem endedRun_bus {s : State} {due : List GpioStore} (hd : s.dueStores = due.map (GpioStore.entry s.cfg))
    (ha : due = [] ∨ s.cfg.outAddr ≠ s.cfg.setAddr) (made : Nat) :
    (s.endedRun made).bus = s.endedBus (due.take made) :=
  congrArg RunRecord.bus (endedRun_of_due hd ha made)

/-- Whole logical operations from a ready state add their events only: CS is high after them. -/
theorem State.Ready.endedBus_whole {s : State} (h : s.Ready) {ops : List LogicalOp} (hops : .burst [] ∉ ops) :
    s.endedBus (ops.flatMap (LogicalOp.gpio s.cfg.pins s.lut)) = s.bus ++ opEvents ops := by
  have hne (op) (hop : op ∈ ops) : op ≠ .burst [] := fun he => hops (he ▸ hop)
  rw [State.endedBus, traceOf_ops h ops hne, (h.strobesHigh_ops hne).cs]
  simp

/-- A last operation that is only begun leaves CS low, so Indeterminate ends the trace (R163). -/
theorem State.Ready.endedBus_inside {s : State} (h : s.Ready) (before : List GpioStore) {op : LogicalOp}
    (hop : op ≠ .burst []) {l : List GpioStore} (hl : l ≠ []) (hpre : l <+: op.gpio s.cfg.pins s.lut)
    (hne : l ≠ op.gpio s.cfg.pins s.lut) : (s.endedBus (before ++ l)).getLast? = some .indeterminate := by
  have hlow : (outAfter s.out (before ++ l)).getLsbD s.cfg.pins.cs = false := by
    rw [outAfter_append]
    exact h.cs_low_inside hop hl hpre hne _
  have hdone : before ++ l ≠ [] := List.append_ne_nil_of_right_ne_nil before hl
  rw [State.endedBus, if_pos ⟨hlow, .inl hdone⟩, List.getLast?_concat]

/-- Entries determine stores made before a reset: there are none, or the addresses are distinct. -/
theorem done_eq_of_entries {cfg : BusConfig} {due l : List GpioStore} {made : Nat}
    (ha : due = [] ∨ cfg.outAddr ≠ cfg.setAddr)
    (h : (due.take made).map (GpioStore.entry cfg) = l.map (GpioStore.entry cfg)) : due.take made = l := by
  obtain rfl | ha := ha
  · rw [List.take_nil] at h ⊢
    exact (List.map_eq_nil_iff.1 h.symm).symm
  · exact entry_injective ha h

/-- Settles O59: the step is `platformReset` without the turn; the record follows from the stores that were due; and
those are the stores of whole operations, or of these and a part of one, as their entries are. -/
theorem platformResetConstructsAgain : Obligations.PlatformResetConstructsAgain := by
  intro s made env turns hs
  refine ⟨_, { s with schedule := turns }.endedRun made, by rw [step, hs]; rfl, rfl, rfl, fun due hdue ha => ?_⟩
  have hdue := dueStores_eq hdue
  have hbus : ({ s with schedule := turns }.endedRun made).bus = s.endedBus (due.take made) :=
    endedRun_bus hdue ha made
  refine ⟨congrArg RunRecord.stores (endedRun_of_due hdue ha made), hbus,
    fun h ops hops => ⟨fun hdone => ?_, fun op part hop hpart hpre hne hdone => ?_⟩⟩
  · rw [← ops_entries] at hdone
    rw [hbus, done_eq_of_entries ha hdone, h.endedBus_whole hops]
  · rw [← op_entries] at hpre hne
    obtain ⟨l, hl, rfl⟩ := List.prefix_map_iff.1 hpre
    rw [← ops_entries, ← List.map_append] at hdone
    rw [hbus, done_eq_of_entries ha hdone]
    exact h.endedBus_inside _ hop (mt (congrArg (List.map _)) hpart) hl (mt (congrArg (List.map _)) hne)

end Sys2Proof.Machine
end

section
/-! The colour formulas (42_window_pixel.md R200 to R204): the bytes of a pixel, the conversion of three channels as
disjoint fields of a word, and their unpacking. -/

namespace Sys2Proof.Machine

/-! ### The bytes of a pixel (R200, R201) -/

theorem byteOf_toNat (w : Word) : (byteOf w).toNat = w.toNat &&& 0xFF :=
  (BitVec.toNat_setWidth 8 w).trans (Nat.and_two_pow_sub_one_eq_mod w.toNat 8).symm

/-- The last byte of an 18-bit pixel: the mask lies inside the byte and the word, so nothing else is cut off (R200). -/
theorem byteOf_lowNibble_toNat (c : Word) : (byteOf ((c <<< 4) &&& 0xF0#32)).toNat = (c.toNat <<< 4) &&& 0xF0 := by
  have hword (n : Nat) : n % 2 ^ 32 = n &&& 0xFFFFFFFF := (Nat.and_two_pow_sub_one_eq_mod n 32).symm
  rw [byteOf_toNat, BitVec.toNat_and, BitVec.toNat_shiftLeft, hword, Nat.and_assoc, Nat.and_assoc]
  rfl

/-- Settles O31: each byte is a shifted word cut to 8 bits; the last one of 18-bit is masked. -/
theorem packGivesThePixelBytes : Obligations.PackGivesThePixelBytes := by
  intro c
  refine ⟨?_, ?_, ?_, pack_length .bpp16 c, pack_length .bpp18 c, pack_length .bpp24 c⟩
  · simp only [pack, List.map_cons, List.map_nil, byteOf_toNat, BitVec.toNat_ushiftRight]
  · simp only [pack, List.map_cons, List.map_nil, byteOf_lowNibble_toNat]
    simp only [byteOf_toNat, BitVec.toNat_ushiftRight]
  · simp only [pack, List.map_cons, List.map_nil, byteOf_toNat, BitVec.toNat_ushiftRight]

/-! ### Conversion of channels (R202, R203) -/

/-- A field above a word that lies below it: `|||` is a sum. -/
theorem toNat_shiftLeft_or {a w : Word} {k : Nat} (hw : w.toNat < 2 ^ k)
    (hsum : a.toNat * 2 ^ k + w.toNat < 2 ^ 32) : (a <<< k ||| w).toNat = a.toNat * 2 ^ k + w.toNat := by
  have hfits : a.toNat <<< k % 2 ^ 32 = a.toNat <<< k := Nat.mod_eq_of_lt (by rw [Nat.shiftLeft_eq]; omega)
  rw [BitVec.toNat_or, BitVec.toNat_shiftLeft, hfits, ← Nat.shiftLeft_add_eq_or_of_lt hw, Nat.shiftLeft_eq]

/-- Three fields side by side, the last of `j` bits and the one above it of `i` (R203). -/
theorem toNat_fields {a b c : Word} {i j : Nat} (hb : b.toNat < 2 ^ i) (hc : c.toNat < 2 ^ j)
    (hsum : a.toNat * 2 ^ (i + j) + b.toNat * 2 ^ j + c.toNat < 2 ^ 32) :
    (a <<< (i + j) ||| b <<< j ||| c).toNat = a.toNat * 2 ^ (i + j) + b.toNat * 2 ^ j + c.toNat := by
  have hlow : (b <<< j ||| c).toNat = b.toNat * 2 ^ j + c.toNat := toNat_shiftLeft_or hc (by omega)
  have hbelow : b.toNat * 2 ^ j + c.toNat < 2 ^ (i + j) := by
    calc b.toNat * 2 ^ j + c.toNat < (b.toNat + 1) * 2 ^ j := by rw [Nat.succ_mul]; omega
      _ ≤ 2 ^ i * 2 ^ j := Nat.mul_le_mul_right _ hb
      _ = 2 ^ (i + j) := (Nat.pow_add 2 i j).symm
  rw [BitVec.or_assoc, toNat_shiftLeft_or (by omega) (by omega), hlow, Nat.add_assoc]

/-- A channel widened to a word and truncated by `k` bits. -/
theorem toNat_channel (v : Byte) (k : Nat) : (v.setWidth 32 >>> k).toNat = v.toNat >>> k := by
  rw [BitVec.toNat_ushiftRight, BitVec.toNat_setWidth_of_le (by decide)]

theorem rgb_bpp16_toNat (r g b : Byte) :
    (rgb .bpp16 r g b).toNat = (r.toNat >>> 3) * 2 ^ 11 + (g.toNat >>> 2) * 2 ^ 5 + (b.toNat >>> 3) := by
  have h := toNat_fields (a := r.setWidth 32 >>> 3) (b := g.setWidth 32 >>> 2) (c := b.setWidth 32 >>> 3)
    (i := 6) (j := 5)
  simp only [toNat_channel] at h
  exact h (by omega) (by omega) (by omega)

theorem rgb_bpp18_toNat (r g b : Byte) :
    (rgb .bpp18 r g b).toNat = (r.toNat >>> 2) * 2 ^ 12 + (g.toNat >>> 2) * 2 ^ 6 + (b.toNat >>> 2) := by
  have h := toNat_fields (a := r.setWidth 32 >>> 2) (b := g.setWidth 32 >>> 2) (c := b.setWidth 32 >>> 2)
    (i := 6) (j := 6)
  simp only [toNat_channel] at h
  exact h (by omega) (by omega) (by omega)

theorem rgb_bpp24_toNat (r g b : Byte) :
    (rgb .bpp24 r g b).toNat = r.toNat * 2 ^ 16 + g.toNat * 2 ^ 8 + b.toNat := by
  have h := toNat_fields (a := r.setWidth 32) (b := g.setWidth 32) (c := b.setWidth 32) (i := 8) (j := 8)
  simp only [BitVec.toNat_setWidth_of_le (show 8 ≤ 32 by decide)] at h
  exact h (by omega) (by omega) (by omega)

/-- Settles O32: with no fault COLOR_RGB is its record, whose colour is the sum of its fields. -/
theorem colorRgbRespondsWithThePackedColour : Obligations.ColorRgbRespondsWithThePackedColour := by
  intro s r g b
  refine ⟨rfl, fun hf => ⟨rgb s.geom.fmt r g b, State.whenRunning_of_none hf _, ?_⟩⟩
  cases s.geom.fmt with
  | bpp16 => exact rgb_bpp16_toNat r g b
  | bpp18 => exact rgb_bpp18_toNat r g b
  | bpp24 => exact rgb_bpp24_toNat r g b

/-! ### Unpacking (R204) -/

/-- Shifts and masks take the fields of a sum apart again. -/
theorem unpack_fields {n a b c i j : Nat} (hn : n = a * 2 ^ (i + j) + b * 2 ^ j + c) (hb : b < 2 ^ i)
    (hc : c < 2 ^ j) : n >>> (i + j) = a ∧ (n >>> j) &&& (2 ^ i - 1) = b ∧ n &&& (2 ^ j - 1) = c := by
  have hn' : n = 2 ^ j * (2 ^ i * a + b) + c := hn.trans (by ring)
  have hupper : n >>> j = 2 ^ i * a + b := by
    rw [hn', Nat.shiftRight_eq_div_pow, Nat.mul_add_div (Nat.two_pow_pos j), Nat.div_eq_of_lt hc, Nat.add_zero]
  refine ⟨?_, ?_, ?_⟩
  · rw [Nat.add_comm i j, Nat.shiftRight_add, hupper, Nat.shiftRight_eq_div_pow, Nat.mul_add_div (Nat.two_pow_pos i),
      Nat.div_eq_of_lt hb, Nat.add_zero]
  · rw [hupper, Nat.and_two_pow_sub_one_eq_mod, Nat.mul_add_mod, Nat.mod_eq_of_lt hb]
  · rw [hn', Nat.and_two_pow_sub_one_eq_mod, Nat.mul_add_mod, Nat.mod_eq_of_lt hc]

/-- A truncated channel scaled back loses less than its dropped bits. -/
theorem scaledBack_bounds {u v k : Nat} (h : u = v >>> k) : u <<< k ≤ v ∧ v - u <<< k < 2 ^ k := by
  rw [h, Nat.shiftRight_eq_div_pow, Nat.shiftLeft_eq]
  have hsplit := Nat.div_add_mod' v (2 ^ k)
  have hrest := Nat.mod_lt v (Nat.two_pow_pos k)
  omega

/-- Three channels truncated by `k`, `l` and `m` bits, unpacked from their fields and scaled back. -/
theorem unpacked_bounds {n r g b i j k l m : Nat}
    (hn : n = (r >>> k) * 2 ^ (i + j) + (g >>> l) * 2 ^ j + (b >>> m)) (hg : g >>> l < 2 ^ i) (hb : b >>> m < 2 ^ j) :
    (n >>> (i + j)) <<< k ≤ r ∧ r - (n >>> (i + j)) <<< k < 2 ^ k ∧
    ((n >>> j) &&& (2 ^ i - 1)) <<< l ≤ g ∧ g - ((n >>> j) &&& (2 ^ i - 1)) <<< l < 2 ^ l ∧
    (n &&& (2 ^ j - 1)) <<< m ≤ b ∧ b - (n &&& (2 ^ j - 1)) <<< m < 2 ^ m := by
  obtain ⟨hr', hg', hb'⟩ := unpack_fields hn hg hb
  obtain ⟨hrle, hrlt⟩ := scaledBack_bounds hr'
  obtain ⟨hgle, hglt⟩ := scaledBack_bounds hg'
  exact ⟨hrle, hrlt, hgle, hglt, scaledBack_bounds hb'⟩

/-- Settles O33: each field unpacked is the truncated channel, which scales back within its dropped bits; 24-bit drops
none. -/
theorem rgbRoundTripsWithinChannelPrecision : Obligations.RgbRoundTripsWithinChannelPrecision := fun r g b =>
  ⟨unpacked_bounds (i := 6) (j := 5) (rgb_bpp16_toNat r g b) (by omega) (by omega),
    unpacked_bounds (i := 6) (j := 6) (rgb_bpp18_toNat r g b) (by omega) (by omega),
    unpack_fields (i := 8) (j := 8) (rgb_bpp24_toNat r g b) g.isLt b.isLt⟩

end Sys2Proof.Machine
end

section
/-! Clipping (42_window_pixel.md R208 to R211): the clip as a set of points, and the rectangles that it keeps whole. -/

namespace Sys2Proof.Machine

/-- The point is in the rectangle and on the screen (R209). -/
def InVisiblePart (g : Geometry) (x y : Int) (w h : Nat) (i j : Int) : Prop :=
  x ≤ i ∧ i < x + w ∧ y ≤ j ∧ j < y + h ∧ 0 ≤ i ∧ i < g.width.toNat ∧ 0 ≤ j ∧ j < g.height.toNat

theorem onScreen_iff {g : Geometry} {x y : Int} :
    onScreen g x y = true ↔ 0 ≤ x ∧ x < g.width.toNat ∧ 0 ≤ y ∧ y < g.height.toNat := by
  simp [onScreen, and_assoc]

/-- The box of a clip holds the points of the visible part. -/
theorem inVisiblePart_iff_of_clip {g : Geometry} {x y : Int} {w h : Nat} {box : ClipBox}
    (hb : clip g x y w h = some box) (i j : Int) :
    InVisiblePart g x y w h i j ↔ box.x0 ≤ i ∧ i ≤ box.x1 ∧ box.y0 ≤ j ∧ j ≤ box.y1 := by
  obtain ⟨rfl, -⟩ := clip_some hb
  dsimp only [InVisiblePart]
  omega

/-- The clip is empty when the visible part is: the lower corner of a box would be a point of it. -/
theorem clip_eq_none_iff {g : Geometry} {x y : Int} {w h : Nat} :
    clip g x y w h = none ↔ ∀ i j, ¬InVisiblePart g x y w h i j := by
  cases hb : clip g x y w h with
  | none =>
    have hempty := clip_none hb
    refine iff_of_true rfl fun i j hin => ?_
    dsimp only [InVisiblePart] at hin
    omega
  | some box =>
    obtain ⟨-, -, -, hx, hy⟩ := clip_some hb
    exact iff_of_false (Option.some_ne_none box) fun h =>
      h box.x0 box.y0 ((inVisiblePart_iff_of_clip hb _ _).2 ⟨le_rfl, hx, le_rfl, hy⟩)

/-- A clipped rectangle lies on the screen with its corners in order: the window's precondition (R208). -/
theorem clip_corners {g : Geometry} {x y : Int} {w h : Nat} {box : ClipBox} (hb : clip g x y w h = some box) :
    0 ≤ box.x0 ∧ box.x0 ≤ box.x1 ∧ box.x1 < g.width.toNat ∧
      0 ≤ box.y0 ∧ box.y0 ≤ box.y1 ∧ box.y1 < g.height.toNat := by
  obtain ⟨rfl, -, -, hx, hy⟩ := clip_some hb
  dsimp only at hx hy ⊢
  omega

/-- A rectangle that lies on the screen is its own clip. -/
theorem clip_of_onScreen {g : Geometry} {x y : Int} {w h : Nat} (hw : 0 < w) (hh : 0 < h) (hx : 0 ≤ x)
    (hxw : x + w ≤ g.width.toNat) (hy : 0 ≤ y) (hyh : y + h ≤ g.height.toNat) :
    clip g x y w h = some { x0 := x, y0 := y, x1 := x + w - 1, y1 := y + h - 1 } := by
  have hin : InVisiblePart g x y w h x y := by
    dsimp only [InVisiblePart]
    omega
  cases hb : clip g x y w h with
  | none => exact absurd hin (clip_eq_none_iff.1 hb x y)
  | some box =>
    obtain ⟨rfl, -⟩ := clip_some hb
    rw [max_eq_left hx, max_eq_left hy, min_eq_left (by omega), min_eq_left (by omega)]

/-- Settles O35: the clip as a set of points; a pixel on the screen is its own clip, and one off it has no visible
part. -/
theorem clipIsTheOnScreenPart : Obligations.ClipIsTheOnScreenPart := by
  intro g x y w h
  refine ⟨clip_eq_none_iff, fun box hb => ⟨inVisiblePart_iff_of_clip hb, clip_corners hb⟩, ?_⟩
  split
  case isTrue hon =>
    obtain ⟨hx, hxw, hy, hyh⟩ := onScreen_iff.1 hon
    rw [clip_of_onScreen (by decide) (by decide) hx (by omega) hy (by omega)]
    simp
  case isFalse hoff =>
    rw [onScreen_iff] at hoff
    refine clip_eq_none_iff.2 fun i j hin => ?_
    dsimp only [InVisiblePart] at hin
    omega

end Sys2Proof.Machine
end

section
/-! Windows, pixels and fills (42_window_pixel.md R205 to R214), as requests that send logical operations. -/

namespace Sys2Proof.Machine

/-! ### The number of stores -/

/-- Three commands and two bursts of four bytes (R205). -/
theorem window_entries_length (s : State) (x0 y0 x1 y1 : Half) :
    ((windowLogicalOps x0 y0 x1 y1).flatMap (LogicalOp.entries s)).length = 27 := rfl

/-- A window and a burst of pixels (R210, R213). -/
theorem window_burst_entries_length (s : State) (x0 y0 x1 y1 : Half) (bs : List Byte) :
    ((windowLogicalOps x0 y0 x1 y1 ++ [LogicalOp.burst bs]).flatMap (LogicalOp.entries s)).length =
      27 + 2 * bs.length + 1 := by
  rw [List.flatMap_append, List.length_append, window_entries_length, List.flatMap_singleton, burst_entries_length]
  omega

/-! ### SET_WINDOW -/

/-- Settles O34: SET_WINDOW stores for every operand, and its operations are those of the window. -/
theorem setWindowSendsTheWindow : Obligations.SetWindowSendsTheWindow := fun s x0 y0 x1 y1 =>
  ⟨rfl, fun hf => sends_of_driven hf rfl rfl rfl, window_entries_length s x0 y0 x1 y1,
    fun hf => takesHazard_of_released hf rfl⟩

/-! ### DRAW_PIXEL -/

/-- Off the screen DRAW_PIXEL is its record alone (R210). -/
theorem drawPixel_succeedsWithoutStore {s : State} {x y : Half} (hf : s.fault = none)
    (hoff : onScreen s.geom x.toInt y.toInt = false) (color : Word) :
    SucceedsWithoutStore (.drawPixel x y color) s 9 :=
  (State.whenRunning_of_none hf _).trans (if_neg (Bool.eq_false_iff.1 hoff))

/-- Settles O36: visibility is the test of `onScreen`, by which DRAW_PIXEL stores. -/
theorem drawPixelDrawsOnScreenPixels : Obligations.DrawPixelDrawsOnScreenPixels := by
  intro s x y color hf
  refine ⟨⟨_, _, _, _, (wordOf_bytes color).symm, rfl⟩, ?_,
    fun hvis => sends_of_driven hf (onScreen_iff.2 hvis) rfl rfl,
    fun hvis => takesHazard_of_released hf (onScreen_iff.2 hvis),
    fun hvis => drawPixel_succeedsWithoutStore hf (Bool.eq_false_iff.2 (mt onScreen_iff.1 hvis)) color⟩
  rw [window_burst_entries_length, pack_length]

/-! ### FILL_RECT -/

/-- The pixel count is the product of the two sides (R206). -/
theorem ClipBox.count_eq {box : ClipBox} (hx : box.x0 ≤ box.x1) (hy : box.y0 ≤ box.y1) :
    box.count = (box.x1 - box.x0 + 1).toNat * (box.y1 - box.y0 + 1).toNat :=
  Int.toNat_mul (by omega) (by omega)

/-- Clipped to nothing FILL_RECT is its record alone (R213). -/
theorem fillRect_succeedsWithoutStore {s : State} {x y w h : Half} (hf : s.fault = none)
    (hb : clip s.geom x.toInt y.toInt w.toNat h.toNat = none) (color : Word) :
    SucceedsWithoutStore (.fillRect x y w h color) s 13 := by
  rw [SucceedsWithoutStore, exec, execFillRect, State.whenRunning_of_none hf, hb]
  rfl

theorem storesGpio_fillRect {s : State} {x y w h : Half} {box : ClipBox}
    (hb : clip s.geom x.toInt y.toInt w.toNat h.toNat = some box) (color : Word) :
    storesGpio s (.fillRect x y w h color) = true :=
  Option.isSome_of_eq_some hb

/-- The operations of FILL_RECT, in the terms of R206 and R213. -/
theorem opsOf_fillRect {s : State} {x y w h : Half} {box : ClipBox}
    (hb : clip s.geom x.toInt y.toInt w.toNat h.toNat = some box) (color : Word) :
    opsOf s (.fillRect x y w h color) =
      windowLogicalOps (BitVec.ofInt 16 box.x0) (BitVec.ofInt 16 box.y0) (BitVec.ofInt 16 box.x1)
        (BitVec.ofInt 16 box.y1) ++
      [.burst (repeated (pack s.geom.fmt color) ((box.x1 - box.x0 + 1).toNat * (box.y1 - box.y0 + 1).toNat))] := by
  obtain ⟨-, hx, -, -, hy, -⟩ := clip_corners hb
  simp only [opsOf, hb, ClipBox.count_eq hx hy]

/-- Settles O37: FILL_RECT stores when its clip has a box, and sends that box's window and one burst. -/
theorem fillRectFillsTheClippedRectangle : Obligations.FillRectFillsTheClippedRectangle := by
  intro s x y w h color hf
  refine ⟨⟨_, _, _, _, (wordOf_bytes color).symm, rfl⟩, fun hb => fillRect_succeedsWithoutStore hf hb color,
    fun box hb => ?_⟩
  intro pixels burst ops
  have hburst : burst.length = pixels * bytesPerPixel s.geom.fmt := by
    rw [← pack_length s.geom.fmt color]
    exact repeated_length _ pixels
  refine ⟨hburst, ?_, fun hd => ?_, takesHazard_of_released hf (storesGpio_fillRect hb color)⟩
  · rw [window_burst_entries_length, hburst, Nat.mul_comm pixels, Nat.mul_assoc]
  · have hsends := sends_of_driven hf (storesGpio_fillRect hb color) rfl rfl hd
    rwa [opsOf_fillRect hb] at hsends

/-- Settles O38: the rectangle lies on the screen, so its clip is (0,0)-(9,9), of 100 pixels. -/
theorem fillScenarioEmitsAHundredPixels : Obligations.FillScenarioEmitsAHundredPixels := by
  intro s hf hd hfmt hw hh
  have hb : clip s.geom 0 0 10 10 = some { x0 := 0, y0 := 0, x1 := 9, y1 := 9 } :=
    clip_of_onScreen (by decide) (by decide) le_rfl (by omega) le_rfl (by omega)
  obtain ⟨-, -, hfill⟩ := fillRectFillsTheClippedRectangle s 0 0 10 10 0xF800 hf
  obtain ⟨-, -, hsends, -⟩ := hfill _ hb
  have h := hsends hd
  rwa [hfmt] at h

end Sys2Proof.Machine
end

section
/-! Rotation and scrolling (43_controller_commands.md R242 to R248): requests that send one command and one burst, once
their operand check is passed. -/

namespace Sys2Proof.Machine

/-! ### Operations and their stores -/

/-- A command makes three stores; a burst makes two for each byte and one for the release of CS (R179). -/
theorem command_burst_entries_length (s : State) (c : Byte) (bs : List Byte) :
    (([.command c, .burst bs] : List LogicalOp).flatMap (LogicalOp.entries s)).length = 4 + 2 * bs.length := by
  have hburst := burst_entries_length s bs
  have hcommand : (LogicalOp.entries s (.command c)).length = 3 := rfl
  rw [List.flatMap_cons, List.flatMap_singleton, List.length_append, hcommand, hburst]
  omega

/-- A storing request whose pins are outputs leaves its geometry, its operations and its record (R171, R330). -/
theorem exec_request_of_driven {s : State} {i : Instr} (hf : s.fault = none) (hs : storesGpio s i = true)
    (hb : isBusInstr i = false) (hd : s.busDriven = true) :
    ∃ events, exec i s = .next (({ s with geom := geomAfter s i }.afterOps (opsOf s i) events).completed
        (frameLength i) .ok .none) ∧
      (s.Ready → events = opEvents (opsOf s i)) := by
  obtain ⟨events, hperform, hevents⟩ :=
    perform_sends { s with geom := geomAfter s i } (opsOf s i) (opsOf_bursts s i hs)
  refine ⟨events, ?_, fun h => hevents (h.withGeom _)⟩
  rw [exec_storing hf hs hb, State.guarded_of_driven hd, hperform]
  rfl

/-! ### SET_ROTATION -/

/-- The operations of SET_ROTATION (R242). -/
def rotationOps (p : Params) (k : Fin 4) : List LogicalOp := [.command 0x36, .burst [p.rotMadctl[k]]]

theorem rotateTo_eq (g : Geometry) (k : Fin 4) :
    rotateTo g k =
      { fmt := g.fmt, rotation := k,
        width := if k.val % 2 ≠ g.rotation.val % 2 then g.height else g.width,
        height := if k.val % 2 ≠ g.rotation.val % 2 then g.width else g.height } := by
  by_cases h : k.val % 2 = g.rotation.val % 2 <;> simp [rotateTo, h]

theorem rotateTo_rotation (g : Geometry) (k : Fin 4) : (rotateTo g k).rotation = k := by
  rw [rotateTo_eq]

/-- The four calls of R244 change the parity four times, and end at the rotation they began with. -/
theorem rotateTo_four {g : Geometry} (h : g.rotation = 0) :
    rotateTo (rotateTo (rotateTo (rotateTo g 1) 2) 3) 0 = g := by
  obtain ⟨fmt, rotation, width, height⟩ := g
  subst h
  simp [rotateTo]

section Rotation
variable {s : State} {r : Byte} {k : Fin 4}

theorem storesGpio_setRotation (s : State) (hk : k.val = r.toNat) : storesGpio s (.setRotation r) = true :=
  decide_eq_true (hk ▸ k.isLt)

theorem geomAfter_setRotation (s : State) (hk : k.val = r.toNat) :
    geomAfter s (.setRotation r) = rotateTo s.geom k :=
  (dif_pos (hk ▸ k.isLt)).trans (congrArg (rotateTo s.geom) (Fin.ext hk.symm))

theorem opsOf_setRotation (s : State) (hk : k.val = r.toNat) :
    opsOf s (.setRotation r) = rotationOps s.params k := by
  have hr : r.toNat < 4 := hk ▸ k.isLt
  simp [opsOf, hr, rotationOps, hk]

/-- SET_ROTATION with its operand in range and the bus pins outputs (R242). -/
theorem exec_setRotation (hf : s.fault = none) (hd : s.busDriven = true) (hk : k.val = r.toNat) :
    ∃ events, exec (.setRotation r) s = .next
        (({ s with geom := rotateTo s.geom k }.afterOps (rotationOps s.params k) events).completed 2 .ok .none) ∧
      (s.Ready → events = opEvents (rotationOps s.params k)) := by
  rw [← geomAfter_setRotation s hk, ← opsOf_setRotation s hk]
  exact exec_request_of_driven hf (storesGpio_setRotation s hk) rfl hd

theorem setRotation_endsWithPrecondition (hf : s.fault = none) (hr : 3 < r.toNat) :
    EndsWithPrecondition (.setRotation r) s 2 :=
  (State.whenRunning_of_none hf _).trans (dif_neg (by omega))

end Rotation

/-- Settles O39: an operand above 3 fails the check before the guard; the others store, and the geometry is that of
`rotateTo`. -/
theorem setRotationRotates : Obligations.SetRotationRotates := by
  refine fun s r => ⟨rfl, setRotation_endsWithPrecondition, fun hf k hk => ⟨fun hd => ?_,
    takesHazard_of_released hf (storesGpio_setRotation s hk)⟩⟩
  rw [← rotateTo_eq]
  exact exec_setRotation hf hd hk

/-- From a ready state SET_ROTATION ends in a ready state, with MADCTL on the bus (R169, R242). -/
theorem State.Ready.setRotation {s : State} (h : s.Ready) {r : Byte} {k : Fin 4} (hk : k.val = r.toNat) :
    ∃ t, exec (.setRotation r) s = .next t ∧ t.Ready ∧ t.params = s.params ∧ t.geom = rotateTo s.geom k ∧
      t.bus = s.bus ++ opEvents (rotationOps s.params k) := by
  obtain ⟨events, hx, hevents⟩ := exec_setRotation h.running h.driven hk
  obtain ⟨hready, -⟩ := requestsKeepReadyStates s _ _ h rfl rfl hx
  exact ⟨_, hx, hready, rfl, rfl, congrArg (s.bus ++ ·) (hevents h)⟩

/-- Settles O40: each call leaves a ready state for the next, and four rotations give back the geometry; the size at
rotation 0 is what the invariant says of the rotated state. -/
theorem fourRotationsRestoreTheGeometry : Obligations.FourRotationsRestoreTheGeometry := by
  refine ⟨fun s hs hrot => ?_, fun s t h hd hx => ?_⟩
  · obtain ⟨a, hxa, ha, pa, ga, ba⟩ := hs.setRotation (r := 1) (k := 1) rfl
    obtain ⟨b, hxb, hb, pb, gb, bb⟩ := ha.setRotation (r := 2) (k := 2) rfl
    obtain ⟨c, hxc, hc, pc, gc, bc⟩ := hb.setRotation (r := 3) (k := 3) rfl
    obtain ⟨d, hxd, -, -, gd, bd⟩ := hc.setRotation (r := 0) (k := 0) rfl
    refine ⟨a, b, c, d, hxa, hxb, hxc, hxd, ?_, ?_⟩
    · rw [gd, gc, gb, ga, rotateTo_four hrot]
    · rw [bd, bc, bb, ba, pc, pb, pa]
      simp only [List.append_assoc]
      rfl
  · obtain ⟨events, hx', -⟩ := exec_setRotation (r := 0) (k := 0) (exec_fault hx) hd rfl
    cases hx'.symm.trans hx
    have hrot := rotateTo_rotation s.geom 0
    have hsize := (h.rotateTo 0).size
    rw [hrot] at hsize
    obtain ⟨hw, hh⟩ := Prod.mk.inj hsize
    exact ⟨hrot, hw, hh⟩

/-! ### SET_SCROLL_AREA and SET_SCROLL_START -/

theorem setScrollArea_endsWithPrecondition {s : State} {tfa vsa bfa : Half} (hf : s.fault = none)
    (h : tfa.toNat + vsa.toNat + bfa.toNat ≠ s.params.scrollRows.toNat) :
    EndsWithPrecondition (.setScrollArea tfa vsa bfa) s 7 :=
  (State.whenRunning_of_none hf _).trans (if_neg h)

/-- Settles O41: the check of the sum comes before the guard, and is what SET_SCROLL_AREA stores by. -/
theorem setScrollAreaChecksTheRowSum : Obligations.SetScrollAreaChecksTheRowSum := fun s _ _ _ =>
  ⟨rfl, setScrollArea_endsWithPrecondition, fun hf hsum => sends_of_driven hf (beq_iff_eq.2 hsum) rfl rfl,
    command_burst_entries_length s _ _, fun hf hsum => takesHazard_of_released hf (beq_iff_eq.2 hsum)⟩

/-- Settles O42: SET_SCROLL_START stores for every operand, and its operations are one command and one burst. -/
theorem setScrollStartSendsTheStartRow : Obligations.SetScrollStartSendsTheStartRow := fun s _ =>
  ⟨rfl, fun hf => sends_of_driven hf rfl rfl rfl, command_burst_entries_length s _ _,
    fun hf => takesHazard_of_released hf rfl⟩

end Sys2Proof.Machine
end

section
/-! The calibration requests (44_touch.md R302 to R304). -/

namespace Sys2Proof.Machine

theorem dirOf_of_val {d : Byte} {k : Fin 4} (h : k.val = d.toNat) : dirOf d = some k := by
  have hd : d.toNat < 4 := h ▸ k.isLt
  rw [dirOf, dif_pos hd]
  exact congrArg some (Fin.ext h.symm)

theorem dirOf_of_gt {d : Byte} (h : 3 < d.toNat) : dirOf d = none :=
  dif_neg (Nat.not_lt.2 h)

section
variable {xmin xmax ymin ymax : Half} {xdir ydir : Byte}

theorem calibrationOf_valid {dx dy : Fin 4} (hdx : dx.val = xdir.toNat) (hdy : dy.val = ydir.toNat)
    (hx : xmin.toNat < xmax.toNat) (hy : ymin.toNat < ymax.toNat) :
    calibrationOf xmin xmax xdir ymin ymax ydir =
      some ({ min := xmin, max := xmax, dir := dx }, { min := ymin, max := ymax, dir := dy }) := by
  rw [calibrationOf, if_pos ⟨BitVec.lt_def.2 hx, BitVec.lt_def.2 hy⟩, dirOf_of_val hdx, dirOf_of_val hdy]

theorem calibrationOf_invalid
    (h : 3 < xdir.toNat ∨ 3 < ydir.toNat ∨ xmax.toNat ≤ xmin.toNat ∨ ymax.toNat ≤ ymin.toNat) :
    calibrationOf xmin xmax xdir ymin ymax ydir = none := by
  unfold calibrationOf
  split
  case isFalse => rfl
  case isTrue hlt =>
    have hx := BitVec.lt_def.1 hlt.1
    have hy := BitVec.lt_def.1 hlt.2
    obtain hd | hd | hle | hle := h
    · rw [dirOf_of_gt hd]
    · rw [dirOf_of_gt hd]; cases dirOf xdir <;> rfl
    · omega
    · omega

end

/-- Settles O43: the check of the operands, `calibrationOf`, decides between the two ends. -/
theorem touchSetCalReplacesTheCalibration : Obligations.TouchSetCalReplacesTheCalibration := by
  refine fun s xmin xmax xdir ymin ymax ydir hf => ⟨rfl, fun dx dy hdx hdy hx hy => ?_, fun hbad => ?_⟩
  · refine (State.whenRunning_of_none hf _).trans ?_
    rw [calibrationOf_valid hdx hdy hx hy]
    rfl
  · refine (State.whenRunning_of_none hf _).trans ?_
    rw [calibrationOf_invalid hbad]
    rfl

/-- Settles O44: bit 0 of the operand is its remainder by 2, and a direction code fits its byte. -/
theorem touchAutocalAndReadBack : Obligations.TouchAutocalAndReadBack := by
  refine ⟨fun s en => ⟨rfl, fun hf => ?_⟩, rfl,
    fun s hf => ⟨_, _, ?_, ?_, State.whenRunning_of_none hf _⟩⟩
  · rw [← Nat.testBit_zero]
    exact State.whenRunning_of_none hf _
  · rw [BitVec.toNat_ofNat]; omega
  · rw [BitVec.toNat_ofNat]; omega

end Sys2Proof.Machine
end

section
/-! The functions of the sampler (44_touch.md R287 to R295): the median, the transform, the orientation, and the two
checks as the claims say them. -/

namespace Sys2Proof.Machine

/-! ### The median (R287) -/

theorem insertAscending_eq_orderedInsert (v : Half) (l : List Half) :
    insertAscending v l = l.orderedInsert (· ≤ ·) v := by
  induction l with
  | nil => rfl
  | cons a rest ih => rw [insertAscending, ih, List.orderedInsert_cons]

/-- The model sorts as the library's insertion sort does. -/
theorem ascending_eq_insertionSort (l : List Half) : ascending l = l.insertionSort (· ≤ ·) := by
  induction l with
  | nil => rfl
  | cons v rest ih => rw [ascending, ih, insertAscending_eq_orderedInsert, List.insertionSort_cons]

theorem ascending_perm (l : List Half) : (ascending l).Perm l :=
  ascending_eq_insertionSort l ▸ List.perm_insertionSort _ l

theorem ascending_pairwise (l : List Half) : (ascending l).Pairwise (fun a b => a.toNat ≤ b.toNat) :=
  ascending_eq_insertionSort l ▸ List.pairwise_insertionSort (· ≤ ·) l

theorem ascending_middle {l : List Half} (h : l ≠ []) : (ascending l)[l.length / 2]? = some (median l) := by
  have hlt : l.length / 2 < (ascending l).length := by
    rw [(ascending_perm l).length_eq]
    exact Nat.div_lt_self (List.length_pos_iff.2 h) Nat.one_lt_two
  rw [median, List.getElem?_eq_getElem hlt, Option.getD_some]

/-- Settles O47: the sorted permutation is the model's own insertion sort. -/
theorem medianIsTheUpperMiddleElement : Obligations.MedianIsTheUpperMiddleElement := fun l h =>
  ⟨ascending l, ascending_perm l, ascending_pairwise l, ascending_middle h⟩

theorem median_mem {l : List Half} (h : l ≠ []) : median l ∈ l :=
  (ascending_perm l).mem_iff.1 (List.mem_of_getElem? (ascending_middle h))

theorem median_replicate {n : Nat} (h : 0 < n) (v : Half) : median (List.replicate n v) = v :=
  List.eq_of_mem_replicate (median_mem (by simpa using Nat.ne_of_gt h))

/-! ### The calibration transform (R290, R291) -/

section
variable {c : AxisCal} (h : c.min.toNat < c.max.toNat) (size : Half)
include h

/-- On a valid axis the floor division is by a positive range. -/
theorem axisPixel_eq_ediv (r : Half) :
    axisPixel c size r = ((r.toNat : Int) - c.min.toNat) * size.toNat / ((c.max.toNat : Int) - c.min.toNat) :=
  (axisPixel_of_lt h size r).trans (Int.fdiv_eq_ediv_of_nonneg _ (by omega))

theorem axisPixel_min : axisPixel c size c.min = 0 := by
  rw [axisPixel_eq_ediv h, Int.sub_self, Int.zero_mul, Int.zero_ediv]

theorem axisPixel_max : axisPixel c size c.max = size.toNat := by
  rw [axisPixel_eq_ediv h, Int.mul_ediv_cancel_left _ (by omega)]

theorem axisPixel_nonneg {r : Half} (hr : c.min.toNat ≤ r.toNat) : 0 ≤ axisPixel c size r := by
  rw [axisPixel_eq_ediv h]
  exact Int.ediv_nonneg (Int.mul_nonneg (by omega) (by omega)) (by omega)

theorem axisPixel_le {r : Half} (hr : r.toNat ≤ c.max.toNat) : axisPixel c size r ≤ size.toNat := by
  rw [axisPixel_eq_ediv h]
  refine Int.ediv_le_of_le_mul (by omega) ?_
  rw [Int.mul_comm]
  exact Int.mul_le_mul_of_nonneg_left (by omega) (by omega)

theorem axisPixel_lt {r : Half} (hs : 0 < size.toNat) (hr : r.toNat < c.max.toNat) :
    axisPixel c size r < size.toNat := by
  rw [axisPixel_eq_ediv h]
  refine Int.ediv_lt_of_lt_mul (by omega) ?_
  rw [Int.mul_comm]
  exact Int.mul_lt_mul_of_pos_left (by omega) (by omega)

/-- The transform with the rational `coef` and `corr` of R290. -/
theorem axisPixel_eq_floor (hs : 0 < size.toNat) (r : Half) :
    axisPixel c size r = ⌊(r.toNat : ℚ) / axisCoef c size - axisCorr c size⌋ := by
  obtain ⟨range, hrange⟩ := Nat.exists_eq_add_of_lt h
  have hrange' : c.max.toNat = c.min.toNat + (range + 1) := hrange
  have hsize : (size.toNat : ℚ) ≠ 0 := by exact_mod_cast hs.ne'
  have hlinear : (r.toNat : ℚ) / axisCoef c size - axisCorr c size =
      ((((r.toNat : Int) - c.min.toNat) * size.toNat : Int) : ℚ) / ((range + 1 : Nat) : ℚ) := by
    rw [axisCorr, axisCoef, hrange']
    push_cast
    field_simp
    ring
  rw [hlinear, Rat.floor_intCast_div_natCast, axisPixel_eq_ediv h, hrange']
  push_cast
  rw [add_sub_cancel_left]

end

/-- Settles O48: the stated formula is exact, so its floor is the floor division of the model. -/
theorem calibrationTransformIsLinear : Obligations.CalibrationTransformIsLinear := fun _ size r h hs =>
  ⟨axisPixel_eq_floor h size hs r, axisPixel_min h size, axisPixel_max h size,
    fun hlo hhi => ⟨axisPixel_nonneg h size hlo, axisPixel_le h size hhi⟩,
    fun hlo hhi => ⟨axisPixel_nonneg h size hlo.le, axisPixel_lt h size hs hhi⟩⟩

/-! ### The orientation (R292) -/

theorem fitsS16_iff (v : Int) : fitsS16 v = true ↔ -32768 ≤ v ∧ v ≤ 32767 := by
  simp [fitsS16]

/-- The one law of the orientation. -/
theorem orientOf_upright (p : Params) {px py : Int} (hx : fitsS16 px = true) (hy : fitsS16 py = true) :
    orientOf p 0 0 0 px py = (BitVec.ofInt 16 px, BitVec.ofInt 16 py) := by
  simp [orientOf, hx, hy]

/-! ### The range check and the noise check (R289, R295) -/

theorem axisInRange_iff (c : AxisCal) (r : Half) :
    axisInRange c r = true ↔ c.min.toNat < r.toNat ∧ r.toNat < c.max.toNat := by
  simp [axisInRange, BitVec.lt_def]

theorem TouchState.inRange_iff (t : TouchState) (rx ry : Half) :
    t.inRange rx ry = true ↔ t.calX.min.toNat < rx.toNat ∧ rx.toNat < t.calX.max.toNat ∧
      t.calY.min.toNat < ry.toNat ∧ ry.toNat < t.calY.max.toNat := by
  rw [TouchState.inRange, Bool.and_eq_true, axisInRange_iff, axisInRange_iff, and_assoc]

theorem quiet_iff (p : Params) (sumPrev : Option Nat) (sum : Nat) :
    quiet p sumPrev sum = true ↔ ∃ prev, sumPrev = some prev ∧ |(sum : Int) - prev| < p.noiseTh := by
  cases sumPrev <;> simp [quiet]

/-! ### Auto-calibration (R293) -/

theorem axisWiden_bounds (c : AxisCal) (r : Half) :
    (axisWiden c r).min.toNat = min c.min.toNat r.toNat ∧ (axisWiden c r).max.toNat = max c.max.toNat r.toNat := by
  simp only [axisWiden, BitVec.lt_def]
  constructor
  · split <;> omega
  · split <;> omega

theorem axisWiden_of_inRange {c : AxisCal} {r : Half} (h : axisInRange c r = true) : axisWiden c r = c := by
  obtain ⟨hlo, hhi⟩ := (axisInRange_iff c r).1 h
  rw [axisWiden, if_neg (by rw [BitVec.lt_def]; omega), if_neg (by rw [BitVec.lt_def]; omega)]

theorem TouchState.calibrate_off {t : TouchState} (h : t.autocal = false) (rx ry : Half) : t.calibrate rx ry = t :=
  if_neg (by simp [h])

theorem TouchState.calibrate_on {t : TouchState} (h : t.autocal = true) (rx ry : Half) :
    t.calibrate rx ry = { t with calX := axisWiden t.calX rx, calY := axisWiden t.calY ry } :=
  if_pos h

theorem TouchState.calibrate_of_inRange {t : TouchState} {rx ry : Half} (h : t.inRange rx ry = true) :
    t.calibrate rx ry = t := by
  cases ha : t.autocal with
  | false => exact calibrate_off ha rx ry
  | true =>
    obtain ⟨hx, hy⟩ := Bool.and_eq_true_iff.1 h
    rw [calibrate_on ha, axisWiden_of_inRange hx, axisWiden_of_inRange hy]

end Sys2Proof.Machine
end

section
/-! The requests that sample (44_touch.md R293 to R309): what a pass leaves, check by check, and what TOUCH_SAMPLE and
TOUCH_LISTEN make of it. -/

namespace Sys2Proof.Machine

/-! ### What a pass leaves alone, and how a sampling request ends -/

@[simp] theorem touchPass_pc (s : State) : s.touchPass.2.pc = s.pc := by
  obtain ⟨touch, out, pm, a, d, ht, -⟩ := touchPass_frame s
  rw [ht]

@[simp] theorem touchPass_responses (s : State) : s.touchPass.2.responses = s.responses := by
  obtain ⟨touch, out, pm, a, d, ht, -⟩ := touchPass_frame s
  rw [ht]

@[simp] theorem touchPass_geom (s : State) : s.touchPass.2.geom = s.geom := by
  obtain ⟨touch, out, pm, a, d, ht, -⟩ := touchPass_frame s
  rw [ht]

@[simp] theorem settleShared_touch (s : State) : s.settleShared.touch = s.touch := by
  unfold State.settleShared
  split
  · rfl
  · split <;> rfl

@[simp] theorem settleShared_adcIn (s : State) : s.settleShared.adcIn = s.adcIn := by
  unfold State.settleShared
  split
  · rfl
  · split <;> rfl

theorem exec_touchSample {s : State} (hf : s.fault = none) :
    exec .touchSample s =
      .next ((s.touchPass.2.setPhase .idle).respond .touchSample s.touchPass.1.results) :=
  State.whenRunning_of_none hf _

/-- TOUCH_LISTEN completes on an accepted point of the screen (R307). -/
theorem exec_touchListen_onScreen {s : State} (hf : s.fault = none) {x y : Half}
    (ha : s.touchPass.1 = .accepted x y) (hon : onScreen s.geom x.toInt y.toInt = true) (delay : Word) :
    exec (.touchListen delay) s =
      .next ((s.touchPass.2.setPhase .idle).respond (.touchListen delay) (.point x y)) := by
  refine (State.whenRunning_of_none hf _).trans ?_
  rw [ha, State.listenEnd, touchPass_geom, if_pos hon]

/-- Otherwise TOUCH_LISTEN stays at pc for its next iteration (R307, R308). -/
theorem exec_touchListen_stays {s : State} (hf : s.fault = none)
    (h : ∀ x y, s.touchPass.1 = .accepted x y → onScreen s.geom x.toInt y.toInt = false) (delay : Word) :
    exec (.touchListen delay) s = .next s.touchPass.2 := by
  refine (State.whenRunning_of_none hf _).trans ?_
  cases ho : s.touchPass.1 with
  | rejected why => rfl
  | accepted x y => rw [State.listenEnd, touchPass_geom, h x y ho]; rfl

/-! ### The record of a sample (R297, R305) -/

theorem RejectReason.code_cases (why : RejectReason) : why.code = 1 ∨ why.code = 2 ∨ why.code = 3 := by
  cases why <;> simp [RejectReason.code]

/-- The record reports an acceptance with reason 0, or a rejection with its reason and (0, 0). -/
theorem SampleOutcome.results_cases (r : SampleOutcome) :
    ∃ accepted reason x y, r.results = .sample accepted reason x y ∧
      ((accepted = 1 ∧ reason = 0) ∨
        (accepted = 0 ∧ (reason = 1 ∨ reason = 2 ∨ reason = 3) ∧ x = 0 ∧ y = 0 ∧ ∃ why, r = .rejected why)) := by
  cases r with
  | rejected why => exact ⟨0, why.code, 0, 0, rfl, .inr ⟨rfl, why.code_cases, rfl, rfl, why, rfl⟩⟩
  | accepted x y => exact ⟨1, 0, x, y, rfl, .inl ⟨rfl, rfl⟩⟩

theorem SampleOutcome.results_accepted_iff (r : SampleOutcome) (x y : Half) :
    r.results = .sample 1 0 x y ↔ r = .accepted x y := by
  cases r <;> simp [SampleOutcome.results]

/-- TOUCH_SAMPLE's record tells whether and where its pass accepted. -/
theorem touchSample_record_iff {s u : State} (hx : exec .touchSample s = .next u) (x y : Half) :
    u.responses = s.responses ++ [{ status := .ok, results := .sample 1 0 x y }] ↔
      s.touchPass.1 = .accepted x y := by
  cases (exec_touchSample (exec_fault hx)).symm.trans hx
  simpa [State.respond] using SampleOutcome.results_accepted_iff s.touchPass.1 x y

/-- Settles O45: the frame of one pass, with the sampler idle, and the record of its outcome. -/
theorem touchSampleCompletesAndFrames : Obligations.TouchSampleCompletesAndFrames := by
  refine ⟨rfl, fun s hf => ?_⟩
  obtain ⟨touch, out, pm, a, d, ht, hw, hrejected, hout, hrestored, hmode⟩ := touchPass_frame s
  obtain ⟨accepted, reason, x, y, hresults, hcases⟩ := s.touchPass.1.results_cases
  have hx := exec_touchSample hf
  rw [ht, hresults] at hx
  refine ⟨{ touch with phase := .idle }, out, pm, _, a, d, accepted, reason, x, y, hx, rfl, hw.autocal,
    fun q hq => ⟨hout q hq, by simp [hmode, hq]⟩, hrestored, fun q hq => by simp [hmode, hq], rfl, ?_⟩
  obtain hacc | ⟨hacc, hreason, hx0, hy0, why, hwhy⟩ := hcases
  · exact .inl hacc
  · exact .inr ⟨hacc, hreason, hx0, hy0, hrejected why hwhy⟩

/-! ### The judgement of two medians (R289, R293 to R295) -/

/-- The sampler's data after an accepted sample: the sum is noted, and auto-calibration has seen the readings (R293,
R296); `judge_accept` ties it to the model. -/
def TouchState.accepted (t : TouchState) (rx ry : Half) : TouchState :=
  { t with sumPrev := some (rx.toNat + ry.toNat) }.calibrate rx ry

theorem TouchState.accepted_withPhase (t : TouchState) (ph : TouchPhase) (rx ry : Half) :
    { t with phase := ph }.accepted rx ry = { t.accepted rx ry with phase := ph } := by
  unfold TouchState.accepted TouchState.calibrate
  split <;> rfl

theorem judge_range {s : State} {rx ry : Half} (ha : s.touch.autocal = false)
    (hr : s.touch.inRange rx ry = false) : s.judge rx ry = (.rejected .range, s.setPhase .rangeCheck) :=
  if_pos (by simp [ha, hr])

section
variable {s : State} {rx ry : Half} (hr : s.touch.autocal = true ∨ s.touch.inRange rx ry = true)
include hr

theorem judge_noise (hq : quiet s.params s.touch.sumPrev (rx.toNat + ry.toNat) = false) :
    s.judge rx ry = (.rejected .noise,
      { s with touch := { s.touch with sumPrev := some (rx.toNat + ry.toNat), phase := .noiseCheck } }) :=
  (if_neg (by rcases hr with h | h <;> simp [h])).trans (if_neg (by simp [hq]))

theorem judge_accept (hq : quiet s.params s.touch.sumPrev (rx.toNat + ry.toNat) = true) :
    let touch := { s.touch with phase := .accept }.accepted rx ry
    let point := samplePoint s.params s.geom.rotation touch rx ry
    s.judge rx ry = (.accepted point.1 point.2, { s with touch := touch }) :=
  (if_neg (by rcases hr with h | h <;> simp [h])).trans (if_pos hq)

end

/-! ### A pass on readings that the environment gives (R286 to R296, R298) -/

/-- What a pass leaves: its outcome, the sampler apart from its phase, and the readings still to be given. -/
structure PassLeaves (s : State) (r : SampleOutcome) (touch : TouchState) (adcIn : List Half) : Prop where
  outcome : s.touchPass.1 = r
  sampler : { s.touchPass.2.touch with phase := .idle } = { touch with phase := .idle }
  readings : s.touchPass.2.adcIn = adcIn

/-- The shared pins around a sample do not concern the sampler (R300). -/
theorem passLeaves_of_sample {s u : State} {r : SampleOutcome} (h : s.releaseShared.sample = (r, u)) :
    PassLeaves s r u.touch u.adcIn :=
  ⟨by simp [State.touchPass, h], by simp [State.touchPass, h], by simp [State.touchPass, h]⟩

theorem PassLeaves.exec_touchSample {s t : State} {r : SampleOutcome} {touch : TouchState} {adcIn : List Half}
    (h : PassLeaves s r touch adcIn) (hx : exec .touchSample s = .next t) :
    t.responses = s.responses ++ [{ status := .ok, results := r.results }] ∧ t.adcIn = adcIn ∧
      t.touch = { touch with phase := .idle } := by
  cases (Machine.exec_touchSample (exec_fault hx)).symm.trans hx
  exact ⟨by simp [State.respond, h.outcome], h.readings, h.sampler⟩

section
variable {s : State} {zs xs ys more : List Half} (hz : zs.length = s.params.pressReads)
  (hx : xs.length = s.params.touchN) (hy : ys.length = s.params.touchN) (hadc : s.adcIn = zs ++ xs ++ ys ++ more)
include hz hx hy hadc

theorem passLeaves_noPress (hp : pressureOf s.params zs < s.params.pressTh) :
    PassLeaves s (.rejected .noPress) s.touch (xs ++ ys ++ more) :=
  have h := passLeaves_of_sample ((sample_given s.releaseShared zs xs ys more hz hx hy hadc).trans (if_pos hp))
  ⟨h.outcome, h.sampler, h.readings⟩

variable (hp : s.params.pressTh ≤ pressureOf s.params zs)
include hp

/-- After the pressure check a pass is the judgement of the two medians. -/
theorem passLeaves_of_judge {u : State} {r : SampleOutcome}
    (hj : State.judge { s.releaseShared with adcIn := more, touch := { s.touch with phase := .sampleY } }
      (median xs) (median ys) = (r, u)) : PassLeaves s r u.touch u.adcIn :=
  passLeaves_of_sample (((sample_given s.releaseShared zs xs ys more hz hx hy hadc).trans
    (if_neg (not_lt.2 hp))).trans hj)

theorem passLeaves_range (ha : s.touch.autocal = false) (hr : s.touch.inRange (median xs) (median ys) = false) :
    PassLeaves s (.rejected .range) s.touch more :=
  have h := passLeaves_of_judge hz hx hy hadc hp (judge_range ha hr)
  ⟨h.outcome, h.sampler, h.readings⟩

variable (hr : s.touch.autocal = true ∨ s.touch.inRange (median xs) (median ys) = true)
include hr

theorem passLeaves_noise (hq : quiet s.params s.touch.sumPrev ((median xs).toNat + (median ys).toNat) = false) :
    PassLeaves s (.rejected .noise)
      { s.touch with sumPrev := some ((median xs).toNat + (median ys).toNat) } more :=
  have h := passLeaves_of_judge hz hx hy hadc hp (judge_noise hr hq)
  ⟨h.outcome, h.sampler, h.readings⟩

theorem passLeaves_accept (hq : quiet s.params s.touch.sumPrev ((median xs).toNat + (median ys).toNat) = true) :
    let touch := s.touch.accepted (median xs) (median ys)
    let point := samplePoint s.params s.geom.rotation touch (median xs) (median ys)
    PassLeaves s (.accepted point.1 point.2) touch more := by
  have h := passLeaves_of_judge hz hx hy hadc hp (judge_accept hr hq)
  simp only [TouchState.accepted_withPhase] at h
  exact ⟨h.outcome, h.sampler, h.readings⟩

end

/-- What an accepted sample leaves in the sampler (R293, R296). -/
theorem TouchState.accepted_spec (t : TouchState) (rx ry : Half) :
    (t.accepted rx ry).sumPrev = some (rx.toNat + ry.toNat) ∧
    (t.accepted rx ry).calX.dir = t.calX.dir ∧ (t.accepted rx ry).calY.dir = t.calY.dir ∧
    (t.autocal = false → (t.accepted rx ry).calX = t.calX ∧ (t.accepted rx ry).calY = t.calY) ∧
    (t.autocal = true →
      (t.accepted rx ry).calX = axisWiden t.calX rx ∧ (t.accepted rx ry).calY = axisWiden t.calY ry) := by
  have hw := Widens.calibrate { t with sumPrev := some (rx.toNat + ry.toNat) } rx ry
  refine ⟨TouchState.calibrate_sumPrev _ _ _, hw.xdir, hw.ydir, hw.off, fun ha => ?_⟩
  have hon := TouchState.calibrate_on (t := { t with sumPrev := some (rx.toNat + ry.toNat) }) ha rx ry
  exact ⟨congrArg TouchState.calX hon, congrArg TouchState.calY hon⟩

/-- Settles O46: the four checks of a pass, one lemma each. -/
theorem sampleFollowsItsChecks : Obligations.SampleFollowsItsChecks := by
  refine ⟨fun s t zs xs ys more _ hz hx hy hadc hexec => ?_, fun p px py hx0 hx1 hy0 hy1 =>
    orientOf_upright p ((fitsS16_iff px).2 ⟨hx0, hx1⟩) ((fitsS16_iff py).2 ⟨hy0, hy1⟩)⟩
  simp only [← TouchState.inRange_iff, ← quiet_iff, Bool.not_eq_true]
  refine ⟨fun hp => ?_, fun hp ha hr => ?_, fun hp hr hq => ?_, fun hp hr hq => ?_⟩
  · exact (passLeaves_noPress hz hx hy hadc hp).exec_touchSample hexec
  · exact (passLeaves_range hz hx hy hadc hp ha hr).exec_touchSample hexec
  · exact (passLeaves_noise hz hx hy hadc hp hr hq).exec_touchSample hexec
  · obtain ⟨hresp, hreadings, htouch⟩ := (passLeaves_accept hz hx hy hadc hp hr hq).exec_touchSample hexec
    obtain ⟨hsum, hxdir, hydir, hoff, hon⟩ := s.touch.accepted_spec (median xs) (median ys)
    rw [htouch]
    refine ⟨hreadings, hsum, hoff, fun ha => ?_, _, _, hresp, ?_⟩
    · obtain ⟨hcalX, hcalY⟩ := hon ha
      obtain ⟨hxmin, hxmax⟩ := axisWiden_bounds s.touch.calX (median xs)
      obtain ⟨hymin, hymax⟩ := axisWiden_bounds s.touch.calY (median ys)
      simp only [hcalX, hcalY]
      exact ⟨hxmin, hxmax, hymin, hymax⟩
    · rw [← hxdir, ← hydir]
      rfl

/-- Settles O49: a pass widens the calibration, and the end of the request does not touch it. -/
theorem autocalibrationNeverShrinks : Obligations.AutocalibrationNeverShrinks := by
  intro s t i hs hx
  obtain ⟨t', hx', hend⟩ := exec_touch (exec_fault hx) hs
  cases hx'.symm.trans hx
  obtain ⟨touch, out, pm, a, d, ht, hw, -⟩ := touchPass_frame s
  rw [ht] at hend
  obtain ⟨r, rfl⟩ | ⟨rfl, -⟩ := hend <;>
    exact ⟨hw.xmin, hw.xmax, hw.ymin, hw.ymax, hw.xdir, hw.ydir, hw.off⟩

/-- Settles O50: both requests make the same pass; TOUCH_LISTEN completes or stays by its outcome. -/
theorem touchListenAcceptsOnScreenPoints : Obligations.TouchListenAcceptsOnScreenPoints := by
  refine ⟨fun d3 d2 d1 d0 => ⟨congrArg (fun bs => Code.frame (0x14 :: bs)) (wordBytes_wordOf d3 d2 d1 d0),
    wordOf_toNat d3 d2 d1 d0⟩, fun s delay hf => ?_⟩
  have hsample := exec_touchSample hf
  have hstores := touchPass_stores s
  have hrun := (touchPass_fault s).trans hf
  by_cases h : ∃ x y, s.touchPass.1 = .accepted x y ∧ onScreen s.geom x.toInt y.toInt = true
  · obtain ⟨x, y, ha, hon⟩ := h
    refine ⟨_, _, exec_touchListen_onScreen hf ha hon delay, hsample, hstores, hrun, rfl, rfl, fun x' y' hr _ => ?_,
      fun hno => absurd ⟨x, y, (touchSample_record_iff hsample x y).2 ha, hon⟩ hno⟩
    cases ha.symm.trans ((touchSample_record_iff hsample x' y').1 hr)
    exact ⟨by simp [State.respond, frameLength], rfl, by simp [State.respond]⟩
  · have hoff : ∀ x y, s.touchPass.1 = .accepted x y → onScreen s.geom x.toInt y.toInt = false := fun x y ha =>
      Bool.eq_false_iff.2 fun hon => h ⟨x, y, ha, hon⟩
    exact ⟨_, _, exec_touchListen_stays hf hoff delay, hsample, hstores, hrun, rfl, rfl,
      fun x y hr hon => absurd ⟨x, y, (touchSample_record_iff hsample x y).1 hr, hon⟩ h,
      fun _ => ⟨touchPass_pc s, touchPass_responses s⟩⟩

/-- Settles O51: the readings pass every check and leave the calibration, and the transform of each is exact. -/
theorem touchScenarioGivesTheLinearPoint : Obligations.TouchScenarioGivesTheLinearPoint := by
  intro s zs more hf hz hn hadc hp hnoise hsum hcalX hcalY hrot hw hh
  have hmedian := median_replicate hn 30000
  have hrange : s.touch.inRange 30000 30000 = true := by rw [TouchState.inRange, hcalX, hcalY]; rfl
  have hquiet : quiet s.params s.touch.sumPrev ((30000 : Half).toNat + (30000 : Half).toNat) = true :=
    (quiet_iff _ _ _).2 ⟨60000, hsum, by simpa using Int.lt_of_lt_of_le Int.zero_lt_one hnoise⟩
  have hpoint : samplePoint s.params s.geom.rotation (s.touch.accepted 30000 30000) 30000 30000 = (110, 140) := by
    have hpx : axisPixel { min := 8000, max := 56000, dir := 0 } 240 30000 = 110 := by decide
    have hpy : axisPixel { min := 8000, max := 58000, dir := 0 } 320 30000 = 140 := by decide
    have hcal : s.touch.accepted 30000 30000 = { s.touch with sumPrev := some 60000 } :=
      TouchState.calibrate_of_inRange hrange
    rw [hcal, samplePoint, hcalX, hcalY, hrot, hw, hh, hpx, hpy, orientOf_upright _ rfl rfl]
    rfl
  have hpass := passLeaves_accept hz (List.length_replicate ..) (List.length_replicate ..) hadc hp
    (.inr (by rwa [hmedian])) (by rwa [hmedian])
  rw [hmedian] at hpass
  have haccepted : s.touchPass.1 = .accepted 110 140 := by rw [hpass.outcome, hpoint]
  refine ⟨⟨_, exec_touchSample hf, ?_, ?_⟩, fun delay hwidth hheight => ?_⟩
  · simp [State.respond, haccepted, SampleOutcome.results]
  · simp [State.respond, frameLength]
  · have hon : onScreen s.geom (110 : Half).toInt (140 : Half).toInt = true := by
      rw [onScreen, hwidth, hheight]; rfl
    exact ⟨_, exec_touchListen_onScreen hf haccepted hon delay, by simp [State.respond],
      by simp [State.respond, frameLength]⟩

/-- Settles O52: the pass leaves a bus pin Released, whatever the request makes of its outcome. -/
theorem sharedTouchPinsBlockTheBus : Obligations.SharedTouchPinsBlockTheBus := by
  intro s t i j hinv hr hshared hi hx hj
  have hf := exec_fault hx
  have hreleased := touchPass_released s hinv.cfg hshared hr
  obtain ⟨t', hx', hend⟩ := exec_touch hf hi
  cases hx'.symm.trans hx
  have hrun := (touchPass_fault s).trans hf
  obtain ⟨r, rfl⟩ | ⟨rfl, -⟩ := hend <;> exact takesHazard_of_released hrun hj hreleased

end Sys2Proof.Machine
end

section
/-! Outcomes (60_exceptions.md R330 to R341): every record is a success, or a ProtocolPrecondition that changes nothing
but the response log and pc; and what stands at pc may be no request at all (R338). -/

namespace Sys2Proof.Machine

/-- How an instruction can end: with success, from a state that still has the log and pc and no fault (R330); with
ProtocolPrecondition (R333, R341); with PinModeHazard (R334, R340); or without a record, as a bus word does and a
TOUCH_LISTEN that stays at pc (R307). -/
inductive ExecEnd (s : State) (i : Instr) : State → Prop where
  | success (u : State) (r : Results) (running : u.fault = none) (pc : u.pc = s.pc)
      (log : u.responses = s.responses) : ExecEnd s i (u.respond i r)
  | precondition (may : mayFailPrecondition i = true) : ExecEnd s i (s.raise i .protocolPrecondition)
  | hazard : ExecEnd s i (s.takeFault .pinModeHazard)
  | unrecorded (t : State) (kind : isBusInstr i = true ∨ ∃ delay, i = .touchListen delay)
      (log : t.responses = s.responses) : ExecEnd s i t

theorem exec_ends_of_touch {s : State} {i : Instr} (hf : s.fault = none) (ht : samplesTouch i = true) :
    ∃ t, exec i s = .next t ∧ ExecEnd s i t := by
  obtain ⟨t, hx, ⟨r, rfl⟩ | ⟨rfl, hlisten⟩⟩ := exec_touch hf ht
  · exact ⟨_, hx, .success _ r ((touchPass_fault s).trans hf) (touchPass_pc s) (touchPass_responses s)⟩
  · exact ⟨_, hx, .unrecorded _ (.inr hlisten) (touchPass_responses s)⟩

theorem exec_ends_of_silent {s : State} {i : Instr} (hf : s.fault = none) (hs : storesGpio s i = false)
    (ht : samplesTouch i = false) : ∃ t, exec i s = .next t ∧ ExecEnd s i t := by
  obtain ⟨u, st, r, hx, ⟨rfl, rfl | ⟨rfl, rfl, hmay⟩⟩ | ⟨rfl, rfl⟩ | ⟨cx, cy, auto, rfl, rfl, -⟩⟩ :=
    exec_silent hf hs ht
  · exact ⟨_, hx, .success _ r hf rfl rfl⟩
  · exact ⟨_, hx, .precondition hmay⟩
  · exact ⟨_, hx, .success _ r hf rfl rfl⟩
  · exact ⟨_, hx, .success _ r hf rfl rfl⟩

theorem exec_ends_of_storing {s : State} {i : Instr} (hf : s.fault = none) (hs : storesGpio s i = true) :
    ∃ t, exec i s = .next t ∧ ExecEnd s i t := by
  obtain ⟨t, hx, he⟩ := exec_answers hf i
  refine ⟨t, hx, ?_⟩
  cases he with
  | hazard => exact .hazard
  | busWord hb => exact .unrecorded _ (.inl hb) rfl
  | operations => exact .success _ .none hf rfl rfl
  | record hn | table hn | calibration hn => rw [hs] at hn; cases hn
  | touched ht | listening ht => rw [storesGpio_of_samplesTouch s ht] at hs; cases hs

/-- With no fault every instruction answers a next state, by one of these ends. -/
theorem exec_ends {s : State} (hf : s.fault = none) (i : Instr) : ∃ t, exec i s = .next t ∧ ExecEnd s i t := by
  cases hs : storesGpio s i with
  | true => exact exec_ends_of_storing hf hs
  | false =>
    cases ht : samplesTouch i with
    | true => exact exec_ends_of_touch hf ht
    | false => exact exec_ends_of_silent hf hs ht

/-- Settles O53: of the four ends only ProtocolPrecondition appends a record that is not OK. -/
theorem errorStatusChangesOnlyTheLogAndPc : Obligations.ErrorStatusChangesOnlyTheLogAndPc := by
  intro s t i rec hx hrec hst
  obtain ⟨t', hx', hend⟩ := exec_ends (exec_fault hx) i
  cases hx'.symm.trans hx
  cases hend with
  | success u r _ _ hlog =>
    obtain rfl : { status := .ok, results := r } = rec := by simpa [State.respond, hlog] using hrec
    exact absurd rfl hst
  | precondition =>
    obtain rfl : { status := .protocolPrecondition, results := .none } = rec := by simpa [State.raise] using hrec
    exact ⟨rfl, rfl, rfl⟩
  | hazard => simp at hrec
  | unrecorded _ _ hlog => simp [hlog] at hrec

/-- Settles O54: a request other than TOUCH_LISTEN does not end without a record. -/
theorem requestsEndInOneOfThreeOutcomes : Obligations.RequestsEndInOneOfThreeOutcomes := by
  intro s i hf hb hl
  obtain ⟨t, hx, hend⟩ := exec_ends hf i
  refine ⟨t, hx, ?_⟩
  cases hend with
  | success u r hrun hpc hlog =>
    exact .inr ⟨hrun, congrArg (· + frameLength i) hpc, _, congrArg (· ++ _) hlog, .inl rfl⟩
  | precondition hmay => exact .inr ⟨hf, rfl, _, rfl, .inr ⟨rfl, hmay⟩⟩
  | hazard => exact .inl rfl
  | unrecorded _ hkind =>
    obtain hw | ⟨delay, rfl⟩ := hkind
    · rw [hb] at hw; cases hw
    · exact absurd rfl (hl delay)

/-- Settles O7: the decoder reads no request at the byte, and the fault that the step takes stops everything. -/
theorem illegalOpcodeTakesIllegalRequest : Obligations.IllegalOpcodeTakesIllegalRequest := by
  intro s s' op rest hown hf hq hd hop t
  have hstep : step s = .next t := by
    simp only [step_frame hown hf hq, hd, decodeFrame_of_unmapped hop]
    rfl
  have hstop := noStepWhenHaltedIncompleteOrFinal.1 t .illegalRequest rfl
  exact ⟨hstep, hstop.1, hstop.2⟩

end Sys2Proof.Machine
end

section
/-! Actions of the host between requests (60_exceptions.md R352, R356): what each comes to, by the test for a request
in progress and by its premise on the bits of its operands. -/

namespace Sys2Proof.Machine

theorem step_host {s : State} {a : HostAction} {turns : List Turn} (hs : s.schedule = .host a :: turns) :
    step s = hostStep a { s with schedule := turns } := by
  simp [step, hs]

theorem State.betweenRequests_of_idle {s : State} (h : s.inProgress = false) (k : Result) :
    s.betweenRequests k = k := by
  simp [State.betweenRequests, h]

theorem State.betweenRequests_of_inProgress {s : State} (h : s.inProgress = true) (k : Result) :
    s.betweenRequests k = .refused .hostDuringRequest := by
  simp [State.betweenRequests, h]

/-- A word with the four strobes at 1 meets the premise of PIN_RESTORE (R356). -/
theorem and_strobeMask_of_high {pins : BusPins Nat} {v : Word} (hcs : v.getLsbD pins.cs = true)
    (hwr : v.getLsbD pins.wr = true) (hrd : v.getLsbD pins.rd = true) (hrst : v.getLsbD pins.rst = true) :
    v &&& strobeMask pins = strobeMask pins := by
  refine BitVec.eq_of_getLsbD_eq fun q _ => ?_
  rw [BitVec.getLsbD_and, Bool.and_eq_right_iff_imp, strobeMask_getLsbD]
  intro hq
  simp only [Bool.and_eq_true, Bool.or_eq_true, beq_iff_eq] at hq
  obtain ⟨-, ((rfl | rfl) | rfl) | rfl⟩ := hq <;> assumption

/-- A word with one of the four strobes at 0 does not, as every strobe is a position of a word. -/
theorem and_strobeMask_ne_of_low {pins : BusPins Nat} (hp : PinsValid pins) {v : Word}
    (h : v.getLsbD pins.cs = false ∨ v.getLsbD pins.wr = false ∨ v.getLsbD pins.rd = false ∨
      v.getLsbD pins.rst = false) : v &&& strobeMask pins ≠ strobeMask pins := by
  intro hv
  obtain ⟨⟨hcs, -, hwr, hrd, hrst⟩, -⟩ := hp.facts
  have hhigh (q) (hq : (strobeMask pins).getLsbD q = true) := getLsbD_of_and_eq hv hq
  simp only [strobeMask_getLsbD] at hhigh
  obtain h | h | h | h := h
  · exact Bool.noConfusion (h.symm.trans (hhigh _ (by simp [hcs])))
  · exact Bool.noConfusion (h.symm.trans (hhigh _ (by simp [hwr])))
  · exact Bool.noConfusion (h.symm.trans (hhigh _ (by simp [hrd])))
  · exact Bool.noConfusion (h.symm.trans (hhigh _ (by simp [hrst])))

/-- A change of OUT off the bus pins is no event (R162, R356). -/
theorem State.hostOut_off_bus {s : State} (hp : PinsValid s.cfg.pins) {m : Word} (hm : m &&& busMask s.cfg.pins = 0#32)
    (v : Word) : s.hostOut (replaceBits s.out m v) = { s with out := replaceBits s.out m v } := by
  have hsame (q) (hq : (busMask s.cfg.pins).getLsbD q = true) :
      s.out.getLsbD q = (replaceBits s.out m v).getLsbD q := by
    simp [replaceBits_getLsbD, getLsbD_of_and_eq_zero hm hq]
  obtain ⟨-, -, hquiet, -⟩ := edgesWithoutAndWithIndeterminateEvents _ _ _ hp
  rw [State.hostOut, hquiet hsame, List.append_nil]

section
variable {s : State} {turns : List Turn} (hb : s.inProgress = false)
include hb

theorem step_sendFrames {bytes : List Byte} (hs : s.schedule = .host (.sendFrames bytes) :: turns) :
    step s = .next { s with schedule := turns, stream := s.stream ++ bytes } :=
  (step_host hs).trans (State.betweenRequests_of_idle (s := { s with schedule := turns }) hb _)

theorem step_pinRestore {v : Word} (hs : s.schedule = .host (.pinRestore v) :: turns) :
    step s = if v &&& strobeMask s.cfg.pins = strobeMask s.cfg.pins then
        .next ({ s with schedule := turns }.pinRestore v)
      else .refused .pinRestorePremise :=
  (step_host hs).trans (State.betweenRequests_of_idle (s := { s with schedule := turns }) hb _)

theorem step_extOut {m v : Word} (hs : s.schedule = .host (.extOut m v) :: turns) :
    step s = if m &&& busMask s.cfg.pins = 0#32 then
        .next ({ s with schedule := turns }.hostOut (replaceBits s.out m v))
      else .refused .extOutPremise :=
  (step_host hs).trans (State.betweenRequests_of_idle (s := { s with schedule := turns }) hb _)

end

/-- The three actions are refused while a request is in progress (R356). -/
theorem step_refused_inProgress {s : State} {turns : List Turn} {a : HostAction} (hb : s.inProgress = true)
    (hs : s.schedule = .host a :: turns)
    (ha : (∃ bytes, a = .sendFrames bytes) ∨ (∃ v, a = .pinRestore v) ∨ ∃ m v, a = .extOut m v) :
    step s = .refused .hostDuringRequest := by
  rw [step_host hs]
  obtain ⟨bytes, rfl⟩ | ⟨v, rfl⟩ | ⟨m, v, rfl⟩ := ha <;>
    exact State.betweenRequests_of_inProgress (s := { s with schedule := turns }) hb _

/-- Settles O58: each action passes the test for a request in progress, then its premise, which bits of its operands
decide; PIN_RESTORE sets the modes of BUSMASK, and EXT_OUT makes no event. -/
theorem hostActionsBetweenRequests : Obligations.HostActionsBetweenRequests := by
  refine ⟨fun s turns hb => ⟨fun bytes hs => step_sendFrames hb hs, fun v hs hcs hwr hrd hrst => ?_,
    fun v hs hp hlow => ?_, fun m v hs hm hp => ?_, fun m v hs hm => ?_⟩,
    fun s turns a hb hs ha => step_refused_inProgress hb hs ha, fun s turns ms hs => step_host hs⟩
  · refine ⟨setModes s.pinMode (busMask s.cfg.pins) .output, ?_, fun q hq => ?_, fun q hq => ?_⟩
    · rw [step_pinRestore hb hs, if_pos (and_strobeMask_of_high hcs hwr hrd hrst)]
      rfl
    · rw [modeAt_setModes, if_pos hq]
    · rw [modeAt_setModes, hq, if_neg Bool.false_ne_true]
  · rw [step_pinRestore hb hs, if_neg (and_strobeMask_ne_of_low hp hlow)]
  · rw [step_extOut hb hs, if_pos hm]
    exact congrArg Host.Outcome.next (State.hostOut_off_bus (s := { s with schedule := turns }) hp hm v)
  · rw [step_extOut hb hs, if_neg hm]

end Sys2Proof.Machine
end

section
/-! The order of the configuration checks (70_reset_and_hazards.md R371, 44_touch.md R282): each check as the condition
it stands for, the field it names where the list of fields first breaks it, and construction after a failed check
(R372). -/

namespace Sys2Proof.Machine

/-! ### One check -/

theorem pinUsable_iff {valid : List Int} {v : Int} : pinUsable valid v = true ↔ 0 ≤ v ∧ v ≤ 31 ∧ v ∈ valid := by
  simp [pinUsable, and_assoc]

theorem addrUsable_iff {addrBits a : Nat} : addrUsable addrBits a = true ↔ a % 4 = 0 ∧ a < 2 ^ addrBits := by
  simp [addrUsable]

theorem firstUnusable_append (valid : List Int) (l m : List (PinField × Int)) :
    firstUnusable valid (l ++ m) = (firstUnusable valid l).or (firstUnusable valid m) := by
  induction l with
  | nil => rfl
  | cons x l ih => by_cases hv : pinUsable valid x.2 = true <;> simp [firstUnusable, hv, ih]

theorem firstRepeated_append (seen : List Int) (l m : List (PinField × Int)) :
    firstRepeated seen (l ++ m) =
      (firstRepeated seen l).or (firstRepeated ((l.map Prod.snd).reverse ++ seen) m) := by
  induction l generalizing seen with
  | nil => rfl
  | cons x l ih => by_cases hv : x.2 ∈ seen <;> simp [firstRepeated, hv, ih]

section
variable {valid : List Int} {l pre post : List (PinField × Int)} {f : PinField} {v : Int}

theorem firstUnusable_of_usable (h : ∀ x ∈ l, 0 ≤ x.2 ∧ x.2 ≤ 31 ∧ x.2 ∈ valid) : firstUnusable valid l = none :=
  (firstUnusable_eq_none valid l).2 fun x hx => pinUsable_iff.2 (h x hx)

/-- The first field that is not usable is the one named. -/
theorem firstUnusable_of_split (hl : l = pre ++ (f, v) :: post)
    (hpre : ∀ x ∈ pre, 0 ≤ x.2 ∧ x.2 ≤ 31 ∧ x.2 ∈ valid) (hv : ¬(0 ≤ v ∧ v ≤ 31 ∧ v ∈ valid)) :
    firstUnusable valid l = some (.pin f v) := by
  rw [hl, firstUnusable_append, firstUnusable_of_usable hpre, Option.none_or, firstUnusable,
    if_neg (mt pinUsable_iff.1 hv)]

theorem firstRepeated_of_nodup (h : (l.map Prod.snd).Nodup) : firstRepeated [] l = none :=
  (firstRepeated_eq_none [] l).2 ⟨h, fun _ _ => List.not_mem_nil⟩

/-- The first field that equals one before it is the one named. -/
theorem firstRepeated_of_split (hl : l = pre ++ (f, v) :: post) (hpre : (pre.map Prod.snd).Nodup)
    (hv : v ∈ pre.map Prod.snd) : firstRepeated [] l = some (.pin f v) := by
  have hseen : ((pre.map Prod.snd).reverse ++ []).contains v = true := by simpa using hv
  rw [hl, firstRepeated_append, firstRepeated_of_nodup hpre, Option.none_or, firstRepeated, if_pos hseen]

end

section
variable {p : Params}

theorem addressError_of_outAddr (h : ¬(p.outAddr % 4 = 0 ∧ p.outAddr < 2 ^ p.addrBits)) :
    addressError p = some .outAddr := by
  simp [addressError, mt addrUsable_iff.1 h]

theorem addressError_of_setAddr (ho : p.outAddr % 4 = 0 ∧ p.outAddr < 2 ^ p.addrBits)
    (h : ¬(p.setAddr % 4 = 0 ∧ p.setAddr < 2 ^ p.addrBits)) : addressError p = some .setAddr := by
  simp [addressError, addrUsable_iff.2 ho, mt addrUsable_iff.1 h]

theorem addressError_of_equal (ho : p.outAddr % 4 = 0 ∧ p.outAddr < 2 ^ p.addrBits) (h : p.outAddr = p.setAddr) :
    addressError p = some .setAddr := by
  simp [addressError, ← h, addrUsable_iff.2 ho]

theorem addressError_of_usable (ho : p.outAddr % 4 = 0 ∧ p.outAddr < 2 ^ p.addrBits)
    (hs : p.setAddr % 4 = 0 ∧ p.setAddr < 2 ^ p.addrBits) (h : p.outAddr ≠ p.setAddr) : addressError p = none := by
  simp [addressError, addrUsable_iff.2 ho, addrUsable_iff.2 hs, h]

end

/-! ### The checks in their order -/

/-- Settles O11: the checks before the one that fails answer nothing, and that one names its field or address. -/
theorem configurationChecksNameTheFirstOffender : Obligations.ConfigurationChecksNameTheFirstOffender := by
  intro p usable addrOk busUsable busDistinct touchUsable panelDistinct
  refine ⟨fun pre f v post hl hpre hv => ?_, fun hbus pre f v post hl hpre hv => ?_,
    fun hbus hdist pre f v post hl hpre hv => ?_, fun hbus hdist htouch pre f v post hl hpre hv => ?_,
    fun hbus hdist htouch hpanel => ?_⟩
  · rw [configError, firstUnusable_of_split hl hpre hv, Option.some_or]
  · rw [configError, firstUnusable_of_usable hbus, firstRepeated_of_split hl hpre hv, Option.none_or, Option.some_or]
  · simp only [configError, firstUnusable_of_usable hbus, firstRepeated_of_nodup hdist, Option.none_or,
      firstUnusable_of_split hl hpre hv, Option.some_or]
  · simp only [configError, firstUnusable_of_usable hbus, firstRepeated_of_nodup hdist,
      firstUnusable_of_usable htouch, Option.none_or, firstRepeated_of_split hl hpre hv, Option.some_or]
  · have haddr : configError p = addressError p := by
      simp only [configError, firstUnusable_of_usable hbus, firstRepeated_of_nodup hdist,
        firstUnusable_of_usable htouch, firstRepeated_of_nodup hpanel, Option.none_or]
    rw [haddr]
    exact ⟨addressError_of_outAddr, addressError_of_setAddr, addressError_of_equal, addressError_of_usable⟩

/-- Settles O12: construction starts with empty traces, and the fault of the failed check stops the own move. -/
theorem failedConstructionNeverSteps : Obligations.FailedConstructionNeverSteps := by
  intro p env item h
  have hfault : (construct p env).fault = some (.configurationError item) := congrArg (Option.map _) h
  obtain ⟨-, hstop⟩ := noStepWhenHaltedIncompleteOrFinal.1 (construct p env) _ hfault
  exact ⟨hfault, rfl, rfl, rfl, hstop _ (.inl ⟨rfl, rfl⟩)⟩

end Sys2Proof.Machine
end
